-- ==== Sys2Proof/Word.lean ====
section
/-! DEFINITION. The word types of the block (00_scope.md R12, R13): every value is an unsigned integer of a stated width. -/

namespace Sys2Proof

/-- A byte: 8 bits, unsigned (R12). Characters of the serial stream are bytes (R14). -/
abbrev Byte := BitVec 8

/-- A block address as parsed: `PARSE_BITS` = 16 bits (R10, R40). -/
abbrev Word := BitVec 16

/-- A chip address (R71): a 16-bit word whose bits from the parameter `ADDR_BITS` on are zero. -/
abbrev ChipAddr := BitVec 16

/-- One hex digit's value (40_codec.md R140). -/
abbrev Nibble := BitVec 4

end Sys2Proof
end

