-- ==== Sys2Proof/Config.lean ====
section
/-!
DEFINITION. The implementation parameters of 00_scope.md R10: a record that the machine takes as an argument (it is a field of State,
log 25), the spec's default values (log 1), and the free values, which have no body (logs 2, 3, 5, 26). Text is written as its ASCII
bytes (R14). Times are in nanoseconds.
-/

namespace Sys2Proof

/-- One of the two unlock addresses of a command sequence (42_chip_operations.md R196). -/
inductive UnlockAddr where
  /-- `SDP_ADDR_1`. -/
  | first
  /-- `SDP_ADDR_2`. -/
  | second
deriving DecidableEq, Repr

/-- The parameters of R10 that R9 wants taken as arguments, and those R10 marks OPEN. `PAGEBUF_INIT` and `BASE_INIT` are the free values
`Config.pageBufInit` and `Config.baseInit`. -/
structure Params where
  /-- `ADDR_BITS`: address bits the EEPROM decodes. -/
  addrBits : Nat
  /-- `XFER_CAP`: Transfer Buffer capacity, and the read count of R. -/
  xferCap : Nat
  /-- `PAGE_CAP`: Page Buffer capacity. -/
  pageCap : Nat
  /-- `PAGE_MASK`: mask of a page-fill offset. -/
  pageMask : Word
  /-- `LINE_CAP`: bytes the Command Line holds, without the terminator. -/
  lineCap : Nat
  /-- `ERASED`: the erased-state byte. -/
  erased : Byte
  /-- `T_SETTLE_MIN`. -/
  tSettleMin : Nat
  /-- `T_WE_MIN`. -/
  tWeMin : Nat
  /-- `T_PAGE_MIN`. -/
  tPageMin : Nat
  /-- `BAUD`: the host's serial bit rate; the transport's contract, which the block does not use (R30). -/
  baud : Nat
  /-- `VERSION_STRING`. -/
  versionString : List Byte
  /-- `SDP_ADDR_1`. -/
  sdpAddr1 : Word
  /-- `SDP_ADDR_2`. -/
  sdpAddr2 : Word
  /-- `SDP_RESTORE_ADDR`. -/
  sdpRestoreAddr : Word
  /-- `SEQ_SDP_DISABLE`. -/
  seqSdpDisable : List Byte
  /-- `SEQ_SDP_ENABLE`. -/
  seqSdpEnable : List Byte
  /-- `SEQ_ERASE`. -/
  seqErase : List Byte
  /-- `SEQ_ADDRS` for the bytes of `SEQ_SDP_DISABLE` (R196). -/
  seqAddrsDisable : List UnlockAddr
  /-- `SEQ_ADDRS` for the bytes of `SEQ_SDP_ENABLE` (R196). -/
  seqAddrsEnable : List UnlockAddr
  /-- `SEQ_ADDRS` for the bytes of `SEQ_ERASE` (R196). -/
  seqAddrsErase : List UnlockAddr
  /-- `HELP_TEXT`: the lines of the `?` reply. -/
  helpText : List (List Byte)
  /-- `RESP_EOL`: terminator of every reply line. -/
  respEol : List Byte
  /-- `UNRECOGNIZED_REPLY`. -/
  unrecognizedReply : List Byte
  /-- `CTRL_ACTIVE_LOW`: pin polarity of CE, OE, WE. -/
  ctrlActiveLow : Bool
  /-- `LEGACY_PREPARE_FILL`. -/
  legacyPrepareFill : Bool
  /-- `F_CLK`, in hertz: the clock of an implementation, which the block does not use. -/
  fClk : Nat
  /-- `T_LOAD_MAX`: the page-load window, a property of the chip, which the block does not enforce. -/
  tLoadMax : Nat
deriving DecidableEq, Repr

namespace Config

/-- `ADDR_DIGITS`: most hex digits in an address field (R10). Like `PARSE_BITS` it is no argument: the four digits of 40_codec.md R144 and
the 16 bits of every address operand fix both (log 1). -/
abbrev addrDigits : Nat := 4

/-- `PARSE_BITS`: width of a parsed address, the width of `Word` (R10). -/
abbrev parseBits : Nat := 16

/-- `LINE_TERM`: the input line terminator, LF (R10). -/
abbrev lineTerm : Byte := 0x0A

/-- `CTRL_MAX`: bytes at or below it, other than LF, are discarded (R10). -/
abbrev ctrlMax : Byte := 0x1F

/-- `FRAME` 8N1 is 10 bit times: a start bit, 8 data bits, a stop bit (R349, GK5: PRESUMED by the spec). -/
def frameBits : Nat := 10

/-- "ERR", with which every error line starts (60_exceptions.md R291). -/
def errText : List Byte := [0x45, 0x52, 0x52]

/-- Free value: the first line of the default `HELP_TEXT`, which is OPEN but has at least one line (R259, D16; log 2). -/
opaque helpFirst : List Byte

/-- Free value: the further lines of the default `HELP_TEXT` (R259, D16; log 2). -/
opaque helpRest : List (List Byte)

/-- Free value: `F_CLK`, which is OPEN (R10; log 26). -/
opaque fClk : Nat

/-- Free value: `T_LOAD_MAX`, which is OPEN (R10, 70_reset_and_hazards.md R344; log 26). -/
opaque tLoadMax : Nat

/-- Free value: `PAGEBUF_INIT`, byte `i` of the Page Buffer after reset number `n`, a draw (R39, D7; log 3). -/
opaque pageBufInit : (n i : Nat) → Byte

/-- Free value: `BASE_INIT`, the Base Address after reset number `n`, a draw (R40, D7; log 3). -/
opaque baseInit : (n : Nat) → Word

/-- Free value: the byte on D[7:0] at sample number `n`, where the environment has given none (R166, U5; log 5). -/
opaque sampledByte : (n : Nat) → Byte

/-- The default `SEQ_ADDRS` of a sequence (R196, D29; PRESUMED by the spec, GK1; log 13): every 0x55 byte goes to `SDP_ADDR_2`, every
other byte to `SDP_ADDR_1`. -/
def jedecAddrs (seq : List Byte) : List UnlockAddr := seq.map fun v => if v = 0x55 then .second else .first

/-- The parameters at the spec's default values (R10; log 1). -/
def params : Params :=
  { addrBits := 15
    xferCap := 16
    pageCap := 128
    pageMask := 0x7F
    lineCap := 80
    erased := 0xFF
    tSettleMin := 1000
    tWeMin := 1000
    tPageMin := 10000000
    baud := 9600
    versionString :=
      [0x45, 0x45, 0x50, 0x52, 0x4F, 0x4D, 0x20, 0x56, 0x65, 0x72, 0x73, 0x69, 0x6F, 0x6E, 0x3D, 0x30, 0x2E, 0x30, 0x33]
    sdpAddr1 := 0x5555
    sdpAddr2 := 0x2AAA
    sdpRestoreAddr := 0x0000
    seqSdpDisable := [0xAA, 0x55, 0x80, 0xAA, 0x55, 0x20]
    seqSdpEnable := [0xAA, 0x55, 0xA0]
    seqErase := [0xAA, 0x55, 0x80, 0xAA, 0x55, 0x10]
    seqAddrsDisable := jedecAddrs [0xAA, 0x55, 0x80, 0xAA, 0x55, 0x20]
    seqAddrsEnable := jedecAddrs [0xAA, 0x55, 0xA0]
    seqAddrsErase := jedecAddrs [0xAA, 0x55, 0x80, 0xAA, 0x55, 0x10]
    helpText := helpFirst :: helpRest
    respEol := [0x0A]
    unrecognizedReply := errText
    ctrlActiveLow := true
    legacyPrepareFill := false
    fClk := fClk
    tLoadMax := tLoadMax }

end Config

/-- One line of reply text: no LF in it, and no byte of `RESP_EOL` (R291; DEDUCED, log 1). -/
abbrev Params.oneLine (p : Params) (text : List Byte) : Prop := ∀ b ∈ text, b ≠ Config.lineTerm ∧ b ∉ p.respEol

/-- What may be assumed of the parameters: R11, at least one help line (R259), an unrecognized reply that is one line and starts with
`ERR` (R291), and one address for each sequence byte (R196). -/
abbrev Params.ok (p : Params) : Prop :=
  1 ≤ p.addrBits ∧ p.addrBits ≤ Config.parseBits ∧
  p.pageMask.toNat + 1 = p.pageCap ∧ (∃ k, k < 17 ∧ p.pageCap = 2 ^ k) ∧
  1 ≤ p.xferCap ∧ 1 + Config.addrDigits + 1 + 2 * p.xferCap + 3 ≤ p.lineCap ∧
  p.sdpAddr1.toNat < 2 ^ p.addrBits ∧ p.sdpAddr2.toNat < 2 ^ p.addrBits ∧ p.sdpRestoreAddr.toNat < 2 ^ p.addrBits ∧
  p.helpText ≠ [] ∧ p.unrecognizedReply.take 3 = Config.errText ∧ p.oneLine p.unrecognizedReply ∧
  p.seqAddrsDisable.length = p.seqSdpDisable.length ∧ p.seqAddrsEnable.length = p.seqSdpEnable.length ∧
  p.seqAddrsErase.length = p.seqErase.length

/-- The word an unlock address stands for (R196). -/
def Params.unlock (p : Params) : UnlockAddr → Word
  | .first => p.sdpAddr1
  | .second => p.sdpAddr2

end Sys2Proof
end

