-- ==== Sys2Proof/Machine/Codec.lean ====
section
/-!
DEFINITION. The Hex/Checksum Codec (40_codec.md): pure functions on bytes and characters.
-/

namespace Sys2Proof.Machine

/-- `hexval(c)`: a hex digit's value, and 0 for every other byte (R140). -/
def hexval (c : Byte) : Nibble :=
  if 0x30 ≤ c ∧ c ≤ 0x39 then (c - 0x30).setWidth 4
  else if 0x41 ≤ c ∧ c ≤ 0x46 then (c - 0x41 + 10).setWidth 4
  else if 0x61 ≤ c ∧ c ≤ 0x66 then (c - 0x61 + 10).setWidth 4
  else 0

/-- `digit_lc(d)` (R142). -/
def digitLower (d : Nibble) : Byte :=
  if d < 10 then 0x30 + d.setWidth 8 else 0x61 + d.setWidth 8 - 10

/-- `digit_uc(d)` (R143). -/
def digitUpper (d : Nibble) : Byte :=
  if d < 10 then 0x30 + d.setWidth 8 else 0x41 + d.setWidth 8 - 10

/-- `b[7:4]`. -/
def highNibble (b : Byte) : Nibble := b.extractLsb' 4 4

/-- `b[3:0]`. -/
def lowNibble (b : Byte) : Nibble := b.extractLsb' 0 4

/-- `hex2(b)`: two lowercase digits (R142). -/
def hex2 (b : Byte) : List Byte := [digitLower (highNibble b), digitLower (lowNibble b)]

/-- `HEX2(b)`: two uppercase digits, for the checksum-mismatch reply (R143). -/
def hex2Upper (b : Byte) : List Byte := [digitUpper (highNibble b), digitUpper (lowNibble b)]

/-- `hex4(v)`: four lowercase digits, most significant first (R144). -/
def hex4 (v : Word) : List Byte := hex2 (v.extractLsb' 8 8) ++ hex2 (v.extractLsb' 0 8)

/-- `pair(c1, c2)`: `c1` is the high nibble (R145). -/
def pair (c1 c2 : Byte) : Byte := hexval c1 ++ hexval c2

/-- `xorsum(bs)`: XOR of all bytes, 0 for none (R146). -/
def xorsum : List Byte → Byte
  | [] => 0
  | b :: bs => b ^^^ xorsum bs

/-- `chipaddr(v)`: what reaches the chip's `bits` = `ADDR_BITS` address pins, `v mod 2^ADDR_BITS` (20_memory.md R71). -/
def chipaddr (bits : Nat) (v : Word) : ChipAddr := BitVec.ofNat 16 (v.toNat % 2 ^ bits)

end Sys2Proof.Machine
end

