-- ==== Sys2Proof/Syntax.lean ====
section
/-!
DEFINITION. The instruction set: one constructor per row of spec/opcode_table.json (30_encoding.md R113), with the operands
the parse helpers of 44_commands.md R262 and R263 read from the line.
-/

namespace Sys2Proof

/-- The address field of R and N (30_encoding.md R108). -/
inductive AddrOperand where
  /-- The field is empty, `k = 0` (44_commands.md R263). -/
  | missing
  /-- The parsed 16-bit value. -/
  | value (a : Word)
deriving DecidableEq, Repr

/-- The operands of W and S (30_encoding.md R108 to R111). -/
inductive PayloadOperand where
  /-- The address field is empty, `k = 0` (44_commands.md R262). -/
  | noAddress
  /-- No `':'` right after the address field (30_encoding.md R109). -/
  | noSeparator
  /-- The address, the decoded bytes (at most `XFER_CAP`), and the given checksum where the line has one. -/
  | fields (a : Word) (data : List Byte) (given : Option Byte)
deriving DecidableEq, Repr

/-- The commands of the block, one per row of the opcode table, in the table's order. -/
inductive Instr where
  /-- V (44_commands.md R250). -/
  | version
  /-- P (44_commands.md R251). -/
  | protect
  /-- U (44_commands.md R252). -/
  | unprotect
  /-- R (44_commands.md R253). -/
  | read (arg : AddrOperand)
  /-- W (44_commands.md R254). -/
  | write (arg : PayloadOperand)
  /-- B (44_commands.md R255). -/
  | erase
  /-- N (44_commands.md R256). -/
  | prepare (arg : AddrOperand)
  /-- S (44_commands.md R257). -/
  | fill (arg : PayloadOperand)
  /-- T (44_commands.md R258). -/
  | program
  /-- ? (44_commands.md R259). -/
  | help
  /-- The empty line (44_commands.md R260). -/
  | empty
  /-- Any other tag byte (44_commands.md R261). -/
  | unrecognized (tag : Byte)
deriving DecidableEq, Repr

end Sys2Proof
end

