-- ==== Sys2Proof/Machine/Operands.lean ====
section
/-!
DEFINITION. The operand forms: address, separator, data and checksum fields of a stored line (30_encoding.md R108 to R111;
40_codec.md R141; 44_commands.md R262, R263). Each function reads the rest of the line, the bytes from the parse cursor on.
-/

namespace Sys2Proof.Machine

/-- `':'`, the separator and the address terminator (R108, R109). -/
def colon : Byte := 0x3A

/-- `','`, the end of the data field (R110). -/
def comma : Byte := 0x2C

/-- The loop of `parseAddr` (R141): `digits` digits may still be taken, `v` and `k` are what it has so far. -/
def parseAddrFrom : (digits : Nat) → Word → (k : Nat) → List Byte → Word × Nat × List Byte
  | 0, v, k, cs => (v, k, cs)
  | _ + 1, v, k, [] => (v, k, [])
  | digits + 1, v, k, c :: cs =>
    if c = colon then (v, k, c :: cs)
    else parseAddrFrom digits ((v <<< 4) ||| (hexval c).setWidth 16) (k + 1) cs

/-- `parseAddr(p)` (R141): the value, the digit count, and the line from the byte after the field on. -/
def parseAddr (cs : List Byte) : Word × Nat × List Byte := parseAddrFrom Config.addrDigits 0 0 cs

/-- `requireAddr()` (R263), up to the raise: an empty field is `missing`; what follows the field is ignored (R105, D42). -/
def requireAddr (cs : List Byte) : AddrOperand :=
  match parseAddr cs with
  | (_, 0, _) => .missing
  | (a, _ + 1, _) => .value a

/-- The data loop of `parseWS` (R262): at most `room` bytes are kept, a lone character and excess payload are
skipped (D21, D22, D24). Answers the bytes and the line from the `','` (or the end) on. -/
def parseData : Nat → List Byte → List Byte × List Byte
  | _, [] => ([], [])
  | 0, c :: cs => if c = comma then ([], c :: cs) else parseData 0 cs
  | _ + 1, [c] => if c = comma then ([], [c]) else ([], [])
  | room + 1, c :: d :: ds =>
    if c = comma then ([], c :: d :: ds)
    else if d = comma then ([], d :: ds)
    else
      let r := parseData room ds
      (pair c d :: r.1, r.2)

/-- The checksum field of `parseWS` (R262, R111): a `','` with at least two characters after it (D23). -/
def parseChecksum : List Byte → Option Byte
  | c :: c1 :: c2 :: _ => if c = comma then some (pair c1 c2) else none
  | _ => none

/-- `parseWS()` (R262) with `cap` = `XFER_CAP`, up to the checksum comparison, which the handler makes (Flags.lean). -/
def parsePayload (cap : Nat) (cs : List Byte) : PayloadOperand :=
  match parseAddr cs with
  | (_, 0, _) => .noAddress
  | (_, _ + 1, []) => .noSeparator
  | (a, _ + 1, c :: rest) =>
    if c = colon then
      let r := parseData cap rest
      .fields a r.1 (parseChecksum r.2)
    else .noSeparator

end Sys2Proof.Machine
end

