-- ==== Sys2Proof/WellFormed.lean ====
section
/-!
DEFINITION. Well-formed instructions: those that some stored line stands for.
-/

namespace Sys2Proof

/-- The ten tag bytes of 30_encoding.md R113. -/
def tagBytes : List Byte := [0x56, 0x50, 0x55, 0x52, 0x57, 0x42, 0x4E, 0x53, 0x54, 0x3F]

/-- At most `XFER_CAP` decoded bytes (30_encoding.md R110). -/
def PayloadOperand.wellFormed (p : Params) : PayloadOperand → Bool
  | .noAddress => true
  | .noSeparator => true
  | .fields _ data _ => data.length ≤ p.xferCap

/-- An unrecognized tag is a byte that can be stored and is not one of the ten tags (30_encoding.md R114). -/
def wellFormed (p : Params) : Instr → Bool
  | .version => true
  | .protect => true
  | .unprotect => true
  | .read _ => true
  | .write arg => arg.wellFormed p
  | .erase => true
  | .prepare _ => true
  | .fill arg => arg.wellFormed p
  | .program => true
  | .help => true
  | .empty => true
  | .unrecognized tag => Config.ctrlMax < tag && !tagBytes.contains tag

end Sys2Proof
end

