-- ==== Sys2Proof/Decode.lean ====
section
/-!
DEFINITION. Decoding of command lines (30_encoding.md R100 to R115; 43_protocol.md R226) and an encoder for well-formed
instructions, written from the same formats F0 to F3 (R103).
-/

namespace Sys2Proof

/-- Why a byte stream holds no command line that is dispatched. -/
inductive DecodeError where
  /-- No LF: the line has not ended (30_encoding.md R102). -/
  | unterminated
  /-- More than `LINE_CAP` storable bytes before the LF: nothing is dispatched (43_protocol.md R225). -/
  | lineOverflow
deriving DecidableEq, Repr

/-- The instruction a stored line stands for: the dispatch table of 43_protocol.md R226. Every stored line is one (R114). -/
def decodeLine (p : Params) : List Byte → Instr
  | [] => .empty
  | tag :: cs =>
    if tag = 0x56 then .version
    else if tag = 0x50 then .protect
    else if tag = 0x55 then .unprotect
    else if tag = 0x52 then .read (Machine.requireAddr cs)
    else if tag = 0x57 then .write (Machine.parsePayload p.xferCap cs)
    else if tag = 0x42 then .erase
    else if tag = 0x4E then .prepare (Machine.requireAddr cs)
    else if tag = 0x53 then .fill (Machine.parsePayload p.xferCap cs)
    else if tag = 0x54 then .program
    else if tag = 0x3F then .help
    else .unrecognized tag

/-- A byte that is kept in the Command Line: above `CTRL_MAX` (30_encoding.md R101). -/
def storable (b : Byte) : Bool := Config.ctrlMax < b

/-- The bytes up to the first LF, and those after it. -/
def splitLine : List Byte → Option (List Byte × List Byte)
  | [] => none
  | b :: bs =>
    if b = Config.lineTerm then some ([], bs)
    else match splitLine bs with
      | none => none
      | some (l, rest) => some (b :: l, rest)

/-- Reads one command from a raw byte stream: the line ends at the first LF, control bytes are dropped (R101), and the
rest of the stream is answered with the instruction. -/
def decode (p : Params) (raw : List Byte) : Except DecodeError (Instr × List Byte) :=
  match splitLine raw with
  | none => .error .unterminated
  | some (l, rest) =>
    let stored := l.filter storable
    if stored.length ≤ p.lineCap then .ok (decodeLine p stored, rest) else .error .lineOverflow

/-- The bytes of a number, bits 7 to 0 first: how spec/opcode_table.json numbers an instruction's bits. -/
def wordBytes (nbits w : Nat) : List Byte :=
  (List.range ((nbits + 7) / 8)).map fun k => BitVec.ofNat 8 (w >>> (8 * k))

/-- The raw byte stream of a table word: its bytes and the LF. A line's length is where its LF stands (R102), so the bits above
`nbits` (zero) are no bytes of the line; NUL bytes there would be discarded by R101 all the same (log 17). -/
def tableStream (nbits w : Nat) : List Byte := wordBytes nbits w ++ [Config.lineTerm]

/-- The instruction the decoder reads from a table word, at the default parameters. -/
def decodeTableWord (nbits w : Nat) : Option Instr :=
  match decode Config.params (tableStream nbits w) with
  | .ok (i, _) => some i
  | .error _ => none

/-- The address field of a line, always with four digits (R108). -/
def encodeAddr : AddrOperand → List Byte
  | .missing => []
  | .value a => Machine.hex4 a

/-- The checksum field: `','` and two digits (R111). -/
def encodeChecksum : Option Byte → List Byte
  | none => []
  | some c => Machine.comma :: Machine.hex2 c

/-- Address, `':'`, data pairs and checksum (R104); a line without separator is an address alone. -/
def encodePayload : PayloadOperand → List Byte
  | .noAddress => []
  | .noSeparator => Machine.hex4 0
  | .fields a data given => Machine.hex4 a ++ Machine.colon :: (data.flatMap Machine.hex2 ++ encodeChecksum given)

/-- The stored line of an instruction: the grammar of 30_encoding.md R116, and the malformed lines of R117. -/
def encode : Instr → List Byte
  | .version => [0x56]
  | .protect => [0x50]
  | .unprotect => [0x55]
  | .read arg => 0x52 :: encodeAddr arg
  | .write arg => 0x57 :: encodePayload arg
  | .erase => [0x42]
  | .prepare arg => 0x4E :: encodeAddr arg
  | .fill arg => 0x53 :: encodePayload arg
  | .program => [0x54]
  | .help => [0x3F]
  | .empty => []
  | .unrecognized tag => [tag]

/-- The bytes a host sends for an instruction: the line and its LF (R101). -/
def encodeRaw (i : Instr) : List Byte := encode i ++ [Config.lineTerm]

end Sys2Proof
end

