-- ==== Sys2Proof/Machine/State.lean ====
section
/-!
DEFINITION. The state of the block (10_state.md) as plain data, with the environment's side of its ports (R30), the reasons a
step can stop, and the machine right after reset (R52, 70_reset_and_hazards.md R330).
-/

namespace Sys2Proof.Machine

/-- The command state machine's states (10_state.md R34). -/
inductive Fsm where
  | awaitingLine
  | dispatching
deriving DecidableEq, Repr

/-- Direction of the data lines, the field `DIR` of BUSCTL (10_state.md R42). -/
inductive Dir where
  | input
  | output
deriving DecidableEq, Repr

/-- The three control lines of BUSCTL (10_state.md R42). -/
inductive CtlLine where
  | ce
  | oe
  | we
deriving DecidableEq, Repr

/-- The delay timer (10_state.md R47): idle, or measuring a wait of at least `minNs` nanoseconds. No time value is kept: an
event after a wait means that the minimum has passed (log 11). -/
inductive DelayTimer where
  | idle
  | waiting (minNs : Nat)
deriving DecidableEq, Repr

/-- The pin events of 41_bus_sequencer.md R161. -/
inductive BusEvent where
  | setAddr (a : Word)
  | setDir (d : Dir)
  | drive (v : Byte)
  | assertLine (l : CtlLine)
  | deassertLine (l : CtlLine)
  | wait (minNs : Nat)
  | sample (b : Byte)
deriving DecidableEq, Repr

/-- What happens at the ports of 10_state.md R30, one event at an instant. -/
inductive PortEvent where
  /-- A byte moved on `rx`. -/
  | rx (b : Byte)
  /-- A pin event of the bus event trace. -/
  | pin (e : BusEvent)
  /-- A byte moved on `tx`. -/
  | tx (b : Byte)
  /-- `rst` rose and fell (70_reset_and_hazards.md R330). -/
  | rst
deriving DecidableEq, Repr

/-- The registers behind the EEPROM pins: BUSCTL (`ce`, `oe`, `we`, `dir`; R42), `bus_a` (R43), `bus_dout` (R44) and the
delay timer that spaces the pin events (R47). A control bit is true when its line is asserted, whatever its pin polarity (R41). -/
structure BusRegs where
  ce : Bool
  oe : Bool
  we : Bool
  dir : Dir
  addr : ChipAddr
  dout : Byte
  timer : DelayTimer
deriving DecidableEq, Repr

/-- The whole state: the parameters, block state, the environment's side of the ports, the record of port events. -/
structure State where
  /-- The model's own: the implementation's parameters, the argument of R9. No step changes them (log 25). -/
  params : Params
  /-- `fsm` (R34). -/
  fsm : Fsm
  /-- `line[0 .. LINE_CAP-1]`, the Command Line buffer (R35). Its bytes stay between commands (DESIGN CHOICE, log 27). -/
  line : List Byte
  /-- `len`, how many bytes of `line` are meaningful (R36). -/
  len : Nat
  /-- `ovf`, the line-overflow flag (R37). -/
  ovf : Bool
  /-- `xfer[0 .. XFER_CAP-1]`, the Transfer Buffer (R38). -/
  xfer : List Byte
  /-- `xfer_n`, how many bytes of `xfer` are valid (R38). Both keep their values between commands (DESIGN CHOICE, log 27). -/
  xferN : Nat
  /-- `page[0 .. PAGE_CAP-1]`, the Page Buffer (R39). -/
  page : List Byte
  /-- `base`, the Base Address (R40). -/
  base : Word
  /-- BUSCTL, `bus_a`, `bus_dout` and the delay timer (R42 to R44, R47). -/
  bus : BusRegs
  /-- `sdp_saved` (R46). It keeps its value between commands (DESIGN CHOICE, log 27). -/
  sdpSaved : Byte
  /-- The position in the running command (R33): `none` until its handler has run, then the reply bytes that `Emit` has still to
  hand over (60_exceptions.md R298; logs 8, 9). -/
  reply : Option (List Byte)
  /-- The model's own: bytes the transport offers on `rx`, in order (R30; log 6). -/
  rx : List Byte
  /-- The model's own: values on `eep_d_in` at the next sample instants (R45, R166; log 5). -/
  eepIn : List Byte
  /-- The model's own: how many samples have been taken; indexes the free value of R166 (log 5). -/
  samples : Nat
  /-- The model's own: the level of `tx_ready` (R298; log 9). -/
  txReady : Bool
  /-- The model's own: `none` while `rst` stays low, `some k` when it rises after `k` more port events (R333; log 10). -/
  rst : Option Nat
  /-- The model's own: how many resets have happened; indexes the draws of R39 and R40 (log 3). -/
  resets : Nat
  /-- Every port event since power-on, oldest first; holds the output stream (R48) and the bus event trace (R160) (log 12). -/
  history : List PortEvent
deriving DecidableEq, Repr

/-- The reset values of the bus side: deasserted, Input, zero, idle (R52, D6). -/
def BusRegs.reset : BusRegs :=
  { ce := false, oe := false, we := false, dir := .input, addr := 0, dout := 0, timer := .idle }

/-- The Page Buffer after reset number `n`: the draw `PAGEBUF_INIT` (R39; log 3). -/
def pageInit (p : Params) (n : Nat) : List Byte := (List.range p.pageCap).map (Config.pageBufInit n)

/-- The machine right after power-on reset (R52, R330, R331). `line`, `xfer`, `xfer_n` and `sdp_saved` are unspecified there and
hold zero (DESIGN CHOICE, log 4); the environment offers nothing yet (DESIGN CHOICE, log 24); the parameters are the defaults (log 1). -/
def State.reset : State :=
  { params := Config.params
    fsm := .awaitingLine
    line := List.replicate Config.params.lineCap 0
    len := 0
    ovf := false
    xfer := List.replicate Config.params.xferCap 0
    xferN := 0
    page := pageInit Config.params 0
    base := Config.baseInit 0
    bus := BusRegs.reset
    sdpSaved := 0
    reply := none
    rx := []
    eepIn := []
    samples := 0
    txReady := true
    rst := none
    resets := 0
    history := [] }

/-- Why the machine stops with a fault. -/
inductive Fault where
  /-- Raised by setDataLinesDirection, readByteAt and writeByteAt when their precondition is false (41_bus_sequencer.md R168,
  60_exceptions.md R292). Safe: the spec makes it final and defines no later step. -/
  | busPrecondition
deriving DecidableEq, Repr

/-- Why the machine gives an instruction no meaning. -/
inductive Refusal where
  /-- Raised by an arm of `exec` whose instruction has no meaning yet. Safe: nothing is claimed of it. -/
  | notModelled (mnemonic : String)
deriving DecidableEq, Repr

/-- The outcome of a step of this machine. -/
abbrev Result := Host.Outcome State Fault Refusal

end Sys2Proof.Machine
end

