-- ==== Sys2Proof/Machine/Flags.lean ====
section
/-!
DEFINITION. Flag computations. The block has no condition codes (10_state.md R49): its one flag is `ovf` (R37), and the checksum
comparison of a W or S is a transient value of one command (R49).
-/

namespace Sys2Proof.Machine

/-- The new `ovf` and `len` decision of R224: a storable byte overflows exactly when the line is full. -/
def lineFull (s : State) : Bool := !(s.len < s.params.lineCap)

/-- The checksum comparison of 44_commands.md R262: `some (given, computed)` when a checksum is present and wrong. -/
def checksumMismatch (given : Option Byte) (bs : List Byte) : Option (Byte × Byte) :=
  match given with
  | none => none
  | some g => if g ≠ xorsum bs then some (g, xorsum bs) else none

end Sys2Proof.Machine
end

