-- ==== Sys2Proof/Machine/Ops.lean ====
section
/-!
DEFINITION. The named operations on buffers, replies, errors, the line and the environment's inputs. An error of 60_exceptions.md is
taken by `raise` and left by `startLine`.
-/

namespace Sys2Proof.Machine

/-! ### Buffers -/

/-- `buf[i] <- b`: the bytes before and after index `i` stay. -/
def putByte (buf : List Byte) (i : Nat) (b : Byte) : List Byte := buf.take i ++ b :: buf.drop (i + 1)

/-- `buf[0 .. n-1] <- bs` with `n = |bs|` in a buffer of `cap` bytes: the bytes from `n` on stay, what does not fit is dropped. -/
def overwrite (cap : Nat) (buf bs : List Byte) : List Byte := (bs ++ buf.drop bs.length).take cap

/-- `line[0 .. len-1]`, the stored line (10_state.md R35, R36). -/
def State.lineBytes (s : State) : List Byte := s.line.take s.len

/-- `xfer[0 .. xfer_n-1]` (10_state.md R38). -/
def State.xferBytes (s : State) : List Byte := s.xfer.take s.xferN

/-- Fills the Transfer Buffer: `xfer[0 .. n-1]` and `xfer_n` (10_state.md R38, 44_commands.md R253, R262). -/
def loadXfer (bs : List Byte) (s : State) : State :=
  { s with xfer := overwrite s.params.xferCap s.xfer bs, xferN := bs.length }

/-- The Page Buffer index of a fill (20_memory.md R74): every index is masked with `PAGE_MASK` (D26). -/
def pageIndex (mask o : Word) : Nat := (o &&& mask).toNat

/-- The copy loop of fillPageBuffer (42_chip_operations.md R199). -/
def fillPage (mask : Word) (page : List Byte) (o : Word) : List Byte → List Byte
  | [] => page
  | b :: bs => fillPage mask (page.set (pageIndex mask o) b) (o + 1) bs

/-- The Page Buffer after a prepare: all `ERASED` (R198), or only the last byte with `LEGACY_PREPARE_FILL` (R201). -/
def preparedPage (p : Params) (page : List Byte) : List Byte :=
  if p.legacyPrepareFill then page.set (p.pageCap - 1) p.erased else List.replicate p.pageCap p.erased

/-! ### Replies -/

/-- `OK` (30_encoding.md R122). -/
def okLine : List Byte := [0x4F, 0x4B]

/-- `ERR` (30_encoding.md R122). -/
def errLine : List Byte := [0x45, 0x52, 0x52]

/-- The read-data line (30_encoding.md R120). -/
def dataLine (a : Word) (bs : List Byte) : List Byte :=
  hex4 a ++ colon :: (bs.flatMap hex2 ++ comma :: hex2 (xorsum bs))

/-- The checksum-mismatch line (30_encoding.md R121): `ERR`, a space, the given byte, a space, the computed byte. -/
def mismatchLine (given computed : Byte) : List Byte :=
  errLine ++ 0x20 :: (hex2Upper given ++ 0x20 :: hex2Upper computed)

/-- The reply bytes a handler has produced and not yet handed over. -/
def State.replyBytes (s : State) : List Byte := s.reply.getD []

/-- The handler has run: its reply is what stands in the queue, possibly nothing (43_protocol.md R222, R226). -/
def finish (s : State) : State := { s with reply := some s.replyBytes }

/-- `Emit(text)`: the bytes of `text`, then `RESP_EOL`, are to be handed to the transport (00_scope.md R17, 30_encoding.md R124). -/
def emit (text : List Byte) (s : State) : State :=
  { s with reply := some (s.replyBytes ++ (text ++ s.params.respEol)) }

/-- `Emit` of each line in turn (44_commands.md R259). -/
def emitAll : List (List Byte) → State → State
  | [], s => finish s
  | l :: ls, s => emitAll ls (emit l s)

/-! ### Errors -/

/-- The error kinds of 60_exceptions.md R290, with the information each records. -/
inductive ErrorKind where
  | lineOverflow
  | unrecognized
  | malformed
  | checksumMismatch (given computed : Byte)
deriving DecidableEq, Repr

/-- The labels E1 to E4 (60_exceptions.md R290, D35); the block never emits them. -/
def errorCode : ErrorKind → Nat
  | .lineOverflow => 1
  | .unrecognized => 2
  | .malformed => 3
  | .checksumMismatch _ _ => 4

/-- The reply line of an error (60_exceptions.md R291). -/
def errorLine (p : Params) : ErrorKind → List Byte
  | .lineOverflow => errLine
  | .unrecognized => p.unrecognizedReply
  | .malformed => errLine
  | .checksumMismatch given computed => mismatchLine given computed

/-- `raise E(info)` (00_scope.md R17, 60_exceptions.md R294): the handler ends and its error line is emitted. Nothing is saved.
The return to AwaitingLine is `startLine`, which the state machine makes when the line has been handed over (R295). -/
def raise (e : ErrorKind) (s : State) : State := emit (errorLine s.params e) s

/-- The start of a line, and the return from an error (43_protocol.md R221, 60_exceptions.md R294 (3)). `line`, `xfer`, `xfer_n` and
`sdp_saved`, which may have any value between commands (U4), keep what the last command left in them (DESIGN CHOICE, log 27). -/
def startLine (s : State) : State :=
  { s with fsm := .awaitingLine, len := 0, ovf := false, reply := none }

/-! ### Line reception -/

/-- `receive(b)` (43_protocol.md R224). -/
def receive (b : Byte) (s : State) : State :=
  if b = Config.lineTerm then { s with fsm := .dispatching }
  else if storable b then
    if lineFull s then { s with ovf := true }
    else { s with line := putByte s.line s.len b, len := s.len + 1 }
  else s

/-- Receives bytes while the block awaits a line; the bytes after the LF are not taken (R223). -/
def receiveAll : List Byte → State → State
  | [], s => s
  | b :: bs, s =>
    match s.fsm with
    | .awaitingLine => receiveAll bs (receive b s)
    | .dispatching => s

/-- Takes the next offered byte (10_state.md R30, 43_protocol.md R223); with none offered the block waits (U20; log 7). -/
def takeByte (s : State) : State :=
  match s.rx with
  | [] => s
  | b :: bs => receive b { s with rx := bs, history := s.history ++ [.rx b] }

/-! ### Handing the reply over -/

/-- The delay timer runs out (10_state.md R47). -/
def elapse (s : State) : State := { s with bus := { s.bus with timer := .idle } }

/-- One byte moves on `tx` (10_state.md R30, 60_exceptions.md R298). -/
def handOver (b : Byte) (rest : List Byte) (s : State) : State :=
  { s with reply := some rest, history := s.history ++ [.tx b] }

/-! ### Samples -/

/-- The byte the EEPROM drives at the next sample: what the environment gives, else the free value (R166; log 5). -/
def State.nextSample (s : State) : Byte :=
  match s.eepIn with
  | [] => Config.sampledByte s.samples
  | b :: _ => b

/-- A sample has been taken: the environment moves on to the next one. -/
def takeSample (s : State) : State := { s with eepIn := s.eepIn.tail, samples := s.samples + 1 }

/-- `n` samples have been taken. -/
def takeSamples : (n : Nat) → State → State
  | 0, s => s
  | n + 1, s => takeSamples n (takeSample s)

/-- The bytes the next `n` samples give (R166). -/
def samplesAhead : (n : Nat) → State → List Byte
  | 0, _ => []
  | n + 1, s => s.nextSample :: samplesAhead n (takeSample s)

/-! ### Reset -/

/-- Reset (70_reset_and_hazards.md R330, R332, R333): every piece of block state takes its reset value; the parameters and the
environment's side of the ports stay; the output stream starts anew (R52), which the `rst` event of the history marks. -/
def resetBlock (s : State) : State :=
  { State.reset with
    params := s.params
    line := List.replicate s.params.lineCap 0
    xfer := List.replicate s.params.xferCap 0
    page := pageInit s.params (s.resets + 1)
    base := Config.baseInit (s.resets + 1)
    rx := s.rx
    eepIn := s.eepIn
    samples := s.samples
    txReady := s.txReady
    rst := none
    resets := s.resets + 1
    history := s.history ++ [.rst] }

/-- The sample events of a read cycle. -/
def isSample : PortEvent → Bool
  | .pin (.sample _) => true
  | _ => false

/-- How many of these port events are samples. -/
def sampleCount (es : List PortEvent) : Nat := es.countP isSample

/-- Reset that cuts a step of the block after the port events `done` (70_reset_and_hazards.md R333): no further event follows,
and only the samples among `done` were taken. -/
def cutShort (done : List PortEvent) (rxLeft : List Byte) (s : State) : State :=
  resetBlock
    { s with
      rx := rxLeft
      eepIn := s.eepIn.drop (sampleCount done)
      samples := s.samples + sampleCount done
      history := s.history ++ done }

/-! ### Views -/

/-- The pin event of a port event, where it is one. -/
def pinOf : PortEvent → Option BusEvent
  | .pin e => some e
  | .rx _ => none
  | .tx _ => none
  | .rst => none

/-- The bus event trace: the pin events, in order (41_bus_sequencer.md R160). -/
def State.trace (s : State) : List BusEvent :=
  s.history.filterMap pinOf

/-- What one port event does to the output stream: a reset empties it (10_state.md R52), a byte moved on `tx` extends it (R48). -/
def outAfter (out : List Byte) : PortEvent → List Byte
  | .tx b => out ++ [b]
  | .rst => []
  | .rx _ => out
  | .pin _ => out

/-- The output stream: the bytes handed to the transport since the last reset, in order (10_state.md R48, R52). -/
def State.out (s : State) : List Byte := s.history.foldl outAfter []

end Sys2Proof.Machine
end

