-- ==== Sys2Proof/Machine/BusSequencer.lean ====
section
/-!
DEFINITION. The Bus Sequencer (41_bus_sequencer.md): pin events and the primitives built from them.
-/

namespace Sys2Proof.Machine

/-- Sets one control line of BUSCTL. -/
def BusRegs.setLine (b : BusRegs) (l : CtlLine) (asserted : Bool) : BusRegs :=
  match l with
  | .ce => { b with ce := asserted }
  | .oe => { b with oe := asserted }
  | .we => { b with we := asserted }

/-- The effect of one pin event with `bits` = `ADDR_BITS` (R161). Every event but a wait finds the delay timer run out (R160, R167). -/
def applyEvent (bits : Nat) (b : BusRegs) (e : BusEvent) : BusRegs :=
  match e with
  | .setAddr a => { b with addr := chipaddr bits a, timer := .idle }
  | .setDir d => { b with dir := d, timer := .idle }
  | .drive v => { b with dout := v, timer := .idle }
  | .assertLine l => { b.setLine l true with timer := .idle }
  | .deassertLine l => { b.setLine l false with timer := .idle }
  | .wait t => { b with timer := .waiting t }
  | .sample _ => { b with timer := .idle }

/-- Performs pin events in order and appends them to the trace (R160). -/
def perform (es : List BusEvent) (s : State) : State :=
  { s with bus := es.foldl (applyEvent s.params.addrBits) s.bus, history := s.history ++ es.map .pin }

/-- The precondition of setDataLinesDirection (R163); every operation meets it from quiet lines (42_chip_operations.md R202). -/
def dirReady (d : Dir) (b : BusRegs) : Bool :=
  !b.ce && !b.we && (d = .input || !b.oe)

/-- The precondition of readByteAt (R164); bulkRead meets it in each of its read cycles (42_chip_operations.md R202). -/
def readReady (b : BusRegs) : Bool := b.dir = .input && b.oe && !b.ce && !b.we

/-- The precondition of writeByteAt (R165); each operation meets it in each of its write cycles (42_chip_operations.md R202). -/
def writeReady (b : BusRegs) : Bool := b.dir = .output && !b.oe && !b.ce && !b.we

/-- The event of setAddressLines (R162). -/
def setAddressLines (a : Word) : List BusEvent := [.setAddr a]

/-- `setDataLinesDirection(d)` (R163, R168). -/
def setDataLinesDirection (d : Dir) (s : State) : Except Fault State :=
  if dirReady d s.bus then .ok (perform [.setDir d] s) else .error .busPrecondition

/-- The events of one read cycle that samples `b` (R164). -/
def readCycle (p : Params) (a : Word) (b : Byte) : List BusEvent :=
  setAddressLines a ++ [.assertLine .ce, .wait p.tSettleMin, .sample b, .deassertLine .ce]

/-- The events of one write cycle (R165). -/
def writeCycle (p : Params) (a : Word) (v : Byte) : List BusEvent :=
  setAddressLines a ++ [.drive v, .assertLine .ce, .assertLine .we, .wait p.tWeMin, .deassertLine .we, .deassertLine .ce]

/-- `readByteAt(a)` (R164, R166, R168). -/
def readByteAt (a : Word) (s : State) : Except Fault (Byte × State) :=
  if readReady s.bus then .ok (s.nextSample, perform (readCycle s.params a s.nextSample) (takeSample s))
  else .error .busPrecondition

/-- `writeByteAt(a, v)` (R165, R168). -/
def writeByteAt (a : Word) (v : Byte) (s : State) : Except Fault State :=
  if writeReady s.bus then .ok (perform (writeCycle s.params a v) s) else .error .busPrecondition

/-- `count` read cycles at consecutive 16-bit addresses (42_chip_operations.md R190, 20_memory.md R73). -/
def readCycles : (count : Nat) → Word → State → Except Fault (List Byte × State)
  | 0, _, s => .ok ([], s)
  | count + 1, a, s =>
    match readByteAt a s with
    | .error f => .error f
    | .ok (b, s1) =>
      match readCycles count (a + 1) s1 with
      | .error f => .error f
      | .ok (bs, s2) => .ok (b :: bs, s2)

/-- The write cycles of a list of addresses and bytes, in order. -/
def writeCycles : List (Word × Byte) → State → Except Fault State
  | [], s => .ok s
  | (a, v) :: cs, s =>
    match writeByteAt a v s with
    | .error f => .error f
    | .ok s1 => writeCycles cs s1

/-- Bytes paired with consecutive 16-bit addresses from `a` on (20_memory.md R73). -/
def consecutive (a : Word) : List Byte → List (Word × Byte)
  | [] => []
  | b :: bs => (a, b) :: consecutive (a + 1) bs

/-- The pin events of read cycles at consecutive addresses from `a` on that sample `bs` (R164). -/
def readTrace (p : Params) : Word → List Byte → List BusEvent
  | _, [] => []
  | a, b :: bs => readCycle p a b ++ readTrace p (a + 1) bs

/-- The pin events of write cycles (R165). -/
def writeTrace (p : Params) : List (Word × Byte) → List BusEvent
  | [] => []
  | (a, v) :: cs => writeCycle p a v ++ writeTrace p cs

end Sys2Proof.Machine
end

