-- ==== Sys2Proof/Machine/ChipOperations.lean ====
section
/-!
DEFINITION. Chip Operations (42_chip_operations.md): the sequences built on the Bus Sequencer, with the parameters of the state.
-/

namespace Sys2Proof.Machine

/-- `bulkRead(a, count)` (R190; preconditions: R202). -/
def bulkRead (a : Word) (count : Nat) (s : State) : Except Fault (List Byte × State) :=
  match setDataLinesDirection .input s with
  | .error f => .error f
  | .ok s1 =>
    match readCycles count a (perform [.assertLine .oe] s1) with
    | .error f => .error f
    | .ok (bs, s2) => .ok (bs, perform [.deassertLine .oe] s2)

/-- One SetDir(Output), then write cycles: what bulkWrite, the SDP writes and the erase share (R191, R192, R197; preconditions: R202). -/
def outputCycles (cs : List (Word × Byte)) (s : State) : Except Fault State :=
  match setDataLinesDirection .output s with
  | .error f => .error f
  | .ok s1 => writeCycles cs s1

/-- `bulkWrite(a, bs)` (R191; preconditions: R202). -/
def bulkWrite (a : Word) (bs : List Byte) (s : State) : Except Fault State :=
  outputCycles (consecutive a bs) s

/-- A command sequence with the address of each byte (R196). -/
def sequenceCycles (p : Params) (addrs : List UnlockAddr) (bytes : List Byte) : List (Word × Byte) :=
  List.zipWith (fun u v => (p.unlock u, v)) addrs bytes

/-- `SDP_ENABLE_SEQ` or `SDP_DISABLE_SEQ` (R192, R194, R195). -/
def sdpCycles (p : Params) (enable : Bool) : List (Word × Byte) :=
  if enable then sequenceCycles p p.seqAddrsEnable p.seqSdpEnable
  else sequenceCycles p p.seqAddrsDisable p.seqSdpDisable

/-- `ERASE_SEQ` (R197). -/
def eraseCycles (p : Params) : List (Word × Byte) := sequenceCycles p p.seqAddrsErase p.seqErase

/-- `sdp_saved <- bulkRead(SDP_RESTORE_ADDR, 1)[0]` (R192). -/
def saveByteZero (s : State) : Except Fault State :=
  match bulkRead s.params.sdpRestoreAddr 1 s with
  | .error f => .error f
  | .ok (bs, s1) => .ok { s1 with sdpSaved := bs.headD 0 }

/-- `setSoftwareDataProtection(enable)` (R192, R193): read byte 0, the sequence, the trailing write of the byte read
(preconditions: R202, the read ends with OE deasserted). -/
def setSoftwareDataProtection (enable : Bool) (s : State) : Except Fault State :=
  match saveByteZero s with
  | .error f => .error f
  | .ok s1 => outputCycles (sdpCycles s1.params enable ++ [(s1.params.sdpRestoreAddr, s1.sdpSaved)]) s1

/-- `eraseChip()` (R197; preconditions: R202). -/
def eraseChip (s : State) : Except Fault State := outputCycles (eraseCycles s.params) s

/-- `preparePageBuffer(baseAddr)` (R198, R201). -/
def preparePageBuffer (a : Word) (s : State) : State :=
  { s with base := a, page := preparedPage s.params s.page }

/-- `fillPageBuffer(offsetAddr, bytes)` (R199). -/
def fillPageBuffer (offset : Word) (bs : List Byte) (s : State) : State :=
  { s with page := fillPage s.params.pageMask s.page offset bs }

/-- `programPageBuffer()` (R200): a write cycle for each page byte from `base` on, then the write-cycle wait (preconditions: R202). -/
def programPageBuffer (s : State) : Except Fault State :=
  match bulkWrite s.base s.page s with
  | .error f => .error f
  | .ok s1 => .ok (perform [.wait s1.params.tPageMin] s1)

/-- The trace of a bulkRead that samples `bs` (R190). -/
def bulkReadTrace (p : Params) (a : Word) (bs : List Byte) : List BusEvent :=
  [.setDir .input, .assertLine .oe] ++ readTrace p a bs ++ [.deassertLine .oe]

/-- The trace of a SetDir(Output) and write cycles (R191, R192, R197). -/
def outputTrace (p : Params) (cs : List (Word × Byte)) : List BusEvent := .setDir .output :: writeTrace p cs

end Sys2Proof.Machine
end

