-- ==== Sys2Proof/Machine/ChipCommands.lean ====
section
/-!
DEFINITION. The commands that drive the bus at once: P, U, R, W, B (44_commands.md R251 to R255).
-/

namespace Sys2Proof.Machine

/-- The end of a command that replies `OK` after its chip operation (44_commands.md R251, R252, R254, R255, R258). -/
def replyOk : Except Fault State → Result
  | .error f => .fault f
  | .ok s => .next (emit okLine s)

/-- The operands of W and S after the parse (R262): a raise, or the address with the bytes in the Transfer Buffer, on which `run` goes
on. The Transfer Buffer is written before the checksum is compared. -/
def withPayload (arg : PayloadOperand) (run : Word → List Byte → State → Result) (s : State) : Result :=
  match arg with
  | .noAddress => .next (raise .malformed s)
  | .noSeparator => .next (raise .malformed s)
  | .fields a data given =>
    let s1 := loadXfer data s
    match checksumMismatch given s1.xferBytes with
    | some (g, c) => .next (raise (.checksumMismatch g c) s1)
    | none => run a s1.xferBytes s1

/-- P: enable SDP (R251). -/
def execProtect (s : State) : Result := replyOk (setSoftwareDataProtection true s)

/-- U: disable SDP (R252). -/
def execUnprotect (s : State) : Result := replyOk (setSoftwareDataProtection false s)

/-- The reply of R (R253): the data line of the bytes in the Transfer Buffer, then `OK`. -/
def replyData (a : Word) (s : State) : State := emit okLine (emit (dataLine a s.xferBytes) s)

/-- R: read `XFER_CAP` bytes into the Transfer Buffer and reply them (R253, R263). -/
def execRead (arg : AddrOperand) (s : State) : Result :=
  match arg with
  | .missing => .next (raise .malformed s)
  | .value a =>
    match bulkRead a s.params.xferCap s with
    | .error f => .fault f
    | .ok (bs, s1) => .next (replyData a (loadXfer bs s1))

/-- W: write the decoded bytes to the chip (R254, R262). -/
def execWrite (arg : PayloadOperand) (s : State) : Result :=
  withPayload arg (fun a bs s1 => replyOk (bulkWrite a bs s1)) s

/-- B: chip erase (R255). -/
def execErase (s : State) : Result := replyOk (eraseChip s)

end Sys2Proof.Machine
end

