-- ==== Sys2Proof/Machine/InfoCommands.lean ====
section
/-!
DEFINITION. The commands that touch neither bus nor buffers: V, ?, the empty line and the unrecognized tag (44_commands.md R250, R259
to R261).
-/

namespace Sys2Proof.Machine

/-- V: the version line, no `OK` (R250). -/
def execVersion (s : State) : Result := .next (emit s.params.versionString s)

/-- ?: each line of `HELP_TEXT` (R259). -/
def execHelp (s : State) : Result := .next (emitAll s.params.helpText s)

/-- The empty line: nothing, and no reply (R260). -/
def execEmpty (s : State) : Result := .next (finish s)

/-- Any other tag: `Unrecognized`, always (R261). The tag shows in nothing the block does. -/
def execUnrecognized (_tag : Byte) (s : State) : Result := .next (raise .unrecognized s)

end Sys2Proof.Machine
end

