-- ==== Sys2Proof/Machine/PageCommands.lean ====
section
/-!
DEFINITION. The commands of the Page Buffer: N, S, T (44_commands.md R256 to R258).
-/

namespace Sys2Proof.Machine

/-- N: set the Base Address and reset the Page Buffer (R256, R263). -/
def execPrepare (arg : AddrOperand) (s : State) : Result :=
  match arg with
  | .missing => .next (raise .malformed s)
  | .value a => .next (emit okLine (preparePageBuffer a s))

/-- S: fill part of the Page Buffer (R257, R262). -/
def execFill (arg : PayloadOperand) (s : State) : Result :=
  withPayload arg (fun a bs s1 => .next (emit okLine (fillPageBuffer a bs s1))) s

/-- T: program the Page Buffer into the chip (R258). -/
def execProgram (s : State) : Result := replyOk (programPageBuffer s)

end Sys2Proof.Machine
end

