-- ==== Sys2Proof/Machine/Dispatch.lean ====
section
/-!
DEFINITION. One arm per constructor of `Instr`: the handlers of the dispatch table (43_protocol.md R226).
-/

namespace Sys2Proof.Machine

def exec (i : Instr) (s : State) : Host.Outcome State Fault Refusal :=
  match i with
  | .version => Sys2Proof.Machine.execVersion s
  | .protect => Sys2Proof.Machine.execProtect s
  | .unprotect => Sys2Proof.Machine.execUnprotect s
  | .read arg => Sys2Proof.Machine.execRead arg s
  | .write arg => Sys2Proof.Machine.execWrite arg s
  | .erase => Sys2Proof.Machine.execErase s
  | .prepare arg => Sys2Proof.Machine.execPrepare arg s
  | .fill arg => Sys2Proof.Machine.execFill arg s
  | .program => Sys2Proof.Machine.execProgram s
  | .help => Sys2Proof.Machine.execHelp s
  | .empty => Sys2Proof.Machine.execEmpty s
  | .unrecognized tag => Sys2Proof.Machine.execUnrecognized tag s

end Sys2Proof.Machine
end

