-- ==== Sys2Proof/Machine/Protocol.lean ====
section
/-!
DEFINITION. The Command Protocol state machine (43_protocol.md): what one step of the block does.
-/

namespace Sys2Proof.Machine

/-- `dispatch()` (R226): an overflowed line raises and runs no handler (R225); else the stored line's instruction runs. -/
def dispatch (s : State) : Result :=
  if s.ovf then .next (raise .lineOverflow s) else exec (decodeLine s.params s.lineBytes) s

/-- One step of handing the reply over (60_exceptions.md R298): a running delay first runs out (42_chip_operations.md R200), then each
byte waits for `tx_ready`, and after the last one the block starts a new line (R220, R222). -/
def sendReply (left : List Byte) (s : State) : State :=
  match s.bus.timer with
  | .waiting _ => elapse s
  | .idle =>
    match left with
    | [] => startLine s
    | b :: rest => if s.txReady then handOver b rest s else s

/-- One step of the block while `rst` is low: the transitions of R220. -/
def blockStep (s : State) : Result :=
  match s.fsm with
  | .awaitingLine => .next (takeByte s)
  | .dispatching =>
    match s.reply with
    | none => dispatch s
    | some left => .next (sendReply left s)

/-- The reset pin rises after `k` more port events (70_reset_and_hazards.md R333): the step is cut there, or it ends before. -/
def cutStep (k : Nat) (s : State) : Result → Result
  | .fault f => .fault f
  | .refused r => .refused r
  | .next t =>
    let new := t.history.drop s.history.length
    if new.length < k then .next { t with rst := some (k - new.length) }
    else .next (cutShort (new.take k) t.rx s)

/-- One step: reset comes before everything else (60_exceptions.md R305). -/
def protocolStep (s : State) : Result :=
  match s.rst with
  | none => blockStep s
  | some 0 => .next (resetBlock s)
  | some (k + 1) => cutStep (k + 1) s (blockStep s)

/-- The state as if the host had just sent these bytes up to their LF: a new line is started and they are received (R221, R224);
`rst` stays low, so that the next step dispatches the line (log 16). -/
def lineReceived (bs : List Byte) (s : State) : State := receiveAll bs (startLine { s with rst := none })

end Sys2Proof.Machine
end

