-- ==== Sys2Proof/Machine/Step.lean ====
section
/-!
DEFINITION. The step of the machine, and the state in which a given table word is the next instruction.
-/

namespace Sys2Proof.Machine

/-- One step: reset, one input byte, one dispatch, or one step of handing a reply over. -/
def step (s : State) : Host.Outcome State Fault Refusal := protocolStep s

/-- `s` with the instruction `w` received as its command line, so that the next step dispatches it (log 16). -/
def State.withFetchWord (s : State) (nbits w : Nat) : State := lineReceived (tableStream nbits w) s

end Sys2Proof.Machine
end

