-- ==== Sys2Proof/Machine/IdealChip.lean ====
section
/-!
DEFINITION. The ideal store of decision D38 (95_test_vectors.md): a PREMISE about the EEPROM for round-trip claims, never part of the block
or of its state (00_scope.md R6, 20_memory.md R84; log 20). Its memory is a list of cells in one canonical form. The page loads of a chip
(R344) stand here too.
-/

namespace Sys2Proof.Machine

/-- The byte an erased cell of the ideal chip holds (D38). -/
abbrev chipErased : Byte := 0xFF

/-- Chip contents: addresses strictly rising, no cell equal to the erased value, which an unlisted address reads as. -/
abbrev ChipMemory := List Host.Cell

/-- The byte at a chip address. -/
def readCell : ChipMemory → Nat → Byte
  | [], _ => chipErased
  | (k, v) :: m, a => if k = a then v else readCell m a

/-- Puts a cell before the others, unless it holds the erased value. -/
def consCell (a : Nat) (v : Byte) (m : ChipMemory) : ChipMemory :=
  if v = chipErased then m else (a, v) :: m

/-- Stores a byte, keeping the canonical form. -/
def writeCell : ChipMemory → Nat → Byte → ChipMemory
  | [], a, v => consCell a v []
  | (k, w) :: m, a, v =>
    if a < k then consCell a v ((k, w) :: m)
    else if a = k then consCell a v m
    else (k, w) :: writeCell m a v

/-- The canonical form from address `lo` on, within a chip space of `2 ^ bits` bytes (20_memory.md R70). -/
def wfFrom (bits : Nat) : (lo : Nat) → ChipMemory → Bool
  | _, [] => true
  | lo, (k, v) :: m => lo ≤ k && k < 2 ^ bits && v != chipErased && wfFrom bits (k + 1) m

/-- The canonical form, for a chip of `bits` = `ADDR_BITS` address bits. -/
def ChipMemory.wf (bits : Nat) (m : ChipMemory) : Bool := wfFrom bits 0 m

/-- The write cycles among pin events, from the bus state before them: address and byte at the end of each WE pulse. -/
def writesOf (bits : Nat) : BusRegs → List BusEvent → List (ChipAddr × Byte)
  | _, [] => []
  | b, e :: es =>
    if e = .deassertLine .we ∧ b.we = true ∧ b.ce = true then (b.addr, b.dout) :: writesOf bits (applyEvent bits b e) es
    else writesOf bits (applyEvent bits b e) es

/-- The chip addresses sampled among pin events, in order. -/
def sampledAddrs (bits : Nat) : BusRegs → List BusEvent → List ChipAddr
  | _, [] => []
  | b, e :: es =>
    if isSample (.pin e) then b.addr :: sampledAddrs bits (applyEvent bits b e) es
    else sampledAddrs bits (applyEvent bits b e) es

/-- The byte of a sample event. -/
def sampleOf : BusEvent → Option Byte
  | .sample v => some v
  | .setAddr _ => none
  | .setDir _ => none
  | .drive _ => none
  | .assertLine _ => none
  | .deassertLine _ => none
  | .wait _ => none

/-- The bytes sampled among pin events, in order. -/
def sampledBytes (es : List BusEvent) : List Byte := es.filterMap sampleOf

/-- Every read cycle at a chip address has sampled the byte that the chip holds there (D38). -/
abbrev drivenBy (m : ChipMemory) (bits : Nat) (b : BusRegs) (es : List BusEvent) : Prop :=
  sampledBytes es = (sampledAddrs bits b es).map fun c => readCell m c.toNat

/-- Stores each write cycle at once (D38, W and T). -/
def storeAll : ChipMemory → List (ChipAddr × Byte) → ChipMemory
  | m, [] => m
  | m, (a, v) :: ws => storeAll (writeCell m a.toNat v) ws

/-- The ideal chip after a command with these write cycles (D38): B erases everything, P and U store only their trailing
write, every other command stores what it writes. -/
def chipAfter (i : Instr) (ws : List (ChipAddr × Byte)) (m : ChipMemory) : ChipMemory :=
  match i with
  | .erase => []
  | .protect => storeAll m (ws.drop (ws.length - 1))
  | .unprotect => storeAll m (ws.drop (ws.length - 1))
  | .version => storeAll m ws
  | .read _ => storeAll m ws
  | .write _ => storeAll m ws
  | .prepare _ => storeAll m ws
  | .fill _ => storeAll m ws
  | .program => storeAll m ws
  | .help => storeAll m ws
  | .empty => storeAll m ws
  | .unrecognized _ => storeAll m ws

/-- The page loads of one page program, from its write cycles with the time since the one before: a chip with the window `T_LOAD_MAX`
takes a write into the load of the one before exactly when the gap does not exceed the window (00_scope.md R10: the longest gap that is
still one load; 70_reset_and_hazards.md R344, D48).
The first gap has no effect. -/
def pageLoads (p : Params) : List (Nat × ChipAddr × Byte) → List (List (ChipAddr × Byte))
  | [] => []
  | [(_, w)] => [[w]]
  | (_, w) :: (gap, w2) :: ws =>
    match pageLoads p ((gap, w2) :: ws) with
    | [] => [[w]]
    | load :: loads => if gap ≤ p.tLoadMax then (w :: load) :: loads else [w] :: load :: loads

end Sys2Proof.Machine
end

