-- ==== Sys2Proof/Machine/Ports.lean ====
section
/-!
DEFINITION. The output ports of 10_state.md R30 as functions of the state. The inputs are the fields `rx`, `eepIn`, `txReady`, `rst`.
-/

namespace Sys2Proof.Machine

/-- Pin level of a control line: `asserted XOR CTRL_ACTIVE_LOW` (R41). -/
def pinLevel (activeLow asserted : Bool) : Bool := asserted != activeLow

/-- `rx_ready`: 1 exactly in AwaitingLine (43_protocol.md R223). -/
def State.rxReady (s : State) : Bool := s.fsm = .awaitingLine

/-- `tx_valid` and `tx_data`: the byte the block has to send (60_exceptions.md R298); none while a delay runs (42_chip_operations.md R200). -/
def State.txOffer (s : State) : Option Byte :=
  match s.fsm, s.bus.timer, s.reply with
  | .dispatching, .idle, some (b :: _) => some b
  | _, _, _ => none

/-- `eep_a` (R43): the low `ADDR_BITS` bits are the pins, the others are zero. -/
def State.eepA (s : State) : ChipAddr := s.bus.addr

/-- What the block drives on D[7:0]: `bus_dout` exactly when `DIR` is Output (R44). Line D[j] carries bit j (20_memory.md R75). -/
def State.drivenData (s : State) : Option Byte :=
  match s.bus.dir with
  | .output => some s.bus.dout
  | .input => none

/-- `eep_d_dir`: 1 for Output (R42). -/
def State.eepDDir (s : State) : Bool := s.bus.dir = .output

/-- `eep_ce` (R42). -/
def State.eepCe (s : State) : Bool := pinLevel s.params.ctrlActiveLow s.bus.ce

/-- `eep_oe` (R42). -/
def State.eepOe (s : State) : Bool := pinLevel s.params.ctrlActiveLow s.bus.oe

/-- `eep_we` (R42). -/
def State.eepWe (s : State) : Bool := pinLevel s.params.ctrlActiveLow s.bus.we

/-- BUSCTL as one word: CE, OE, WE, DIR in bits 0 to 3 (R42, D2). -/
def BusRegs.busctl (b : BusRegs) : BitVec 4 :=
  BitVec.ofBool (b.dir = .output) ++ BitVec.ofBool b.we ++ BitVec.ofBool b.oe ++ BitVec.ofBool b.ce

end Sys2Proof.Machine
end

