-- ==== Sys2Proof/Machine/Timing.lean ====
section
/-!
DEFINITION. The timing figures of 70_reset_and_hazards.md R348 to R350. They are lower bounds and arithmetic on the parameters; no step
depends on them.
-/

namespace Sys2Proof.Machine

/-- The least total time the waits among these pin events take, in nanoseconds (41_bus_sequencer.md R167). -/
def leastWait : List BusEvent → Nat
  | [] => 0
  | .wait t :: es => t + leastWait es
  | .setAddr _ :: es => leastWait es
  | .setDir _ :: es => leastWait es
  | .drive _ :: es => leastWait es
  | .assertLine _ :: es => leastWait es
  | .deassertLine _ :: es => leastWait es
  | .sample _ :: es => leastWait es

/-- The table of R348: the lowest total wait the rules allow a command that is not ended by an error. -/
def leastCommandWait (p : Params) : Instr → Nat
  | .version => 0
  | .protect => p.tSettleMin + (p.seqSdpEnable.length + 1) * p.tWeMin
  | .unprotect => p.tSettleMin + (p.seqSdpDisable.length + 1) * p.tWeMin
  | .read .missing => 0
  | .read (.value _) => p.xferCap * p.tSettleMin
  | .write .noAddress => 0
  | .write .noSeparator => 0
  | .write (.fields _ data _) => data.length * p.tWeMin
  | .erase => p.seqErase.length * p.tWeMin
  | .prepare _ => 0
  | .fill _ => 0
  | .program => p.pageCap * p.tWeMin + p.tPageMin
  | .help => 0
  | .empty => 0
  | .unrecognized _ => 0

/-- Cycles of a clock of `F_CLK` hertz that a wait of `ns` nanoseconds takes at least: `ceil(t * F_CLK)` (R350, D40). -/
def waitCycles (p : Params) (ns : Nat) : Nat := (ns * p.fClk + 999999999) / 1000000000

/-- Nanoseconds that `n` bytes take on the serial link at `BAUD` and `FRAME`, rounded down (R349; GK5, PRESUMED by the spec). -/
def serialTime (p : Params) (n : Nat) : Nat := n * Config.frameBits * 1000000000 / p.baud

end Sys2Proof.Machine
end

