-- ==== Sys2Proof/Safety.lean ====
section
/-!
DEFINITION. What counts as a safe run: the line invariant (10_state.md R50), the invariant every step keeps, and the checker of a
command's pin events against the hazards of 70_reset_and_hazards.md R340.
-/

namespace Sys2Proof.Machine

/-- The line invariant: `CE = OE = WE = 0` (10_state.md R50), which every operation assumes at entry and leaves (42_chip_operations.md R202). -/
abbrev BusRegs.quiet (b : BusRegs) : Prop := b.ce = false ∧ b.oe = false ∧ b.we = false

/-- What holds of the state before and after every step: the parameters keep R11, the buffers have their capacities and the counts are
in range (R35 to R39), the stored line holds no control byte (R35), `ovf` is set only for a full line (R37), the control lines are
deasserted (R50; between steps also while a reply is sent), no address bit from `ADDR_BITS` on is set (R43), a handler's position
exists only in Dispatching (R33), and the delay timer runs only after a handler (R47). -/
abbrev State.Inv (s : State) : Prop :=
  s.params.ok ∧
  s.line.length = s.params.lineCap ∧ s.len ≤ s.params.lineCap ∧
  s.xfer.length = s.params.xferCap ∧ s.xferN ≤ s.params.xferCap ∧
  s.page.length = s.params.pageCap ∧
  (∀ b ∈ s.lineBytes, Config.ctrlMax < b) ∧
  (s.ovf = true → s.len = s.params.lineCap) ∧
  s.bus.quiet ∧
  s.bus.addr.toNat < 2 ^ s.params.addrBits ∧
  (s.fsm = .awaitingLine → s.reply = none) ∧
  (s.reply = none → s.bus.timer = .idle)

/-- Block and chip both drive D[7:0]. -/
def BusRegs.contention (b : BusRegs) : Bool := b.dir = .output && b.ce && b.oe

/-- The delay timer has been given at least `t` before this event. -/
def DelayTimer.atLeast (t : Nat) : DelayTimer → Bool
  | .idle => false
  | .waiting m => t ≤ m

/-- Whether a pin event keeps, in the bus state before it, the preconditions R163 to R165, the hazards R340 (b), (c) and (d), and the
waits R167 (a) and (b) of R340 (f). -/
def legalEvent (p : Params) (b : BusRegs) : BusEvent → Bool
  | .setAddr _ => !b.ce && !b.we
  | .setDir d => dirReady d b
  | .drive _ => b.dir = .output && !b.ce && !b.we
  | .assertLine .ce => !b.ce && !b.we && ((b.dir = .input && b.oe) || (b.dir = .output && !b.oe))
  | .assertLine .oe => !b.oe && !b.ce && !b.we && b.dir = .input
  | .assertLine .we => !b.we && b.ce && !b.oe && b.dir = .output
  | .deassertLine .ce => b.ce && !b.we
  | .deassertLine .oe => b.oe && !b.ce
  | .deassertLine .we => b.we && b.ce && !b.oe && b.dir = .output && b.timer.atLeast p.tWeMin
  | .wait _ => true
  | .sample _ => b.ce && b.oe && !b.we && b.dir = .input && b.timer.atLeast p.tSettleMin

/-- Every event of a trace is legal where it happens. -/
def legalTrace (p : Params) : BusRegs → List BusEvent → Bool
  | _, [] => true
  | b, e :: es => legalEvent p b e && legalTrace p (applyEvent p.addrBits b e) es

/-- R340 (a): the data direction is set before the first bus cycle, which `Assert(CE)` starts. -/
def directionFirst : List BusEvent → Bool
  | [] => true
  | .setDir _ :: _ => true
  | .assertLine .ce :: _ => false
  | _ :: es => directionFirst es

/-- R340 (e), R169: each direction is set at most once, and OE is asserted and deasserted at most once, so that a legal trace has neither
event between two bytes of a transfer. -/
def noToggling (es : List BusEvent) : Bool :=
  es.count (.setDir .input) ≤ 1 && es.count (.setDir .output) ≤ 1 &&
    es.count (.assertLine .oe) ≤ 1 && es.count (.deassertLine .oe) ≤ 1

/-- The last event is a wait of at least `minNs`. -/
def endsWaiting (minNs : Nat) (es : List BusEvent) : Bool :=
  match es.getLast? with
  | some (.wait t) => minNs ≤ t
  | _ => false

/-- The trace of one command keeps all the hazards R340 (a) to (f); R167 (c) of (f) concerns T alone. -/
def hazardFree (p : Params) (i : Instr) (b : BusRegs) (es : List BusEvent) : Bool :=
  legalTrace p b es && directionFirst es && noToggling es && (i != .program || endsWaiting p.tPageMin es)

/-- The reply queue after these lines have been emitted: each line's bytes, then `RESP_EOL` (R124). -/
def State.replied (s : State) (lines : List (List Byte)) : Option (List Byte) :=
  some (s.replyBytes ++ lines.flatMap fun l => l ++ s.params.respEol)

/-- The error an instruction ends in, if any, in the order of 60_exceptions.md R293 (3 to 6). Which lines overflow is not a matter of
the instruction (R293 (1)). -/
def raisesError : Instr → Option ErrorKind
  | .version => none
  | .protect => none
  | .unprotect => none
  | .read .missing => some .malformed
  | .read (.value _) => none
  | .write .noAddress => some .malformed
  | .write .noSeparator => some .malformed
  | .write (.fields _ _ none) => none
  | .write (.fields _ data (some g)) => if g = xorsum data then none else some (.checksumMismatch g (xorsum data))
  | .erase => none
  | .prepare .missing => some .malformed
  | .prepare (.value _) => none
  | .fill .noAddress => some .malformed
  | .fill .noSeparator => some .malformed
  | .fill (.fields _ _ none) => none
  | .fill (.fields _ data (some g)) => if g = xorsum data then none else some (.checksumMismatch g (xorsum data))
  | .program => none
  | .help => none
  | .empty => none
  | .unrecognized _ => some .unrecognized

/-- Read and write cycles of a command that does not end in an error: the table of 20_memory.md R80. -/
def cycleCounts (p : Params) : Instr → Nat × Nat
  | .version => (0, 0)
  | .protect => (1, p.seqSdpEnable.length + 1)
  | .unprotect => (1, p.seqSdpDisable.length + 1)
  | .read _ => (p.xferCap, 0)
  | .write (.fields _ data _) => (0, data.length)
  | .write .noAddress => (0, 0)
  | .write .noSeparator => (0, 0)
  | .erase => (0, p.seqErase.length)
  | .prepare _ => (0, 0)
  | .fill _ => (0, 0)
  | .program => (0, p.pageCap)
  | .help => (0, 0)
  | .empty => (0, 0)
  | .unrecognized _ => (0, 0)

/-- The port events a step added. -/
def newEvents (s t : State) : List PortEvent := t.history.drop s.history.length

/-- The pin events a step added. -/
def newPins (s t : State) : List BusEvent := (newEvents s t).filterMap pinOf

/-- The block address of a SetAddr event. -/
def addressOf : BusEvent → Option Word
  | .setAddr a => some a
  | .setDir _ => none
  | .drive _ => none
  | .assertLine _ => none
  | .deassertLine _ => none
  | .wait _ => none
  | .sample _ => none

/-- The block addresses set among pin events, in order. -/
def addressesOf (es : List BusEvent) : List Word := es.filterMap addressOf

/-- Two outcomes agree: both stop for the same reason, or both go on with states that `same` relates. -/
def outcomesAgree (same : State → State → Prop) : Result → Result → Prop
  | .next t, .next u => same t u
  | .fault f, .fault g => f = g
  | .refused q, .refused r => q = r
  | .next _, .fault _ => False
  | .next _, .refused _ => False
  | .fault _, .next _ => False
  | .fault _, .refused _ => False
  | .refused _, .next _ => False
  | .refused _, .fault _ => False

end Sys2Proof.Machine
end

