-- ==== Sys2Proof/Certificates/Slice0/Obligations.lean ====
section
/-!
DEFINITION. The statements for the provers. Each docstring names the rules of spec/ it formalises; where a clause rests on a choice of
the model, it names the log entry. The parameters of 00_scope.md R10 are arguments: the field `params` of the state, or `p`. Their
default values are in ParametersAtReset. That `line`, `xfer`, `xfer_n` and `sdp_saved` stay as they are where no rule writes them, also between
commands, is the model's choice in every statement that says so (log 27).
-/

open Sys2Proof Sys2Proof.Machine

/-! ### Encoding, decoding and the codec -/

/-- 30_encoding.md R101, R103 to R111, R118: the decoder reads back every well-formed instruction from the bytes a host sends for it,
and leaves the bytes after its LF, for all parameters that keep R11. -/
def Obligations.DecodeEncodeRoundTrip : Prop :=
  ∀ (p : Params) (i : Instr) (rest : List Byte), p.ok → wellFormed p i = true →
    decode p (encodeRaw i ++ rest) = .ok (i, rest)

/-- Byte streams written out from 30_encoding.md and 95_test_vectors.md decode to the instructions they stand for. -/
def Obligations.WrittenLinesDecode : Prop :=
  decode Config.params [0x56, 0x0A] = .ok (.version, []) ∧
  decode Config.params [0x52, 0x30, 0x30, 0x0D, 0x31, 0x30, 0x0A, 0x54] = .ok (.read (.value 0x0010), [0x54]) ∧
  decode Config.params [0x57, 0x30, 0x30, 0x30, 0x30, 0x3A, 0x41, 0x41, 0x2C, 0x42, 0x42, 0x0A] =
    .ok (.write (.fields 0x0000 [0xAA] (some 0xBB)), []) ∧
  decode Config.params [0x4E, 0x30, 0x31, 0x30, 0x30, 0x0A] = .ok (.prepare (.value 0x0100), []) ∧
  decode Config.params [0x53, 0x30, 0x30, 0x37, 0x45, 0x3A, 0x41, 0x41, 0x42, 0x42, 0x0A] =
    .ok (.fill (.fields 0x007E [0xAA, 0xBB] none), []) ∧
  decode Config.params [0x0D, 0x0A] = .ok (.empty, []) ∧
  decode Config.params [0x5A, 0x0A] = .ok (.unrecognized 0x5A, [])

/-- 30_encoding.md R113, R108, 43_protocol.md R226, 44_commands.md R262, R263: the tag byte selects the command, and the operand of R and
N is the parsed address, where there is one, that of W and S the parsed payload, whatever follows the tag. What the two parses read is
said by AddressFieldValue, DataFieldDecoding and MissingOperandIsMalformed. -/
def Obligations.TagSelectsCommand : Prop :=
  ∀ (p : Params) (cs : List Byte),
    decodeLine p (0x56 :: cs) = .version ∧
    decodeLine p (0x50 :: cs) = .protect ∧
    decodeLine p (0x55 :: cs) = .unprotect ∧
    decodeLine p (0x52 :: cs) = .read (if (parseAddr cs).2.1 = 0 then .missing else .value (parseAddr cs).1) ∧
    decodeLine p (0x57 :: cs) = .write (parsePayload p.xferCap cs) ∧
    decodeLine p (0x42 :: cs) = .erase ∧
    decodeLine p (0x4E :: cs) = .prepare (if (parseAddr cs).2.1 = 0 then .missing else .value (parseAddr cs).1) ∧
    decodeLine p (0x53 :: cs) = .fill (parsePayload p.xferCap cs) ∧
    decodeLine p (0x54 :: cs) = .program ∧
    decodeLine p (0x3F :: cs) = .help ∧
    decodeLine p [] = .empty ∧
    ∀ tag : Byte, 0x20 ≤ tag → tag ∉ [0x56, 0x50, 0x55, 0x52, 0x57, 0x42, 0x4E, 0x53, 0x54, 0x3F] →
      decodeLine p (tag :: cs) = .unrecognized tag

/-- 30_encoding.md R114: of the 224 storable tag bytes exactly ten are tags; the other 214 are unrecognized, whatever follows
them, and such a line gets an error reply and changes nothing. -/
def Obligations.UnrecognizedTagSpace : Prop :=
  ((List.range 256).countP fun n => storable (BitVec.ofNat 8 n)) = 224 ∧
  (∀ (p : Params) (cs : List Byte),
    ((List.range 256).countP fun n =>
      storable (BitVec.ofNat 8 n) && decodeLine p (BitVec.ofNat 8 n :: cs) = .unrecognized (BitVec.ofNat 8 n)) = 214) ∧
  ∀ (tag : Byte) (s : State),
    exec (.unrecognized tag) s = .next { s with reply := s.replied [s.params.unrecognizedReply] }

/-- 40_codec.md R140: the value of a hex digit, and 0 for every other byte. -/
def Obligations.HexDigitValues : Prop :=
  ∀ c : Byte, (hexval c).toNat =
    if 0x30 ≤ c.toNat ∧ c.toNat ≤ 0x39 then c.toNat - 0x30
    else if 0x41 ≤ c.toNat ∧ c.toNat ≤ 0x46 then c.toNat - 0x41 + 10
    else if 0x61 ≤ c.toNat ∧ c.toNat ≤ 0x66 then c.toNat - 0x61 + 10
    else 0

/-- 40_codec.md R141 as 90_conflicts.md C2 and D18 resolve it, 30_encoding.md R108: the address field is the longest prefix of at most four
characters without `':'`; each character is one hex digit, most significant first, a non-hex one counting as 0. -/
def Obligations.AddressFieldValue : Prop :=
  ∀ (cs : List Byte) (v : Word) (k : Nat) (rest : List Byte), parseAddr cs = (v, k, rest) →
    k ≤ 4 ∧ k ≤ cs.length ∧ rest = cs.drop k ∧ 0x3A ∉ cs.take k ∧
    (k = 4 ∨ rest = [] ∨ rest.head? = some 0x3A) ∧
    v.toNat = (cs.take k).foldl (fun n c => 16 * n + (hexval c).toNat) 0

/-- 40_codec.md R149: an address field of four hex characters reads and prints back up to case, and every printed address reads
back as its value. -/
def Obligations.AddressRoundTrip : Prop :=
  (∀ c0 c1 c2 c3 : Byte,
    (∀ c ∈ [c0, c1, c2, c3], (0x30 ≤ c ∧ c ≤ 0x39) ∨ (0x41 ≤ c ∧ c ≤ 0x46) ∨ (0x61 ≤ c ∧ c ≤ 0x66)) →
    hex4 (parseAddr [c0, c1, c2, c3]).1 =
      [c0, c1, c2, c3].map fun c => if 0x41 ≤ c ∧ c ≤ 0x46 then c + 0x20 else c) ∧
  ∀ v : Word, parseAddr (hex4 v) = (v, 4, [])

/-- 30_encoding.md R108, R110, R111, 40_codec.md R145, 44_commands.md R262: for any address field of one to four characters and any data
characters but `','`, the pairs become bytes (a non-hex character counts as 0), at most `XFER_CAP` are kept, a lone character and what
is past the last kept byte are dropped without an error, and a checksum after them is still found. -/
def Obligations.DataFieldDecoding : Prop :=
  (∀ c d : Byte, (pair c d).toNat = 16 * (hexval c).toNat + (hexval d).toNat) ∧
  ∀ (cap : Nat) (field : List Byte) (ps : List (Byte × Byte)) (lone tail : List Byte),
    field ≠ [] → field.length ≤ 4 → 0x3A ∉ field →
    (∀ c ∈ ps, c.1 ≠ 0x2C ∧ c.2 ≠ 0x2C) →
    (lone = [] ∨ ∃ c : Byte, c ≠ 0x2C ∧ lone = [c]) →
    let chars := (ps.flatMap fun c => [c.1, c.2]) ++ lone
    let bytes := (ps.map fun c => pair c.1 c.2).take cap
    parsePayload cap (field ++ 0x3A :: chars) = .fields (parseAddr field).1 bytes none ∧
    (∀ c1 c2 : Byte, parsePayload cap (field ++ 0x3A :: (chars ++ 0x2C :: c1 :: c2 :: tail)) =
      .fields (parseAddr field).1 bytes (some (pair c1 c2))) ∧
    (tail.length < 2 →
      parsePayload cap (field ++ 0x3A :: (chars ++ 0x2C :: tail)) = .fields (parseAddr field).1 bytes none)

/-- 30_encoding.md R105, R106: characters after an F1 tag, and characters after the address field of an F2 line, are ignored. -/
def Obligations.TrailingCharactersIgnored : Prop :=
  ∀ p : Params,
    (∀ tag ∈ ([0x56, 0x50, 0x55, 0x42, 0x54, 0x3F] : List Byte), ∀ cs : List Byte,
      decodeLine p (tag :: cs) = decodeLine p [tag]) ∧
    (∀ tag ∈ ([0x52, 0x4E] : List Byte), ∀ field rest : List Byte,
      0x3A ∉ field → field.length ≤ 4 → (field.length = 4 ∨ rest.head? = some 0x3A) →
      decodeLine p (tag :: (field ++ rest)) = decodeLine p (tag :: field))

/-- 30_encoding.md R110, R114, R117: every stored line decodes to a well-formed instruction. -/
def Obligations.EveryStoredLineIsWellFormed : Prop :=
  ∀ (p : Params) (line : List Byte), (∀ b ∈ line, storable b = true) → wellFormed p (decodeLine p line) = true

/-- 40_codec.md R148: the checksum check of W and S passes exactly for the XOR of the data, and flipping one bit of one byte
flips that bit of the XOR, so that the check with the old checksum fails. -/
def Obligations.ChecksumDetectsEveryBitFlip : Prop :=
  (∀ (bs : List Byte) (c : Byte) (a : Word) (s : State), bs.length ≤ s.params.xferCap → s.bus.quiet →
    (xorsum bs = c ↔
      ∃ t, exec (.write (.fields a bs (some c))) s = .next t ∧ t.reply = s.replied [[0x4F, 0x4B]]) ∧
    (xorsum bs = c ↔
      ∃ t, exec (.fill (.fields a bs (some c))) s = .next t ∧ t.reply = s.replied [[0x4F, 0x4B]])) ∧
  ∀ (bs : List Byte) (i j : Nat) (h : i < bs.length), j < 8 →
    xorsum (bs.set i (bs[i] ^^^ (1 <<< j))) = xorsum bs ^^^ (1 <<< j) ∧
    xorsum (bs.set i (bs[i] ^^^ (1 <<< j))) ≠ xorsum bs

/-! ### The Bus Sequencer -/

/-- 41_bus_sequencer.md R164, R168: a read cycle under its precondition makes exactly these events and answers the sampled byte;
otherwise it faults. The settle time is 1 us by default. -/
def Obligations.ReadCycleEvents : Prop :=
  (∀ (a : Word) (s : State),
    readByteAt a s =
      if s.bus.dir = .input ∧ s.bus.oe = true ∧ s.bus.ce = false ∧ s.bus.we = false then
        .ok (s.nextSample,
          { s with
            eepIn := s.eepIn.tail
            samples := s.samples + 1
            bus := { s.bus with addr := chipaddr s.params.addrBits a, timer := .idle }
            history := s.history ++
              [.pin (.setAddr a), .pin (.assertLine .ce), .pin (.wait s.params.tSettleMin), .pin (.sample s.nextSample),
                .pin (.deassertLine .ce)] })
      else .error .busPrecondition) ∧
  Config.params.tSettleMin = 1000

/-- 41_bus_sequencer.md R165, R168: a write cycle under its precondition makes exactly these events; otherwise it faults.
The write-enable hold is 1 us by default. -/
def Obligations.WriteCycleEvents : Prop :=
  (∀ (a : Word) (v : Byte) (s : State),
    writeByteAt a v s =
      if s.bus.dir = .output ∧ s.bus.oe = false ∧ s.bus.ce = false ∧ s.bus.we = false then
        .ok { s with
          bus := { s.bus with addr := chipaddr s.params.addrBits a, dout := v, timer := .idle }
          history := s.history ++
            [.pin (.setAddr a), .pin (.drive v), .pin (.assertLine .ce), .pin (.assertLine .we),
              .pin (.wait s.params.tWeMin), .pin (.deassertLine .we), .pin (.deassertLine .ce)] }
      else .error .busPrecondition) ∧
  Config.params.tWeMin = 1000

/-- 41_bus_sequencer.md R163, R168: the direction changes only with the chip deselected, and to Output only with OE deasserted. -/
def Obligations.DirectionPrecondition : Prop :=
  ∀ (d : Dir) (s : State),
    setDataLinesDirection d s =
      if s.bus.ce = false ∧ s.bus.we = false ∧ (d = .output → s.bus.oe = false) then
        .ok { s with
          bus := { s.bus with dir := d, timer := .idle }
          history := s.history ++ [.pin (.setDir d)] }
      else .error .busPrecondition

/-- 10_state.md R41, R42, R44: the pins follow the registers, for either polarity, and the block drives the data lines exactly
when the direction is Output. -/
def Obligations.PinsFollowRegisters : Prop :=
  ∀ s : State,
    s.eepCe = (s.bus.ce ^^ s.params.ctrlActiveLow) ∧ s.eepOe = (s.bus.oe ^^ s.params.ctrlActiveLow) ∧
    s.eepWe = (s.bus.we ^^ s.params.ctrlActiveLow) ∧ (s.eepDDir = true ↔ s.bus.dir = .output) ∧
    s.drivenData = (if s.bus.dir = .output then some s.bus.dout else none) ∧ s.eepA = s.bus.addr

/-- 70_reset_and_hazards.md R340 (b), (c): a legal trace, from deasserted lines, never has block and chip both driving the data lines,
after any number of its events. -/
def Obligations.LegalTraceHasNoContention : Prop :=
  ∀ (p : Params) (b : BusRegs) (es : List BusEvent) (n : Nat), b.quiet → legalTrace p b es = true →
    ((es.take n).foldl (applyEvent p.addrBits) b).contention = false

/-- 42_chip_operations.md R202, 70_reset_and_hazards.md R340 (a) to (f), 41_bus_sequencer.md R167, R169, 10_state.md R50: from the line
invariant every command goes on; it adds only pin events; they keep every hazard R340, with the page-program wait last for T; and they
leave the line invariant true. -/
def Obligations.CommandTracesAreLegal : Prop :=
  ∀ (i : Instr) (s : State), s.bus.quiet →
    ∃ t es, exec i s = .next t ∧ t.history = s.history ++ es.map PortEvent.pin ∧
      t.bus = es.foldl (applyEvent s.params.addrBits) s.bus ∧ hazardFree s.params i s.bus es = true ∧ t.bus.quiet

/-- 20_memory.md R71: two block addresses have one chip address exactly when they agree modulo `2^ADDR_BITS`; the `ADDR_BITS` address pins
carry the address bits of their numbers, and the register behind them has no other bit. -/
def Obligations.ChipAddressAliasing : Prop :=
  ∀ bits : Nat,
    (∀ v w : Word, chipaddr bits v = chipaddr bits w ↔ v.toNat % 2 ^ bits = w.toNat % 2 ^ bits) ∧
    ∀ (v : Word) (b : BusRegs) (j : Nat),
      (applyEvent bits b (.setAddr v)).addr.getLsbD j = (decide (j < bits) && v.getLsbD j)

/-- 20_memory.md R73: byte `i` of a run of read cycles or write cycles from `a` goes to block address `(a + i) mod 2^16`, which is chip
address `(a + i) mod 2^ADDR_BITS`, and the run has no other cycle. -/
def Obligations.ConsecutiveAddressesWrap : Prop :=
  ∀ (p : Params) (a : Word) (bs : List Byte), p.ok →
    (addressesOf (readTrace p a bs)).length = bs.length ∧
    addressesOf (writeTrace p (consecutive a bs)) = addressesOf (readTrace p a bs) ∧
    (consecutive a bs).map Prod.snd = bs ∧
    ∀ i, i < bs.length → ∃ w : Word, (addressesOf (readTrace p a bs))[i]? = some w ∧
      w.toNat = (a.toNat + i) % 65536 ∧ (chipaddr p.addrBits w).toNat = (a.toNat + i) % 2 ^ p.addrBits

/-! ### Commands: what each does, and nothing else -/

/-- 44_commands.md R250: V replies the version line and changes nothing else. -/
def Obligations.VersionReplies : Prop :=
  ∀ s : State, exec .version s = .next { s with reply := s.replied [s.params.versionString] }

/-- 44_commands.md R259: `?` replies the lines of HELP_TEXT and changes nothing else. The default text, a free value (log 2), has at
least one line. -/
def Obligations.HelpReplies : Prop :=
  Config.params.helpText ≠ [] ∧ ∀ s : State, exec .help s = .next { s with reply := s.replied s.params.helpText }

/-- 44_commands.md R260: an empty line replies nothing and changes nothing. -/
def Obligations.EmptyLineDoesNothing : Prop :=
  ∀ s : State, exec .empty s = .next { s with reply := s.replied [] }

/-- 44_commands.md R251, 42_chip_operations.md R192, R193, R195: P reads byte 0, sends the enable sequence, rewrites the byte
read, and replies OK; nothing else changes. With the default parameters the sequence is that of R195 (its addresses: log 13). -/
def Obligations.ProtectRunsSequence : Prop :=
  (∀ s : State, s.bus.quiet →
    exec .protect s = .next { s with
      sdpSaved := s.nextSample
      eepIn := s.eepIn.tail
      samples := s.samples + 1
      bus :=
        { ce := false, oe := false, we := false, dir := .output, addr := chipaddr s.params.addrBits s.params.sdpRestoreAddr
          dout := s.nextSample, timer := .idle }
      history := s.history ++
        List.map PortEvent.pin ([.setDir .input, .assertLine .oe] ++
          readCycle s.params s.params.sdpRestoreAddr s.nextSample ++ [.deassertLine .oe, .setDir .output] ++
          writeTrace s.params (sdpCycles s.params true) ++ writeCycle s.params s.params.sdpRestoreAddr s.nextSample)
      reply := s.replied [[0x4F, 0x4B]] }) ∧
  sdpCycles Config.params true = [(0x5555, 0xAA), (0x2AAA, 0x55), (0x5555, 0xA0)]

/-- 44_commands.md R252, 42_chip_operations.md R192, R193, R194: U reads byte 0, sends the disable sequence, rewrites the byte
read, and replies OK; nothing else changes. With the default parameters the sequence is that of R194 (its addresses: log 13). -/
def Obligations.UnprotectRunsSequence : Prop :=
  (∀ s : State, s.bus.quiet →
    exec .unprotect s = .next { s with
      sdpSaved := s.nextSample
      eepIn := s.eepIn.tail
      samples := s.samples + 1
      bus :=
        { ce := false, oe := false, we := false, dir := .output, addr := chipaddr s.params.addrBits s.params.sdpRestoreAddr
          dout := s.nextSample, timer := .idle }
      history := s.history ++
        List.map PortEvent.pin ([.setDir .input, .assertLine .oe] ++
          readCycle s.params s.params.sdpRestoreAddr s.nextSample ++ [.deassertLine .oe, .setDir .output] ++
          writeTrace s.params (sdpCycles s.params false) ++ writeCycle s.params s.params.sdpRestoreAddr s.nextSample)
      reply := s.replied [[0x4F, 0x4B]] }) ∧
  sdpCycles Config.params false =
    [(0x5555, 0xAA), (0x2AAA, 0x55), (0x5555, 0x80), (0x5555, 0xAA), (0x2AAA, 0x55), (0x5555, 0x20)]

/-- 44_commands.md R255, 42_chip_operations.md R197: B sends the erase sequence and replies OK; no read, no trailing write, no wait after
it, nothing else. With the default parameters the sequence is that of R197 (its addresses: log 13). -/
def Obligations.EraseRunsSequence : Prop :=
  (∀ s : State, s.bus.quiet →
    exec .erase s = .next { s with
      bus := { s.bus with
        dir := .output
        addr := ((eraseCycles s.params).getLast?.map fun c => chipaddr s.params.addrBits c.1).getD s.bus.addr
        dout := ((eraseCycles s.params).getLast?.map Prod.snd).getD s.bus.dout
        timer := .idle }
      history := s.history ++ List.map PortEvent.pin (.setDir .output :: writeTrace s.params (eraseCycles s.params))
      reply := s.replied [[0x4F, 0x4B]] }) ∧
  eraseCycles Config.params =
    [(0x5555, 0xAA), (0x2AAA, 0x55), (0x5555, 0x80), (0x5555, 0xAA), (0x2AAA, 0x55), (0x5555, 0x10)]

/-- 44_commands.md R253, 42_chip_operations.md R190, 30_encoding.md R120: R reads `XFER_CAP` bytes (16 by default) at consecutive addresses
into the Transfer Buffer, whatever they are, replies the data line and OK, and changes nothing else. -/
def Obligations.ReadRepliesSixteenBytes : Prop :=
  ∀ (a : Word) (s : State), s.bus.quiet →
    ∃ t bs, exec (.read (.value a)) s = .next t ∧ bs = samplesAhead s.params.xferCap s ∧ bs.length = s.params.xferCap ∧
      t.xferBytes = bs ∧ (s.xfer.length = s.params.xferCap → t.xfer = bs) ∧
      t = { s with
        xfer := t.xfer
        xferN := s.params.xferCap
        eepIn := s.eepIn.drop s.params.xferCap
        samples := s.samples + s.params.xferCap
        bus := { s.bus with
          dir := .input
          addr := if bs = [] then s.bus.addr else chipaddr s.params.addrBits (a + BitVec.ofNat 16 (bs.length - 1))
          timer := .idle }
        history := s.history ++
          List.map PortEvent.pin ([.setDir .input, .assertLine .oe] ++ readTrace s.params a bs ++ [.deassertLine .oe])
        reply := s.replied [hex4 a ++ [0x3A] ++ bs.flatMap hex2 ++ [0x2C] ++ hex2 (xorsum bs), [0x4F, 0x4B]] }

/-- 44_commands.md R254, 42_chip_operations.md R191: W with no checksum or a right one writes the data bytes in order at
consecutive addresses and replies OK; besides the bus only the Transfer Buffer changes (its bytes past the data stay: log 23). -/
def Obligations.WriteSendsDataBytes : Prop :=
  ∀ (a : Word) (data : List Byte) (given : Option Byte) (s : State), data.length ≤ s.params.xferCap → s.bus.quiet →
    (given = none ∨ given = some (xorsum data)) →
    ∃ t, exec (.write (.fields a data given)) s = .next t ∧ t.xferBytes = data ∧
      t = { s with
        xfer := (data ++ s.xfer.drop data.length).take s.params.xferCap
        xferN := data.length
        bus := { s.bus with
          dir := .output
          addr := if data = [] then s.bus.addr
            else chipaddr s.params.addrBits (a + BitVec.ofNat 16 (data.length - 1))
          dout := data.getLastD s.bus.dout
          timer := .idle }
        history := s.history ++ List.map PortEvent.pin (.setDir .output :: writeTrace s.params (consecutive a data))
        reply := s.replied [[0x4F, 0x4B]] }

/-- 44_commands.md R254, R257, R262, 30_encoding.md R121: W and S with a wrong checksum reply `ERR`, the given and the computed byte in
uppercase, and change nothing but the Transfer Buffer. No bus event happens, whatever the bus state. -/
def Obligations.ChecksumMismatchReplies : Prop :=
  ∀ (a : Word) (data : List Byte) (g : Byte) (s : State), data.length ≤ s.params.xferCap → g ≠ xorsum data →
    ∃ t, exec (.write (.fields a data (some g))) s = .next t ∧ exec (.fill (.fields a data (some g))) s = .next t ∧
      t = { s with
        xfer := t.xfer
        xferN := data.length
        reply := s.replied [[0x45, 0x52, 0x52, 0x20] ++ hex2Upper g ++ [0x20] ++ hex2Upper (xorsum data)] }

/-- 44_commands.md R263, R262, 30_encoding.md R109: the address field is missing exactly when the line ends or `':'` stands right after
the tag; R, N, W and S then reply ERR, as W and S without separator do, and change nothing else. -/
def Obligations.MissingOperandIsMalformed : Prop :=
  (∀ (cap : Nat) (cs : List Byte), (requireAddr cs = .missing ↔ cs = [] ∨ cs.head? = some 0x3A) ∧
    (parsePayload cap cs = .noAddress ↔ cs = [] ∨ cs.head? = some 0x3A) ∧
    (parsePayload cap cs = .noSeparator ↔
      (parseAddr cs).2.1 ≠ 0 ∧ (parseAddr cs).2.2.head? ≠ some 0x3A)) ∧
  ∀ (s : State) (i : Instr),
    i ∈ [.read .missing, .prepare .missing, .write .noAddress, .write .noSeparator, .fill .noAddress, .fill .noSeparator] →
    exec i s = .next { s with reply := s.replied [[0x45, 0x52, 0x52]] }

/-- 44_commands.md R256, 42_chip_operations.md R198: with LEGACY_PREPARE_FILL = false, the chosen default (log 15), N sets the Base Address,
erases every byte of the Page Buffer, replies OK, and changes nothing else. The other value is LegacyPrepareErasesLastByte. -/
def Obligations.PrepareSetsBaseAndErasesPage : Prop :=
  ∀ (a : Word) (s : State), s.params.legacyPrepareFill = false →
    exec (.prepare (.value a)) s = .next { s with
      base := a, page := List.replicate s.params.pageCap s.params.erased, reply := s.replied [[0x4F, 0x4B]] }

/-- 42_chip_operations.md R201: with LEGACY_PREPARE_FILL = true, N sets the Base Address and erases the last byte of the Page Buffer only;
it replies OK (44_commands.md R256) and changes nothing else. -/
def Obligations.LegacyPrepareErasesLastByte : Prop :=
  ∀ (a : Word) (s : State), s.params.legacyPrepareFill = true → s.page.length = s.params.pageCap →
    ∃ t, exec (.prepare (.value a)) s = .next t ∧
      t = { s with base := a, page := t.page, reply := s.replied [[0x4F, 0x4B]] } ∧
      t.page.length = s.params.pageCap ∧
      ∀ j, j < s.params.pageCap → t.page[j]? = if j + 1 = s.params.pageCap then some s.params.erased else s.page[j]?

/-- 44_commands.md R257, 42_chip_operations.md R199, 20_memory.md R74: S with no checksum or a right one copies exactly the data bytes
into the page at masked indices, replies OK, and changes nothing else but the Transfer Buffer (its bytes past the data stay: log 23).
The clauses on single bytes are for data that does not go round the whole page. -/
def Obligations.FillStoresAtMaskedOffset : Prop :=
  ∀ (a : Word) (data : List Byte) (given : Option Byte) (s : State), data.length ≤ s.params.xferCap →
    (given = none ∨ given = some (xorsum data)) →
    ∃ t, exec (.fill (.fields a data given)) s = .next t ∧ t.xferBytes = data ∧
      t = { s with
        page := t.page
        xfer := (data ++ s.xfer.drop data.length).take s.params.xferCap
        xferN := data.length
        reply := s.replied [[0x4F, 0x4B]] } ∧
      t.page.length = s.page.length ∧
      (s.params.ok → s.page.length = s.params.pageCap → data.length ≤ s.params.pageCap →
        (∀ k, k < data.length →
          t.page[(a.toNat % s.params.pageCap + k) % s.params.pageCap]? = data[k]?) ∧
        (∀ j, (∀ k, k < data.length → j ≠ (a.toNat % s.params.pageCap + k) % s.params.pageCap) → t.page[j]? = s.page[j]?))

/-- 44_commands.md R258, 42_chip_operations.md R200: T writes the whole page, `PAGE_CAP` bytes (128 by default), from the Base Address on,
waits at least `T_PAGE_MIN`, and replies OK; `page`, `base` and everything else stay. -/
def Obligations.ProgramWritesWholePage : Prop :=
  ∀ s : State, s.bus.quiet →
    exec .program s = .next { s with
      bus := { s.bus with
        dir := .output
        addr := if s.page = [] then s.bus.addr
          else chipaddr s.params.addrBits (s.base + BitVec.ofNat 16 (s.page.length - 1))
        dout := s.page.getLastD s.bus.dout
        timer := .waiting s.params.tPageMin }
      history := s.history ++ List.map PortEvent.pin
        (.setDir .output :: (writeTrace s.params (consecutive s.base s.page) ++ [.wait s.params.tPageMin]))
      reply := s.replied [[0x4F, 0x4B]] }

/-- 44_commands.md R264, 60_exceptions.md R291, R294: an instruction that ends in an error replies exactly that error's line,
which starts with `ERR` for all parameters that keep R291; nothing changes but the reply and the unobservable Transfer Buffer. The return
to AwaitingLine is ReplyIsHandedOver. -/
def Obligations.ErrorsHaveNoSideEffects : Prop :=
  ∀ (i : Instr) (e : ErrorKind) (s : State), wellFormed s.params i = true → raisesError i = some e →
    ∃ t, exec i s = .next t ∧
      t = { s with xfer := t.xfer, xferN := t.xferN, reply := s.replied [errorLine s.params e] } ∧
      (s.params.ok → (errorLine s.params e).take 3 = [0x45, 0x52, 0x52])

/-- 10_state.md R38, R39, R40, R46, R51: over all commands, only N and S change the page, only N the Base Address, only P and U
`sdp_saved`, only R, W and S the Transfer Buffer, only P, U, R, W, B and T the bus; none changes the parameters, the line, the
state machine or an input that it does not sample. That the Transfer Buffer and `sdp_saved` stay under the other commands is the model's
choice (log 27; U4 allows any value). -/
def Obligations.OnlyTheseCommandsChangeEachRegister : Prop :=
  ∀ (i : Instr) (s t : State), exec i s = .next t →
    (t.params, t.fsm, t.line, t.len, t.ovf, t.rx, t.txReady, t.rst, t.resets) =
      (s.params, s.fsm, s.line, s.len, s.ovf, s.rx, s.txReady, s.rst, s.resets) ∧
    (t.page = s.page ∨ (∃ a, i = .prepare (.value a)) ∨ ∃ a data g, i = .fill (.fields a data g)) ∧
    (t.base = s.base ∨ ∃ a, i = .prepare (.value a)) ∧
    (t.sdpSaved = s.sdpSaved ∨ i = .protect ∨ i = .unprotect) ∧
    ((t.xfer, t.xferN) = (s.xfer, s.xferN) ∨ (∃ a, i = .read (.value a)) ∨
      (∃ a data g, i = .write (.fields a data g)) ∨ ∃ a data g, i = .fill (.fields a data g)) ∧
    ((t.bus, t.history) = (s.bus, s.history) ∨ i ∈ [.protect, .unprotect, .erase, .program] ∨
      (∃ a, i = .read (.value a)) ∨ ∃ a data g, i = .write (.fields a data g)) ∧
    ((t.eepIn, t.samples) = (s.eepIn, s.samples) ∨ i ∈ [.protect, .unprotect] ∨ ∃ a, i = .read (.value a))

/-- 20_memory.md R93: no command's result depends on what an earlier command left in the Transfer Buffer. -/
def Obligations.TransferBufferCarriesNothing : Prop :=
  ∀ (i : Instr) (s : State) (x : List Byte) (n : Nat),
    outcomesAgree (fun t u => u = { t with xfer := u.xfer, xferN := u.xferN })
      (exec i s) (exec i { s with xfer := x, xferN := n })

/-- 20_memory.md R92: no command but T lets the Page Buffer reach the pins, the reply or any other register; and no command
lets what the chip drives reach the Page Buffer or the Base Address. -/
def Obligations.PageBufferIsOnlyStaging : Prop :=
  (∀ (i : Instr) (s : State) (p : List Byte), i ≠ .program →
    outcomesAgree (fun t u => u = { t with page := u.page }) (exec i s) (exec i { s with page := p })) ∧
  ∀ (i : Instr) (s : State) (d : List Byte) (n : Nat),
    outcomesAgree (fun t u => t.page = u.page ∧ t.base = u.base) (exec i s) (exec i { s with eepIn := d, samples := n })

/-- 20_memory.md R80: how many read and write cycles each command makes; none when it ends in an error, and none for an overflowed
line. The last clause is the table at the default parameters. -/
def Obligations.BusCyclesPerCommand : Prop :=
  (∀ (i : Instr) (s : State), wellFormed s.params i = true → s.params.ok → s.page.length = s.params.pageCap → s.bus.quiet →
    ∃ t, exec i s = .next t ∧
      ((newEvents s t).countP isSample, (writesOf s.params.addrBits s.bus (newPins s t)).length) =
        if raisesError i = none then cycleCounts s.params i else (0, 0)) ∧
  (∀ s : State, s.ovf = true → ∃ t, dispatch s = .next t ∧ newEvents s t = []) ∧
  (∀ a : Word, cycleCounts Config.params (.read (.value a)) = (16, 0)) ∧
  (∀ (a : Word) (data : List Byte) (g : Option Byte),
    cycleCounts Config.params (.write (.fields a data g)) = (0, data.length)) ∧
  cycleCounts Config.params .protect = (1, 3 + 1) ∧ cycleCounts Config.params .unprotect = (1, 6 + 1) ∧
  cycleCounts Config.params .erase = (0, 6) ∧ cycleCounts Config.params .program = (0, 128) ∧
  ∀ i : Instr, i ∈ [.version, .help, .empty] ∨ (∃ arg, i = .prepare arg) ∨ (∃ arg, i = .fill arg) →
    cycleCounts Config.params i = (0, 0)

/-- 70_reset_and_hazards.md R348: the lowest total wait of each command. The last clauses are the table at the default parameters, in
nanoseconds. -/
def Obligations.LeastWaitPerCommand : Prop :=
  (∀ (i : Instr) (s : State), wellFormed s.params i = true → s.params.ok → s.page.length = s.params.pageCap → s.bus.quiet →
    ∃ t, exec i s = .next t ∧
      leastWait (newPins s t) = if raisesError i = none then leastCommandWait s.params i else 0) ∧
  (∀ a : Word, leastCommandWait Config.params (.read (.value a)) = 16000) ∧
  (∀ (a : Word) (data : List Byte) (g : Option Byte),
    leastCommandWait Config.params (.write (.fields a data g)) = data.length * 1000) ∧
  leastCommandWait Config.params .protect = 5000 ∧ leastCommandWait Config.params .unprotect = 8000 ∧
  leastCommandWait Config.params .erase = 6000 ∧ leastCommandWait Config.params .program = 10128000

/-! ### The state machine -/

/-- 43_protocol.md R224: what one received byte does. -/
def Obligations.ReceiveOneByte : Prop :=
  ∀ (b : Byte) (s : State), s.line.length = s.params.lineCap → receive b s =
    if b = 0x0A then { s with fsm := .dispatching }
    else if b ≤ 0x1F then s
    else if s.len < s.params.lineCap then { s with line := s.line.set s.len b, len := s.len + 1 }
    else { s with ovf := true }

/-- 30_encoding.md R101, 43_protocol.md R221, R224, R225: a whole received line: the first `LINE_CAP` storable bytes are kept, in order, and
`ovf` tells whether there were more; nothing outside the line changes (log 27). -/
def Obligations.ReceptionKeepsTheLine : Prop :=
  ∀ (raw : List Byte) (s : State), 0x0A ∉ raw →
    ∃ t, receiveAll (raw ++ [0x0A]) (startLine s) = t ∧
      t.lineBytes = (raw.filter fun b => 0x1F < b).take s.params.lineCap ∧
      t.len = min (raw.filter fun b => 0x1F < b).length s.params.lineCap ∧
      (t.ovf = true ↔ s.params.lineCap < (raw.filter fun b => 0x1F < b).length) ∧
      t = { s with fsm := .dispatching, line := t.line, len := t.len, ovf := t.ovf, reply := none }

/-- 43_protocol.md R223, R224, 60_exceptions.md R304: while it awaits a line the block takes the next offered byte, and with none
offered it waits with all state kept (log 7). -/
def Obligations.AwaitingTakesOneByte : Prop :=
  ∀ s : State, s.fsm = .awaitingLine → s.rst = none →
    (∀ (b : Byte) (bs : List Byte), s.rx = b :: bs →
      step s = .next (receive b { s with rx := bs, history := s.history ++ [.rx b] })) ∧
    (s.rx = [] → step s = .next s)

/-- 43_protocol.md R223: input is taken only in AwaitingLine, reset or not (offered bytes stay offered: log 6). -/
def Obligations.InputOnlyInAwaitingLine : Prop :=
  ∀ s t : State, step s = .next t → s.fsm = .dispatching → t.rx = s.rx

/-- 43_protocol.md R226: a step at the start of Dispatching is `exec` of the decoded line; nothing is added around it. -/
def Obligations.StepRunsDecodedInstruction : Prop :=
  ∀ s : State, s.fsm = .dispatching → s.reply = none → s.rst = none → s.ovf = false →
    step s = exec (decodeLine s.params s.lineBytes) s

/-- 43_protocol.md R225, R226, 60_exceptions.md R291: an overflowed line replies ERR and runs no handler, whatever it holds. -/
def Obligations.OverflowedLineRunsNothing : Prop :=
  ∀ s : State, s.fsm = .dispatching → s.reply = none → s.rst = none → s.ovf = true →
    step s = .next { s with reply := s.replied [[0x45, 0x52, 0x52]] }

/-- 43_protocol.md R220, R222, 60_exceptions.md R298: with the transport ready, the queued reply bytes are handed over one a step, in
order, and then a new line starts; nothing else changes (logs 8, 9; that the Transfer Buffer and `sdp_saved` stay: log 27). -/
def Obligations.ReplyIsHandedOver : Prop :=
  ∀ (bs : List Byte) (s : State), s.fsm = .dispatching → s.reply = some bs → s.bus.timer = .idle → s.txReady = true →
    s.rst = none →
    Sys2Proof.core.run (bs.length + 1) s = .next { s with
      fsm := .awaitingLine
      len := 0
      ovf := false
      reply := none
      history := s.history ++ bs.map PortEvent.tx }

/-- 60_exceptions.md R298: while the transport does not take a byte the block stays as it is and goes on offering it (log 9). -/
def Obligations.StalledTransportChangesNothing : Prop :=
  ∀ (b : Byte) (bs : List Byte) (s : State), s.fsm = .dispatching → s.reply = some (b :: bs) → s.bus.timer = .idle →
    s.txReady = false → s.rst = none → step s = .next s ∧ s.txOffer = some b

/-- 70_reset_and_hazards.md R343, 20_memory.md R89: after T's write cycles no reply byte is offered until the page-program wait is over;
the step after T does nothing but let it run out (log 11). -/
def Obligations.NoReplyByteDuringPageWait : Prop :=
  ∀ s : State, s.bus.quiet → s.fsm = .dispatching → s.rst = none →
    ∃ t, exec .program s = .next t ∧ t.txOffer = none ∧ t.trace.getLast? = some (.wait s.params.tPageMin) ∧
      step t = .next { t with bus := { t.bus with timer := .idle } }

/-- 43_protocol.md R220: AwaitingLine is left only by an LF, and Dispatching only when the whole reply has been handed over
(that `startLine` keeps the Transfer Buffer and `sdp_saved`: log 27). -/
def Obligations.OnlyTheseTransitions : Prop :=
  ∀ s t : State, step s = .next t → s.rst = none →
    (s.fsm = .awaitingLine → t.fsm = .dispatching → ∃ bs, s.rx = 0x0A :: bs) ∧
    (s.fsm = .dispatching → t.fsm = .awaitingLine → s.reply = some [] ∧ s.bus.timer = .idle ∧ t = startLine s)

/-- 70_reset_and_hazards.md R330, R332, 60_exceptions.md R305, 10_state.md R52: reset comes first in every state, sets every register
the spec gives a value for, empties the output stream, and touches no pin event and no sample. The model's choices: the risen pin is
`rst = some 0` (log 10), offered input bytes survive the reset (log 6), the Page Buffer and the Base Address are draws, one per reset
(log 3), and the parameters stay (log 25). -/
def Obligations.ResetTakesPrecedence : Prop :=
  ∀ s : State, s.rst = some 0 →
    ∃ t, step s = .next t ∧ t.fsm = .awaitingLine ∧ t.len = 0 ∧ t.ovf = false ∧ t.reply = none ∧
      t.bus = { ce := false, oe := false, we := false, dir := .input, addr := 0, dout := 0, timer := .idle } ∧
      t.out = [] ∧ t.trace = s.trace ∧ t.rx = s.rx ∧ t.eepIn = s.eepIn ∧ t.samples = s.samples ∧
      t.params = s.params ∧ t.base = Config.baseInit t.resets ∧ t.resets = s.resets + 1 ∧
      t.page.length = s.params.pageCap ∧
      ∀ j, j < s.params.pageCap → t.page[j]? = some (Config.pageBufInit t.resets j)

/-- 10_state.md R52, 70_reset_and_hazards.md R330, R331: the machine right after power-on reset, where the spec gives a value. The pin
levels are those of the default CTRL_ACTIVE_LOW = true, PRESUMED by the spec (log 14). That nothing is on offer at the inputs is log 24. -/
def Obligations.PowerOnResetValues : Prop :=
  State.reset.fsm = .awaitingLine ∧ State.reset.len = 0 ∧ State.reset.ovf = false ∧
  State.reset.bus = { ce := false, oe := false, we := false, dir := .input, addr := 0, dout := 0, timer := .idle } ∧
  State.reset.out = [] ∧ State.reset.trace = [] ∧ State.reset.txOffer = none ∧ State.reset.rxReady = true ∧
  State.reset.eepCe = true ∧ State.reset.eepOe = true ∧ State.reset.eepWe = true ∧ State.reset.drivenData = none

/-- 70_reset_and_hazards.md R333: a reset that rises within a step abandons it: exactly the port events before it happened, and the block
is at its reset values; a reset that rises later leaves the step whole (log 10). -/
def Obligations.ResetCutsTheCommandShort : Prop :=
  ∀ (k : Nat) (s t : State), s.rst = some (k + 1) → blockStep s = .next t →
    if k + 1 ≤ (newEvents s t).length then
      ∃ u, step s = .next u ∧ u.history = s.history ++ (newEvents s t).take (k + 1) ++ [.rst] ∧ u.fsm = .awaitingLine ∧
        u.len = 0 ∧ u.ovf = false ∧ u.reply = none ∧ u.bus = BusRegs.reset ∧ u.out = [] ∧ u.rst = none ∧
        u.resets = s.resets + 1 ∧ u.params = s.params
    else step s = .next { t with rst := some (k + 1 - (newEvents s t).length) }

/-- The invariant of Safety.lean holds right after reset (`xfer_n` there is the model's value: log 4). -/
def Obligations.InvariantAtReset : Prop := State.reset.Inv

/-- 10_state.md R35 to R39, R43, R50, 42_chip_operations.md R202, 43_protocol.md R230: from every state with the invariant a step goes on, to
a state with the invariant: the block never halts, never faults, and leaves the control lines deasserted; and no step changes a
parameter (log 25). -/
def Obligations.EveryStepGoesOnAndKeepsInvariant : Prop :=
  ∀ s : State, s.Inv → ∃ t, step s = .next t ∧ t.Inv ∧ t.params = s.params

/-- 43_protocol.md R220, R222, R227, 60_exceptions.md R295, 20_memory.md R88: whatever line was received, the block comes back to
AwaitingLine with an empty line, having taken no input; all its pin events come before all its reply bytes (logs 8, 9). -/
def Obligations.EveryLineReturnsToAwaitingLine : Prop :=
  ∀ s : State, s.Inv → s.fsm = .dispatching → s.txReady = true → s.rst = none →
    ∃ (n : Nat) (t : State) (es : List BusEvent) (bs : List Byte), Sys2Proof.core.run n s = .next t ∧
      t.fsm = .awaitingLine ∧ t.len = 0 ∧ t.ovf = false ∧ t.reply = none ∧ t.rx = s.rx ∧ t.bus.quiet ∧
      t.history = s.history ++ es.map PortEvent.pin ++ bs.map PortEvent.tx

/-- 43_protocol.md R220, R224, R226, 30_encoding.md R101: the bytes a host sends for a well-formed instruction, offered to a block that
awaits a line, are taken one a step; then the stored line is the instruction's and the next step runs it (log 6). -/
def Obligations.HostLineReachesItsHandler : Prop :=
  ∀ (i : Instr) (rest : List Byte) (s : State), s.params.ok → wellFormed s.params i = true → s.fsm = .awaitingLine → s.len = 0 →
    s.ovf = false → s.reply = none → s.rst = none → s.rx = encodeRaw i ++ rest →
    ∃ t, Sys2Proof.core.run (encodeRaw i).length s = .next t ∧
      t = { s with
        fsm := .dispatching
        line := t.line
        len := t.len
        rx := rest
        history := s.history ++ (encodeRaw i).map PortEvent.rx } ∧
      t.lineBytes = encode i ∧ step t = exec i t

/-! ### Round trips on the ideal chip of decision D38, taken as a premise -/

/-- 95_test_vectors.md S4 (D38), 44_commands.md R253, R254: on the ideal chip, a full W is read back by an R at the same address, wherever it
lies and whatever the chip held: each of R's own read cycles samples what the chip holds at the address that R drives. -/
def Obligations.WriteThenReadOnIdealChip : Prop :=
  ∀ (a : Word) (data : List Byte) (m : ChipMemory) (s t u v : State),
    s.params.ok → data.length = s.params.xferCap → data.length ≤ 2 ^ s.params.addrBits → m.wf s.params.addrBits = true →
    s.bus.quiet → exec (.write (.fields a data none)) s = .next t →
    u.params = s.params → u.bus.quiet → exec (.read (.value a)) u = .next v →
    drivenBy (chipAfter (.write (.fields a data none)) (writesOf s.params.addrBits s.bus (newPins s t)) m)
      s.params.addrBits u.bus (newPins u v) →
    v.reply = u.replied [hex4 a ++ [0x3A] ++ data.flatMap hex2 ++ [0x2C] ++ hex2 (xorsum data), [0x4F, 0x4B]]

/-- 95_test_vectors.md S6 (D38), 44_commands.md R258, 42_chip_operations.md R200: on the ideal chip, T stores page byte `j` at chip address
`(base + j) mod 2^ADDR_BITS` and leaves every other byte of the chip alone. -/
def Obligations.ProgramStoresPageOnIdealChip : Prop :=
  ∀ (m : ChipMemory) (s t : State), s.params.ok → m.wf s.params.addrBits = true → s.bus.quiet →
    s.page.length ≤ 2 ^ s.params.addrBits → exec .program s = .next t →
    (∀ (j : Nat) (h : j < s.page.length),
      readCell (chipAfter .program (writesOf s.params.addrBits s.bus (newPins s t)) m)
        ((s.base.toNat + j) % 2 ^ s.params.addrBits) = s.page[j]) ∧
    ∀ c, (∀ j, j < s.page.length → c ≠ (s.base.toNat + j) % 2 ^ s.params.addrBits) →
      readCell (chipAfter .program (writesOf s.params.addrBits s.bus (newPins s t)) m) c = readCell m c

/-- 42_chip_operations.md R193, 95_test_vectors.md S8 (D38): P and U end with a write of the byte they sampled to `SDP_RESTORE_ADDR` (chip
address 0 by default), where they sampled it, so that on the ideal chip they change no byte. -/
def Obligations.ProtectionChangeKeepsByteZero : Prop :=
  ∀ (i : Instr) (m : ChipMemory) (s t : State), i ∈ [.protect, .unprotect] → m.wf s.params.addrBits = true → s.bus.quiet →
    exec i s = .next t →
    (writesOf s.params.addrBits s.bus (newPins s t)).getLast? =
      some (chipaddr s.params.addrBits s.params.sdpRestoreAddr, s.nextSample) ∧
    sampledAddrs s.params.addrBits s.bus (newPins s t) = [chipaddr s.params.addrBits s.params.sdpRestoreAddr] ∧
    (drivenBy m s.params.addrBits s.bus (newPins s t) →
      ∀ c, readCell (chipAfter i (writesOf s.params.addrBits s.bus (newPins s t)) m) c = readCell m c)

/-! ### The parameters -/

/-- 00_scope.md R10, R11: the parameters at reset are the spec's default values, and they keep R11. Chosen by the spec or the model, and no
value of the source: LINE_CAP, RESP_EOL and UNRECOGNIZED_REPLY (log 1), SEQ_ADDRS (log 13), CTRL_ACTIVE_LOW (log 14) and
LEGACY_PREPARE_FILL (log 15). HELP_TEXT, F_CLK and T_LOAD_MAX are free (logs 2, 26). -/
def Obligations.ParametersAtReset : Prop :=
  State.reset.params.ok ∧
  ∃ (help : List (List Byte)) (fClk tLoadMax : Nat), State.reset.params =
    { addrBits := 15, xferCap := 16, pageCap := 128, pageMask := 0x7F, lineCap := 80, erased := 0xFF
      tSettleMin := 1000, tWeMin := 1000, tPageMin := 10000000, baud := 9600
      versionString := [0x45, 0x45, 0x50, 0x52, 0x4F, 0x4D, 0x20, 0x56, 0x65, 0x72, 0x73, 0x69, 0x6F, 0x6E, 0x3D,
        0x30, 0x2E, 0x30, 0x33]
      sdpAddr1 := 0x5555, sdpAddr2 := 0x2AAA, sdpRestoreAddr := 0x0000
      seqSdpDisable := [0xAA, 0x55, 0x80, 0xAA, 0x55, 0x20]
      seqSdpEnable := [0xAA, 0x55, 0xA0]
      seqErase := [0xAA, 0x55, 0x80, 0xAA, 0x55, 0x10]
      seqAddrsDisable := [.first, .second, .first, .first, .second, .first]
      seqAddrsEnable := [.first, .second, .first]
      seqAddrsErase := [.first, .second, .first, .first, .second, .first]
      helpText := help, respEol := [0x0A], unrecognizedReply := [0x45, 0x52, 0x52]
      ctrlActiveLow := true, legacyPrepareFill := false, fClk := fClk, tLoadMax := tLoadMax }
end

