-- ==== Sys2Proof/Laws/State.lean ====
section
/-!
SUPPORT. One lemma per field per update of the state, true by definition, so that no later proof unfolds a record update.
-/

namespace Sys2Proof.Machine

/-! ### `emit` -/

@[simp] theorem emit_params (x : List Byte) (s : State) : (emit x s).params = s.params := rfl
@[simp] theorem emit_fsm (x : List Byte) (s : State) : (emit x s).fsm = s.fsm := rfl
@[simp] theorem emit_line (x : List Byte) (s : State) : (emit x s).line = s.line := rfl
@[simp] theorem emit_len (x : List Byte) (s : State) : (emit x s).len = s.len := rfl
@[simp] theorem emit_ovf (x : List Byte) (s : State) : (emit x s).ovf = s.ovf := rfl
@[simp] theorem emit_xfer (x : List Byte) (s : State) : (emit x s).xfer = s.xfer := rfl
@[simp] theorem emit_xferN (x : List Byte) (s : State) : (emit x s).xferN = s.xferN := rfl
@[simp] theorem emit_page (x : List Byte) (s : State) : (emit x s).page = s.page := rfl
@[simp] theorem emit_base (x : List Byte) (s : State) : (emit x s).base = s.base := rfl
@[simp] theorem emit_bus (x : List Byte) (s : State) : (emit x s).bus = s.bus := rfl
@[simp] theorem emit_sdpSaved (x : List Byte) (s : State) : (emit x s).sdpSaved = s.sdpSaved := rfl
@[simp] theorem emit_reply (x : List Byte) (s : State) : (emit x s).reply = some (s.replyBytes ++ (x ++ s.params.respEol)) := rfl
@[simp] theorem emit_rx (x : List Byte) (s : State) : (emit x s).rx = s.rx := rfl
@[simp] theorem emit_eepIn (x : List Byte) (s : State) : (emit x s).eepIn = s.eepIn := rfl
@[simp] theorem emit_samples (x : List Byte) (s : State) : (emit x s).samples = s.samples := rfl
@[simp] theorem emit_txReady (x : List Byte) (s : State) : (emit x s).txReady = s.txReady := rfl
@[simp] theorem emit_rst (x : List Byte) (s : State) : (emit x s).rst = s.rst := rfl
@[simp] theorem emit_resets (x : List Byte) (s : State) : (emit x s).resets = s.resets := rfl
@[simp] theorem emit_history (x : List Byte) (s : State) : (emit x s).history = s.history := rfl

/-! ### `finish` -/

@[simp] theorem finish_params (s : State) : (finish s).params = s.params := rfl
@[simp] theorem finish_fsm (s : State) : (finish s).fsm = s.fsm := rfl
@[simp] theorem finish_line (s : State) : (finish s).line = s.line := rfl
@[simp] theorem finish_len (s : State) : (finish s).len = s.len := rfl
@[simp] theorem finish_ovf (s : State) : (finish s).ovf = s.ovf := rfl
@[simp] theorem finish_xfer (s : State) : (finish s).xfer = s.xfer := rfl
@[simp] theorem finish_xferN (s : State) : (finish s).xferN = s.xferN := rfl
@[simp] theorem finish_page (s : State) : (finish s).page = s.page := rfl
@[simp] theorem finish_base (s : State) : (finish s).base = s.base := rfl
@[simp] theorem finish_bus (s : State) : (finish s).bus = s.bus := rfl
@[simp] theorem finish_sdpSaved (s : State) : (finish s).sdpSaved = s.sdpSaved := rfl
@[simp] theorem finish_reply (s : State) : (finish s).reply = some s.replyBytes := rfl
@[simp] theorem finish_rx (s : State) : (finish s).rx = s.rx := rfl
@[simp] theorem finish_eepIn (s : State) : (finish s).eepIn = s.eepIn := rfl
@[simp] theorem finish_samples (s : State) : (finish s).samples = s.samples := rfl
@[simp] theorem finish_txReady (s : State) : (finish s).txReady = s.txReady := rfl
@[simp] theorem finish_rst (s : State) : (finish s).rst = s.rst := rfl
@[simp] theorem finish_resets (s : State) : (finish s).resets = s.resets := rfl
@[simp] theorem finish_history (s : State) : (finish s).history = s.history := rfl

/-! ### `raise` -/

@[simp] theorem raise_params (e : ErrorKind) (s : State) : (raise e s).params = s.params := rfl
@[simp] theorem raise_fsm (e : ErrorKind) (s : State) : (raise e s).fsm = s.fsm := rfl
@[simp] theorem raise_line (e : ErrorKind) (s : State) : (raise e s).line = s.line := rfl
@[simp] theorem raise_len (e : ErrorKind) (s : State) : (raise e s).len = s.len := rfl
@[simp] theorem raise_ovf (e : ErrorKind) (s : State) : (raise e s).ovf = s.ovf := rfl
@[simp] theorem raise_xfer (e : ErrorKind) (s : State) : (raise e s).xfer = s.xfer := rfl
@[simp] theorem raise_xferN (e : ErrorKind) (s : State) : (raise e s).xferN = s.xferN := rfl
@[simp] theorem raise_page (e : ErrorKind) (s : State) : (raise e s).page = s.page := rfl
@[simp] theorem raise_base (e : ErrorKind) (s : State) : (raise e s).base = s.base := rfl
@[simp] theorem raise_bus (e : ErrorKind) (s : State) : (raise e s).bus = s.bus := rfl
@[simp] theorem raise_sdpSaved (e : ErrorKind) (s : State) : (raise e s).sdpSaved = s.sdpSaved := rfl
@[simp] theorem raise_reply (e : ErrorKind) (s : State) : (raise e s).reply = some (s.replyBytes ++ (errorLine s.params e ++ s.params.respEol)) := rfl
@[simp] theorem raise_rx (e : ErrorKind) (s : State) : (raise e s).rx = s.rx := rfl
@[simp] theorem raise_eepIn (e : ErrorKind) (s : State) : (raise e s).eepIn = s.eepIn := rfl
@[simp] theorem raise_samples (e : ErrorKind) (s : State) : (raise e s).samples = s.samples := rfl
@[simp] theorem raise_txReady (e : ErrorKind) (s : State) : (raise e s).txReady = s.txReady := rfl
@[simp] theorem raise_rst (e : ErrorKind) (s : State) : (raise e s).rst = s.rst := rfl
@[simp] theorem raise_resets (e : ErrorKind) (s : State) : (raise e s).resets = s.resets := rfl
@[simp] theorem raise_history (e : ErrorKind) (s : State) : (raise e s).history = s.history := rfl

/-! ### `startLine` -/

@[simp] theorem startLine_params (s : State) : (startLine s).params = s.params := rfl
@[simp] theorem startLine_fsm (s : State) : (startLine s).fsm = .awaitingLine := rfl
@[simp] theorem startLine_line (s : State) : (startLine s).line = s.line := rfl
@[simp] theorem startLine_len (s : State) : (startLine s).len = 0 := rfl
@[simp] theorem startLine_ovf (s : State) : (startLine s).ovf = false := rfl
@[simp] theorem startLine_xfer (s : State) : (startLine s).xfer = s.xfer := rfl
@[simp] theorem startLine_xferN (s : State) : (startLine s).xferN = s.xferN := rfl
@[simp] theorem startLine_page (s : State) : (startLine s).page = s.page := rfl
@[simp] theorem startLine_base (s : State) : (startLine s).base = s.base := rfl
@[simp] theorem startLine_bus (s : State) : (startLine s).bus = s.bus := rfl
@[simp] theorem startLine_sdpSaved (s : State) : (startLine s).sdpSaved = s.sdpSaved := rfl
@[simp] theorem startLine_reply (s : State) : (startLine s).reply = none := rfl
@[simp] theorem startLine_rx (s : State) : (startLine s).rx = s.rx := rfl
@[simp] theorem startLine_eepIn (s : State) : (startLine s).eepIn = s.eepIn := rfl
@[simp] theorem startLine_samples (s : State) : (startLine s).samples = s.samples := rfl
@[simp] theorem startLine_txReady (s : State) : (startLine s).txReady = s.txReady := rfl
@[simp] theorem startLine_rst (s : State) : (startLine s).rst = s.rst := rfl
@[simp] theorem startLine_resets (s : State) : (startLine s).resets = s.resets := rfl
@[simp] theorem startLine_history (s : State) : (startLine s).history = s.history := rfl

/-! ### `loadXfer` -/

@[simp] theorem loadXfer_params (bs : List Byte) (s : State) : (loadXfer bs s).params = s.params := rfl
@[simp] theorem loadXfer_fsm (bs : List Byte) (s : State) : (loadXfer bs s).fsm = s.fsm := rfl
@[simp] theorem loadXfer_line (bs : List Byte) (s : State) : (loadXfer bs s).line = s.line := rfl
@[simp] theorem loadXfer_len (bs : List Byte) (s : State) : (loadXfer bs s).len = s.len := rfl
@[simp] theorem loadXfer_ovf (bs : List Byte) (s : State) : (loadXfer bs s).ovf = s.ovf := rfl
@[simp] theorem loadXfer_xfer (bs : List Byte) (s : State) : (loadXfer bs s).xfer = overwrite s.params.xferCap s.xfer bs := rfl
@[simp] theorem loadXfer_xferN (bs : List Byte) (s : State) : (loadXfer bs s).xferN = bs.length := rfl
@[simp] theorem loadXfer_page (bs : List Byte) (s : State) : (loadXfer bs s).page = s.page := rfl
@[simp] theorem loadXfer_base (bs : List Byte) (s : State) : (loadXfer bs s).base = s.base := rfl
@[simp] theorem loadXfer_bus (bs : List Byte) (s : State) : (loadXfer bs s).bus = s.bus := rfl
@[simp] theorem loadXfer_sdpSaved (bs : List Byte) (s : State) : (loadXfer bs s).sdpSaved = s.sdpSaved := rfl
@[simp] theorem loadXfer_reply (bs : List Byte) (s : State) : (loadXfer bs s).reply = s.reply := rfl
@[simp] theorem loadXfer_rx (bs : List Byte) (s : State) : (loadXfer bs s).rx = s.rx := rfl
@[simp] theorem loadXfer_eepIn (bs : List Byte) (s : State) : (loadXfer bs s).eepIn = s.eepIn := rfl
@[simp] theorem loadXfer_samples (bs : List Byte) (s : State) : (loadXfer bs s).samples = s.samples := rfl
@[simp] theorem loadXfer_txReady (bs : List Byte) (s : State) : (loadXfer bs s).txReady = s.txReady := rfl
@[simp] theorem loadXfer_rst (bs : List Byte) (s : State) : (loadXfer bs s).rst = s.rst := rfl
@[simp] theorem loadXfer_resets (bs : List Byte) (s : State) : (loadXfer bs s).resets = s.resets := rfl
@[simp] theorem loadXfer_history (bs : List Byte) (s : State) : (loadXfer bs s).history = s.history := rfl

/-! ### `elapse` -/

@[simp] theorem elapse_params (s : State) : (elapse s).params = s.params := rfl
@[simp] theorem elapse_fsm (s : State) : (elapse s).fsm = s.fsm := rfl
@[simp] theorem elapse_line (s : State) : (elapse s).line = s.line := rfl
@[simp] theorem elapse_len (s : State) : (elapse s).len = s.len := rfl
@[simp] theorem elapse_ovf (s : State) : (elapse s).ovf = s.ovf := rfl
@[simp] theorem elapse_xfer (s : State) : (elapse s).xfer = s.xfer := rfl
@[simp] theorem elapse_xferN (s : State) : (elapse s).xferN = s.xferN := rfl
@[simp] theorem elapse_page (s : State) : (elapse s).page = s.page := rfl
@[simp] theorem elapse_base (s : State) : (elapse s).base = s.base := rfl
@[simp] theorem elapse_bus (s : State) : (elapse s).bus = { s.bus with timer := .idle } := rfl
@[simp] theorem elapse_sdpSaved (s : State) : (elapse s).sdpSaved = s.sdpSaved := rfl
@[simp] theorem elapse_reply (s : State) : (elapse s).reply = s.reply := rfl
@[simp] theorem elapse_rx (s : State) : (elapse s).rx = s.rx := rfl
@[simp] theorem elapse_eepIn (s : State) : (elapse s).eepIn = s.eepIn := rfl
@[simp] theorem elapse_samples (s : State) : (elapse s).samples = s.samples := rfl
@[simp] theorem elapse_txReady (s : State) : (elapse s).txReady = s.txReady := rfl
@[simp] theorem elapse_rst (s : State) : (elapse s).rst = s.rst := rfl
@[simp] theorem elapse_resets (s : State) : (elapse s).resets = s.resets := rfl
@[simp] theorem elapse_history (s : State) : (elapse s).history = s.history := rfl

/-! ### `handOver` -/

@[simp] theorem handOver_params (b : Byte) (r : List Byte) (s : State) : (handOver b r s).params = s.params := rfl
@[simp] theorem handOver_fsm (b : Byte) (r : List Byte) (s : State) : (handOver b r s).fsm = s.fsm := rfl
@[simp] theorem handOver_line (b : Byte) (r : List Byte) (s : State) : (handOver b r s).line = s.line := rfl
@[simp] theorem handOver_len (b : Byte) (r : List Byte) (s : State) : (handOver b r s).len = s.len := rfl
@[simp] theorem handOver_ovf (b : Byte) (r : List Byte) (s : State) : (handOver b r s).ovf = s.ovf := rfl
@[simp] theorem handOver_xfer (b : Byte) (r : List Byte) (s : State) : (handOver b r s).xfer = s.xfer := rfl
@[simp] theorem handOver_xferN (b : Byte) (r : List Byte) (s : State) : (handOver b r s).xferN = s.xferN := rfl
@[simp] theorem handOver_page (b : Byte) (r : List Byte) (s : State) : (handOver b r s).page = s.page := rfl
@[simp] theorem handOver_base (b : Byte) (r : List Byte) (s : State) : (handOver b r s).base = s.base := rfl
@[simp] theorem handOver_bus (b : Byte) (r : List Byte) (s : State) : (handOver b r s).bus = s.bus := rfl
@[simp] theorem handOver_sdpSaved (b : Byte) (r : List Byte) (s : State) : (handOver b r s).sdpSaved = s.sdpSaved := rfl
@[simp] theorem handOver_reply (b : Byte) (r : List Byte) (s : State) : (handOver b r s).reply = some r := rfl
@[simp] theorem handOver_rx (b : Byte) (r : List Byte) (s : State) : (handOver b r s).rx = s.rx := rfl
@[simp] theorem handOver_eepIn (b : Byte) (r : List Byte) (s : State) : (handOver b r s).eepIn = s.eepIn := rfl
@[simp] theorem handOver_samples (b : Byte) (r : List Byte) (s : State) : (handOver b r s).samples = s.samples := rfl
@[simp] theorem handOver_txReady (b : Byte) (r : List Byte) (s : State) : (handOver b r s).txReady = s.txReady := rfl
@[simp] theorem handOver_rst (b : Byte) (r : List Byte) (s : State) : (handOver b r s).rst = s.rst := rfl
@[simp] theorem handOver_resets (b : Byte) (r : List Byte) (s : State) : (handOver b r s).resets = s.resets := rfl
@[simp] theorem handOver_history (b : Byte) (r : List Byte) (s : State) : (handOver b r s).history = s.history ++ [.tx b] := rfl

/-! ### `takeSample` -/

@[simp] theorem takeSample_params (s : State) : (takeSample s).params = s.params := rfl
@[simp] theorem takeSample_fsm (s : State) : (takeSample s).fsm = s.fsm := rfl
@[simp] theorem takeSample_line (s : State) : (takeSample s).line = s.line := rfl
@[simp] theorem takeSample_len (s : State) : (takeSample s).len = s.len := rfl
@[simp] theorem takeSample_ovf (s : State) : (takeSample s).ovf = s.ovf := rfl
@[simp] theorem takeSample_xfer (s : State) : (takeSample s).xfer = s.xfer := rfl
@[simp] theorem takeSample_xferN (s : State) : (takeSample s).xferN = s.xferN := rfl
@[simp] theorem takeSample_page (s : State) : (takeSample s).page = s.page := rfl
@[simp] theorem takeSample_base (s : State) : (takeSample s).base = s.base := rfl
@[simp] theorem takeSample_bus (s : State) : (takeSample s).bus = s.bus := rfl
@[simp] theorem takeSample_sdpSaved (s : State) : (takeSample s).sdpSaved = s.sdpSaved := rfl
@[simp] theorem takeSample_reply (s : State) : (takeSample s).reply = s.reply := rfl
@[simp] theorem takeSample_rx (s : State) : (takeSample s).rx = s.rx := rfl
@[simp] theorem takeSample_eepIn (s : State) : (takeSample s).eepIn = s.eepIn.tail := rfl
@[simp] theorem takeSample_samples (s : State) : (takeSample s).samples = s.samples + 1 := rfl
@[simp] theorem takeSample_txReady (s : State) : (takeSample s).txReady = s.txReady := rfl
@[simp] theorem takeSample_rst (s : State) : (takeSample s).rst = s.rst := rfl
@[simp] theorem takeSample_resets (s : State) : (takeSample s).resets = s.resets := rfl
@[simp] theorem takeSample_history (s : State) : (takeSample s).history = s.history := rfl

/-! ### `perform` -/

@[simp] theorem perform_params (es : List BusEvent) (s : State) : (perform es s).params = s.params := rfl
@[simp] theorem perform_fsm (es : List BusEvent) (s : State) : (perform es s).fsm = s.fsm := rfl
@[simp] theorem perform_line (es : List BusEvent) (s : State) : (perform es s).line = s.line := rfl
@[simp] theorem perform_len (es : List BusEvent) (s : State) : (perform es s).len = s.len := rfl
@[simp] theorem perform_ovf (es : List BusEvent) (s : State) : (perform es s).ovf = s.ovf := rfl
@[simp] theorem perform_xfer (es : List BusEvent) (s : State) : (perform es s).xfer = s.xfer := rfl
@[simp] theorem perform_xferN (es : List BusEvent) (s : State) : (perform es s).xferN = s.xferN := rfl
@[simp] theorem perform_page (es : List BusEvent) (s : State) : (perform es s).page = s.page := rfl
@[simp] theorem perform_base (es : List BusEvent) (s : State) : (perform es s).base = s.base := rfl
@[simp] theorem perform_bus (es : List BusEvent) (s : State) : (perform es s).bus = es.foldl (applyEvent s.params.addrBits) s.bus := rfl
@[simp] theorem perform_sdpSaved (es : List BusEvent) (s : State) : (perform es s).sdpSaved = s.sdpSaved := rfl
@[simp] theorem perform_reply (es : List BusEvent) (s : State) : (perform es s).reply = s.reply := rfl
@[simp] theorem perform_rx (es : List BusEvent) (s : State) : (perform es s).rx = s.rx := rfl
@[simp] theorem perform_eepIn (es : List BusEvent) (s : State) : (perform es s).eepIn = s.eepIn := rfl
@[simp] theorem perform_samples (es : List BusEvent) (s : State) : (perform es s).samples = s.samples := rfl
@[simp] theorem perform_txReady (es : List BusEvent) (s : State) : (perform es s).txReady = s.txReady := rfl
@[simp] theorem perform_rst (es : List BusEvent) (s : State) : (perform es s).rst = s.rst := rfl
@[simp] theorem perform_resets (es : List BusEvent) (s : State) : (perform es s).resets = s.resets := rfl
@[simp] theorem perform_history (es : List BusEvent) (s : State) : (perform es s).history = s.history ++ es.map .pin := rfl

/-! ### `preparePageBuffer` -/

@[simp] theorem preparePageBuffer_params (a : Word) (s : State) : (preparePageBuffer a s).params = s.params := rfl
@[simp] theorem preparePageBuffer_fsm (a : Word) (s : State) : (preparePageBuffer a s).fsm = s.fsm := rfl
@[simp] theorem preparePageBuffer_line (a : Word) (s : State) : (preparePageBuffer a s).line = s.line := rfl
@[simp] theorem preparePageBuffer_len (a : Word) (s : State) : (preparePageBuffer a s).len = s.len := rfl
@[simp] theorem preparePageBuffer_ovf (a : Word) (s : State) : (preparePageBuffer a s).ovf = s.ovf := rfl
@[simp] theorem preparePageBuffer_xfer (a : Word) (s : State) : (preparePageBuffer a s).xfer = s.xfer := rfl
@[simp] theorem preparePageBuffer_xferN (a : Word) (s : State) : (preparePageBuffer a s).xferN = s.xferN := rfl
@[simp] theorem preparePageBuffer_page (a : Word) (s : State) : (preparePageBuffer a s).page = preparedPage s.params s.page := rfl
@[simp] theorem preparePageBuffer_base (a : Word) (s : State) : (preparePageBuffer a s).base = a := rfl
@[simp] theorem preparePageBuffer_bus (a : Word) (s : State) : (preparePageBuffer a s).bus = s.bus := rfl
@[simp] theorem preparePageBuffer_sdpSaved (a : Word) (s : State) : (preparePageBuffer a s).sdpSaved = s.sdpSaved := rfl
@[simp] theorem preparePageBuffer_reply (a : Word) (s : State) : (preparePageBuffer a s).reply = s.reply := rfl
@[simp] theorem preparePageBuffer_rx (a : Word) (s : State) : (preparePageBuffer a s).rx = s.rx := rfl
@[simp] theorem preparePageBuffer_eepIn (a : Word) (s : State) : (preparePageBuffer a s).eepIn = s.eepIn := rfl
@[simp] theorem preparePageBuffer_samples (a : Word) (s : State) : (preparePageBuffer a s).samples = s.samples := rfl
@[simp] theorem preparePageBuffer_txReady (a : Word) (s : State) : (preparePageBuffer a s).txReady = s.txReady := rfl
@[simp] theorem preparePageBuffer_rst (a : Word) (s : State) : (preparePageBuffer a s).rst = s.rst := rfl
@[simp] theorem preparePageBuffer_resets (a : Word) (s : State) : (preparePageBuffer a s).resets = s.resets := rfl
@[simp] theorem preparePageBuffer_history (a : Word) (s : State) : (preparePageBuffer a s).history = s.history := rfl

/-! ### `fillPageBuffer` -/

@[simp] theorem fillPageBuffer_params (o : Word) (bs : List Byte) (s : State) : (fillPageBuffer o bs s).params = s.params := rfl
@[simp] theorem fillPageBuffer_fsm (o : Word) (bs : List Byte) (s : State) : (fillPageBuffer o bs s).fsm = s.fsm := rfl
@[simp] theorem fillPageBuffer_line (o : Word) (bs : List Byte) (s : State) : (fillPageBuffer o bs s).line = s.line := rfl
@[simp] theorem fillPageBuffer_len (o : Word) (bs : List Byte) (s : State) : (fillPageBuffer o bs s).len = s.len := rfl
@[simp] theorem fillPageBuffer_ovf (o : Word) (bs : List Byte) (s : State) : (fillPageBuffer o bs s).ovf = s.ovf := rfl
@[simp] theorem fillPageBuffer_xfer (o : Word) (bs : List Byte) (s : State) : (fillPageBuffer o bs s).xfer = s.xfer := rfl
@[simp] theorem fillPageBuffer_xferN (o : Word) (bs : List Byte) (s : State) : (fillPageBuffer o bs s).xferN = s.xferN := rfl
@[simp] theorem fillPageBuffer_page (o : Word) (bs : List Byte) (s : State) : (fillPageBuffer o bs s).page = fillPage s.params.pageMask s.page o bs := rfl
@[simp] theorem fillPageBuffer_base (o : Word) (bs : List Byte) (s : State) : (fillPageBuffer o bs s).base = s.base := rfl
@[simp] theorem fillPageBuffer_bus (o : Word) (bs : List Byte) (s : State) : (fillPageBuffer o bs s).bus = s.bus := rfl
@[simp] theorem fillPageBuffer_sdpSaved (o : Word) (bs : List Byte) (s : State) : (fillPageBuffer o bs s).sdpSaved = s.sdpSaved := rfl
@[simp] theorem fillPageBuffer_reply (o : Word) (bs : List Byte) (s : State) : (fillPageBuffer o bs s).reply = s.reply := rfl
@[simp] theorem fillPageBuffer_rx (o : Word) (bs : List Byte) (s : State) : (fillPageBuffer o bs s).rx = s.rx := rfl
@[simp] theorem fillPageBuffer_eepIn (o : Word) (bs : List Byte) (s : State) : (fillPageBuffer o bs s).eepIn = s.eepIn := rfl
@[simp] theorem fillPageBuffer_samples (o : Word) (bs : List Byte) (s : State) : (fillPageBuffer o bs s).samples = s.samples := rfl
@[simp] theorem fillPageBuffer_txReady (o : Word) (bs : List Byte) (s : State) : (fillPageBuffer o bs s).txReady = s.txReady := rfl
@[simp] theorem fillPageBuffer_rst (o : Word) (bs : List Byte) (s : State) : (fillPageBuffer o bs s).rst = s.rst := rfl
@[simp] theorem fillPageBuffer_resets (o : Word) (bs : List Byte) (s : State) : (fillPageBuffer o bs s).resets = s.resets := rfl
@[simp] theorem fillPageBuffer_history (o : Word) (bs : List Byte) (s : State) : (fillPageBuffer o bs s).history = s.history := rfl

/-! ### `resetBlock` -/

@[simp] theorem resetBlock_params (s : State) : (resetBlock s).params = s.params := rfl
@[simp] theorem resetBlock_fsm (s : State) : (resetBlock s).fsm = .awaitingLine := rfl
@[simp] theorem resetBlock_line (s : State) : (resetBlock s).line = List.replicate s.params.lineCap 0 := rfl
@[simp] theorem resetBlock_len (s : State) : (resetBlock s).len = 0 := rfl
@[simp] theorem resetBlock_ovf (s : State) : (resetBlock s).ovf = false := rfl
@[simp] theorem resetBlock_xfer (s : State) : (resetBlock s).xfer = List.replicate s.params.xferCap 0 := rfl
@[simp] theorem resetBlock_xferN (s : State) : (resetBlock s).xferN = 0 := rfl
@[simp] theorem resetBlock_page (s : State) : (resetBlock s).page = pageInit s.params (s.resets + 1) := rfl
@[simp] theorem resetBlock_base (s : State) : (resetBlock s).base = Config.baseInit (s.resets + 1) := rfl
@[simp] theorem resetBlock_bus (s : State) : (resetBlock s).bus = BusRegs.reset := rfl
@[simp] theorem resetBlock_sdpSaved (s : State) : (resetBlock s).sdpSaved = 0 := rfl
@[simp] theorem resetBlock_reply (s : State) : (resetBlock s).reply = none := rfl
@[simp] theorem resetBlock_rx (s : State) : (resetBlock s).rx = s.rx := rfl
@[simp] theorem resetBlock_eepIn (s : State) : (resetBlock s).eepIn = s.eepIn := rfl
@[simp] theorem resetBlock_samples (s : State) : (resetBlock s).samples = s.samples := rfl
@[simp] theorem resetBlock_txReady (s : State) : (resetBlock s).txReady = s.txReady := rfl
@[simp] theorem resetBlock_rst (s : State) : (resetBlock s).rst = none := rfl
@[simp] theorem resetBlock_resets (s : State) : (resetBlock s).resets = s.resets + 1 := rfl
@[simp] theorem resetBlock_history (s : State) : (resetBlock s).history = s.history ++ [.rst] := rfl

/-! ### Views -/

@[simp] theorem emit_replyBytes (x : List Byte) (s : State) :
    (emit x s).replyBytes = s.replyBytes ++ (x ++ s.params.respEol) := rfl
@[simp] theorem finish_replyBytes (s : State) : (finish s).replyBytes = s.replyBytes := rfl
@[simp] theorem raise_replyBytes (e : ErrorKind) (s : State) :
    (raise e s).replyBytes = s.replyBytes ++ (errorLine s.params e ++ s.params.respEol) := rfl
@[simp] theorem loadXfer_replyBytes (bs : List Byte) (s : State) : (loadXfer bs s).replyBytes = s.replyBytes := rfl
@[simp] theorem takeSample_replyBytes (s : State) : (takeSample s).replyBytes = s.replyBytes := rfl
@[simp] theorem perform_replyBytes (es : List BusEvent) (s : State) : (perform es s).replyBytes = s.replyBytes := rfl
@[simp] theorem preparePageBuffer_replyBytes (a : Word) (s : State) :
    (preparePageBuffer a s).replyBytes = s.replyBytes := rfl
@[simp] theorem fillPageBuffer_replyBytes (o : Word) (bs : List Byte) (s : State) :
    (fillPageBuffer o bs s).replyBytes = s.replyBytes := rfl

theorem trace_append {s t : State} {es : List PortEvent} (h : t.history = s.history ++ es) :
    t.trace = s.trace ++ es.filterMap pinOf := by
  simp [State.trace, h]

theorem out_append {s t : State} {es : List PortEvent} (h : t.history = s.history ++ es) :
    t.out = es.foldl outAfter s.out := by
  simp [State.out, h]

@[simp] theorem perform_trace (es : List BusEvent) (s : State) : (perform es s).trace = s.trace ++ es := by
  have h : ∀ fs : List BusEvent, (fs.map PortEvent.pin).filterMap pinOf = fs := by
    intro fs
    induction fs with
    | nil => rfl
    | cons e fs ih => simp only [List.map_cons, List.filterMap_cons, pinOf, ih]
  rw [State.trace, perform_history, List.filterMap_append, h]
  rfl

/-- Performing two lists of pin events is performing one after the other. -/
theorem perform_append (es fs : List BusEvent) (s : State) :
    perform fs (perform es s) = perform (es ++ fs) s := by
  simp [perform]

end Sys2Proof.Machine
end

