-- ==== Sys2Proof/Laws/Buffers.lean ====
section
/-!
SUPPORT. What the buffer operations do, index by index: the Command Line (10_state.md R35), the Transfer Buffer (R38) and the Page Buffer
(20_memory.md R74, 42_chip_operations.md R198 to R201).
-/

namespace Sys2Proof.Machine

/-! ### Single bytes -/

/-- Within the buffer, `putByte` replaces one byte. -/
theorem putByte_eq_set {buf : List Byte} {i : Nat} (h : i < buf.length) (b : Byte) : putByte buf i b = buf.set i b := by
  rw [putByte, List.set_eq_take_append_cons_drop, if_pos h]

/-- Storing at index `n` extends the first `n` bytes by the stored one. -/
theorem take_putByte {buf : List Byte} {n : Nat} (b : Byte) (h : n ≤ buf.length) :
    (putByte buf n b).take (n + 1) = buf.take n ++ [b] := by
  have e : (buf.take n).length = n := by simp [h]
  rw [putByte, List.take_append, e, List.take_of_length_le (by omega), Nat.add_sub_cancel_left, List.take_succ_cons, List.take_zero]

theorem putByte_length {buf : List Byte} {n : Nat} (b : Byte) (h : n < buf.length) : (putByte buf n b).length = buf.length := by
  rw [putByte_eq_set h, List.length_set]

/-! ### The Transfer Buffer -/

/-- `overwrite` writes exactly the indices below `|bs|` that exist. -/
theorem overwrite_get {cap : Nat} (buf bs : List Byte) {j : Nat} (hj : j < cap) :
    (overwrite cap buf bs)[j]? = if j < bs.length then bs[j]? else buf[j]? := by
  rw [overwrite, List.getElem?_take, if_pos hj]
  split
  · next h => rw [List.getElem?_append_left h]
  · next h => rw [List.getElem?_append_right (by omega), List.getElem?_drop, Nat.add_sub_cancel' (by omega)]

theorem overwrite_length {cap : Nat} {buf bs : List Byte} (h : buf.length = cap) : (overwrite cap buf bs).length = cap := by
  rw [overwrite, List.length_take, List.length_append, List.length_drop]
  omega

/-- A buffer that is overwritten whole holds the new bytes. -/
theorem overwrite_full {cap : Nat} {buf bs : List Byte} (h : buf.length = cap) (hb : bs.length = cap) :
    overwrite cap buf bs = bs := by
  rw [overwrite, List.drop_of_length_le (by omega), List.append_nil, List.take_of_length_le (by omega)]

/-- The valid bytes of the Transfer Buffer after a load: what was loaded, as far as the buffer goes. -/
theorem loadXfer_xferBytes (bs : List Byte) (s : State) :
    (loadXfer bs s).xferBytes = bs.take s.params.xferCap := by
  rw [State.xferBytes, loadXfer_xfer, loadXfer_xferN, overwrite, List.take_take, Nat.min_comm, ← List.take_take,
    List.take_left]

/-- A load that fits is read back whole. -/
theorem loadXfer_xferBytes_of_fits {bs : List Byte} {s : State} (h : bs.length ≤ s.params.xferCap) :
    (loadXfer bs s).xferBytes = bs := by
  rw [loadXfer_xferBytes, List.take_of_length_le h]

/-! ### The Page Buffer -/

/-- With R11 the masked index is the offset modulo the page size (20_memory.md R74). -/
theorem pageIndex_eq {p : Params} (h : p.ok) (o : Word) : pageIndex p.pageMask o = o.toNat % p.pageCap := by
  obtain ⟨-, -, hm, ⟨k, -, hk⟩, -⟩ := h
  have e : p.pageMask.toNat = 2 ^ k - 1 := by omega
  rw [pageIndex, BitVec.toNat_and, e, Nat.and_two_pow_sub_one_eq_mod, hk]

theorem pageCap_pos {p : Params} (h : p.ok) : 0 < p.pageCap := by
  have := h.2.2.1
  omega

theorem pageIndex_lt {p : Params} (h : p.ok) (o : Word) : pageIndex p.pageMask o < p.pageCap := by
  rw [pageIndex_eq h]; exact Nat.mod_lt _ (pageCap_pos h)

/-- The next masked index: the page size divides `2^16`, so that a wrap of the offset is no jump (20_memory.md R74). -/
theorem pageIndex_succ {p : Params} (h : p.ok) (o : Word) :
    pageIndex p.pageMask (o + 1) = (pageIndex p.pageMask o + 1) % p.pageCap := by
  have hd : p.pageCap ∣ 65536 := by
    obtain ⟨-, -, -, ⟨k, hk, e⟩, -⟩ := h
    exact e ▸ Nat.pow_dvd_pow 2 (show k ≤ 16 by omega)
  rw [pageIndex_eq h, pageIndex_eq h, BitVec.toNat_add, Nat.mod_add_mod]
  exact Nat.mod_mod_of_dvd _ hd

@[simp] theorem fillPage_length (mask : Word) (page : List Byte) (o : Word) (bs : List Byte) :
    (fillPage mask page o bs).length = page.length := by
  induction bs generalizing page o with
  | nil => rfl
  | cons b bs ih => rw [fillPage, ih, List.length_set]

/-- Steps forward from masked index `i` to `j` in a page of `cap` bytes. -/
theorem pageDistance_succ {cap i j : Nat} (hi : i < cap) (hj : j < cap) :
    if j = i then (j + cap - (i + 1) % cap) % cap = cap - 1 ∧ (j + cap - i) % cap = 0
    else (j + cap - i) % cap = (j + cap - (i + 1) % cap) % cap + 1 := by
  have hs : (i + 1) % cap = if i + 1 = cap then 0 else i + 1 := by
    split
    · next e => rw [e, Nat.mod_self]
    · exact Nat.mod_eq_of_lt (by omega)
  have hm : ∀ x, x < 2 * cap → x % cap = if x < cap then x else x - cap := by
    intro x hx
    split
    · next e => exact Nat.mod_eq_of_lt e
    · rw [Nat.mod_eq_sub_mod (by omega), Nat.mod_eq_of_lt (by omega)]
  rw [hs]
  by_cases e : i + 1 = cap
  · rw [if_pos e, Nat.sub_zero, Nat.add_mod_right, Nat.mod_eq_of_lt hj, hm _ (by omega)]
    split <;> split <;> omega
  · rw [if_neg e, hm (j + cap - i) (by omega), hm (j + cap - (i + 1)) (by omega)]
    split <;> split <;> split <;> omega

/-- One byte of the page after a fill of at most a page: the byte whose masked index it is, else the byte that was there (R199). -/
theorem fillPage_get {p : Params} (h : p.ok) {page : List Byte} (o : Word) {bs : List Byte} (hp : page.length = p.pageCap)
    (hb : bs.length ≤ p.pageCap) {j : Nat} (hj : j < p.pageCap) :
    (fillPage p.pageMask page o bs)[j]? =
      if (j + p.pageCap - pageIndex p.pageMask o) % p.pageCap < bs.length
      then bs[(j + p.pageCap - pageIndex p.pageMask o) % p.pageCap]? else page[j]? := by
  induction bs generalizing page o with
  | nil => simp [fillPage]
  | cons b bs ih =>
    have hi := pageIndex_lt h o
    have hd := pageDistance_succ hi hj
    rw [List.length_cons] at hb
    rw [fillPage, ih _ (by rw [List.length_set, hp]) (by omega), pageIndex_succ h]
    split at hd
    · next e =>
      rw [hd.1, hd.2, if_neg (by omega), if_pos (by simp), e, List.getElem?_set_self (by omega), List.getElem?_cons_zero]
    · next e =>
      rw [hd, List.getElem?_cons_succ, List.getElem?_set_ne (Ne.symm e), List.length_cons]
      simp only [Nat.add_lt_add_iff_right]

/-- After a full prepare every byte is erased (R198). -/
theorem preparedPage_full {p : Params} (h : p.legacyPrepareFill = false) (page : List Byte) :
    preparedPage p page = List.replicate p.pageCap p.erased := by
  rw [preparedPage, h]; rfl

/-- After a legacy prepare only the last byte is erased (R201). -/
theorem preparedPage_legacy {p : Params} (h : p.legacyPrepareFill = true) {page : List Byte} (hp : page.length = p.pageCap)
    {j : Nat} (hj : j < p.pageCap) :
    (preparedPage p page)[j]? = if j + 1 = p.pageCap then some p.erased else page[j]? := by
  rw [preparedPage, if_pos h]
  split
  · next e =>
    have : p.pageCap - 1 = j := by omega
    rw [this, List.getElem?_set_self (by omega)]
  · rw [List.getElem?_set_ne (by omega)]

theorem preparedPage_length {p : Params} {page : List Byte} (hp : page.length = p.pageCap) :
    (preparedPage p page).length = p.pageCap := by
  rw [preparedPage]
  split
  · rw [List.length_set, hp]
  · rw [List.length_replicate]

end Sys2Proof.Machine
end

