-- ==== Sys2Proof/Laws/Bus.lean ====
section
/-!
SUPPORT. What the bus primitives and the chip operations do, once each: given their precondition they answer one explicit next state,
and otherwise the fault of 41_bus_sequencer.md R168. Later proofs cite these and unfold nothing.
-/

namespace Sys2Proof.Machine

/-! ### One primitive -/

theorem setDataLinesDirection_ok {d : Dir} {s : State} (h : dirReady d s.bus = true) :
    setDataLinesDirection d s = .ok (perform [.setDir d] s) := by
  simp [setDataLinesDirection, h]

theorem setDataLinesDirection_fault {d : Dir} {s : State} (h : dirReady d s.bus = false) :
    setDataLinesDirection d s = .error .busPrecondition := by
  simp [setDataLinesDirection, h]

theorem readByteAt_ok {a : Word} {s : State} (h : readReady s.bus = true) :
    readByteAt a s = .ok (s.nextSample, perform (readCycle s.params a s.nextSample) (takeSample s)) := by
  simp [readByteAt, h]

theorem readByteAt_fault {a : Word} {s : State} (h : readReady s.bus = false) :
    readByteAt a s = .error .busPrecondition := by
  simp [readByteAt, h]

theorem writeByteAt_ok {a : Word} {v : Byte} {s : State} (h : writeReady s.bus = true) :
    writeByteAt a v s = .ok (perform (writeCycle s.params a v) s) := by
  simp [writeByteAt, h]

theorem writeByteAt_fault {a : Word} {v : Byte} {s : State} (h : writeReady s.bus = false) :
    writeByteAt a v s = .error .busPrecondition := by
  simp [writeByteAt, h]

/-! ### The bus registers after one cycle -/

theorem readCycle_bus (p : Params) (bits : Nat) (a : Word) (v : Byte) (b : BusRegs) :
    (readCycle p a v).foldl (applyEvent bits) b = { b with addr := chipaddr bits a, ce := false, timer := .idle } := rfl

theorem writeCycle_bus (p : Params) (bits : Nat) (a : Word) (v : Byte) (b : BusRegs) :
    (writeCycle p a v).foldl (applyEvent bits) b =
      { b with addr := chipaddr bits a, dout := v, ce := false, we := false, timer := .idle } := rfl

theorem readReady_iff {b : BusRegs} :
    readReady b = true ↔ b.dir = .input ∧ b.oe = true ∧ b.ce = false ∧ b.we = false := by
  simp [readReady, and_assoc]

theorem writeReady_iff {b : BusRegs} :
    writeReady b = true ↔ b.dir = .output ∧ b.oe = false ∧ b.ce = false ∧ b.we = false := by
  simp [writeReady, and_assoc]

theorem dirReady_of_quiet {d : Dir} {b : BusRegs} (h : b.quiet) : dirReady d b = true := by
  simp [dirReady, h.1, h.2.1, h.2.2]

theorem readReady_after_readCycle {p : Params} {bits : Nat} {a : Word} {v : Byte} {b : BusRegs} (h : readReady b = true) :
    readReady ((readCycle p a v).foldl (applyEvent bits) b) = true := by
  rw [readReady_iff] at h ⊢
  simp [readCycle_bus, h]

theorem writeReady_after_writeCycle {p : Params} {bits : Nat} {a : Word} {v : Byte} {b : BusRegs} (h : writeReady b = true) :
    writeReady ((writeCycle p a v).foldl (applyEvent bits) b) = true := by
  rw [writeReady_iff] at h ⊢
  simp [writeCycle_bus, h]

/-! ### Samples -/

theorem takeSamples_eq (n : Nat) (s : State) :
    takeSamples n s = { s with eepIn := s.eepIn.drop n, samples := s.samples + n } := by
  induction n generalizing s with
  | zero => rfl
  | succ n ih => simp [takeSamples, ih, takeSample, Nat.add_comm, Nat.add_left_comm]

@[simp] theorem takeSamples_params (n : Nat) (s : State) : (takeSamples n s).params = s.params := by rw [takeSamples_eq]
@[simp] theorem takeSamples_fsm (n : Nat) (s : State) : (takeSamples n s).fsm = s.fsm := by rw [takeSamples_eq]
@[simp] theorem takeSamples_line (n : Nat) (s : State) : (takeSamples n s).line = s.line := by rw [takeSamples_eq]
@[simp] theorem takeSamples_len (n : Nat) (s : State) : (takeSamples n s).len = s.len := by rw [takeSamples_eq]
@[simp] theorem takeSamples_ovf (n : Nat) (s : State) : (takeSamples n s).ovf = s.ovf := by rw [takeSamples_eq]
@[simp] theorem takeSamples_xfer (n : Nat) (s : State) : (takeSamples n s).xfer = s.xfer := by rw [takeSamples_eq]
@[simp] theorem takeSamples_xferN (n : Nat) (s : State) : (takeSamples n s).xferN = s.xferN := by rw [takeSamples_eq]
@[simp] theorem takeSamples_page (n : Nat) (s : State) : (takeSamples n s).page = s.page := by rw [takeSamples_eq]
@[simp] theorem takeSamples_base (n : Nat) (s : State) : (takeSamples n s).base = s.base := by rw [takeSamples_eq]
@[simp] theorem takeSamples_bus (n : Nat) (s : State) : (takeSamples n s).bus = s.bus := by rw [takeSamples_eq]
@[simp] theorem takeSamples_sdpSaved (n : Nat) (s : State) : (takeSamples n s).sdpSaved = s.sdpSaved := by rw [takeSamples_eq]
@[simp] theorem takeSamples_reply (n : Nat) (s : State) : (takeSamples n s).reply = s.reply := by rw [takeSamples_eq]
@[simp] theorem takeSamples_rx (n : Nat) (s : State) : (takeSamples n s).rx = s.rx := by rw [takeSamples_eq]
@[simp] theorem takeSamples_eepIn (n : Nat) (s : State) : (takeSamples n s).eepIn = s.eepIn.drop n := by rw [takeSamples_eq]
@[simp] theorem takeSamples_samples (n : Nat) (s : State) : (takeSamples n s).samples = s.samples + n := by rw [takeSamples_eq]
@[simp] theorem takeSamples_txReady (n : Nat) (s : State) : (takeSamples n s).txReady = s.txReady := by rw [takeSamples_eq]
@[simp] theorem takeSamples_rst (n : Nat) (s : State) : (takeSamples n s).rst = s.rst := by rw [takeSamples_eq]
@[simp] theorem takeSamples_resets (n : Nat) (s : State) : (takeSamples n s).resets = s.resets := by rw [takeSamples_eq]
@[simp] theorem takeSamples_history (n : Nat) (s : State) : (takeSamples n s).history = s.history := by rw [takeSamples_eq]
@[simp] theorem takeSamples_replyBytes (n : Nat) (s : State) : (takeSamples n s).replyBytes = s.replyBytes := by
  rw [takeSamples_eq]; rfl

@[simp] theorem samplesAhead_length (n : Nat) (s : State) : (samplesAhead n s).length = n := by
  induction n generalizing s with
  | zero => rfl
  | succ n ih => simp [samplesAhead, ih]

@[simp] theorem nextSample_perform (es : List BusEvent) (s : State) : (perform es s).nextSample = s.nextSample := rfl

theorem takeSample_perform (es : List BusEvent) (s : State) :
    takeSample (perform es s) = perform es (takeSample s) := rfl

@[simp] theorem samplesAhead_perform (n : Nat) (es : List BusEvent) (s : State) :
    samplesAhead n (perform es s) = samplesAhead n s := by
  induction n generalizing s with
  | zero => rfl
  | succ n ih => simp [samplesAhead, takeSample_perform, ih]

theorem takeSamples_perform (n : Nat) (es : List BusEvent) (s : State) :
    takeSamples n (perform es s) = perform es (takeSamples n s) := by
  simp [takeSamples_eq, perform]

/-- What the environment has given is what is sampled, first byte first. -/
theorem samplesAhead_of_eepIn {bs rest : List Byte} {s : State} (h : s.eepIn = bs ++ rest) :
    samplesAhead bs.length s = bs := by
  induction bs generalizing s with
  | nil => rfl
  | cons b bs ih =>
    have h1 : s.nextSample = b := by simp [State.nextSample, h]
    have h2 : (takeSample s).eepIn = bs ++ rest := by simp [h]
    simp [samplesAhead, h1, ih h2]

/-! ### Sequences of cycles -/

/-- Read cycles under their precondition: the samples, the trace, and nothing else. -/
theorem readCycles_ok {n : Nat} {a : Word} {s : State} (h : readReady s.bus = true) :
    readCycles n a s = .ok (samplesAhead n s, perform (readTrace s.params a (samplesAhead n s)) (takeSamples n s)) := by
  induction n generalizing a s with
  | zero => simp [readCycles, samplesAhead, readTrace, takeSamples, perform]
  | succ n ih =>
    have h2 : readReady (perform (readCycle s.params a s.nextSample) (takeSample s)).bus = true := by
      simpa using readReady_after_readCycle h
    rw [readCycles, readByteAt_ok h]
    simp only [ih h2, samplesAhead_perform, takeSamples_perform, perform_append]
    rfl

/-- Write cycles under their precondition: the trace, and nothing else. -/
theorem writeCycles_ok {cs : List (Word × Byte)} {s : State} (h : writeReady s.bus = true) :
    writeCycles cs s = .ok (perform (writeTrace s.params cs) s) := by
  induction cs generalizing s with
  | nil => simp [writeCycles, writeTrace, perform]
  | cons c cs ih =>
    obtain ⟨a, v⟩ := c
    have h2 : writeReady (perform (writeCycle s.params a v) s).bus = true := by
      simpa using writeReady_after_writeCycle h
    rw [writeCycles, writeByteAt_ok h]
    simp only [ih h2, perform_append]
    rfl

/-- The bus registers after read cycles: the last address stays, CE ends deasserted. -/
theorem readTrace_bus (p : Params) (bits : Nat) (a : Word) (bs : List Byte) (b : BusRegs) (hc : b.ce = false) (ht : b.timer = .idle) :
    (readTrace p a bs).foldl (applyEvent bits) b =
      { b with addr := if bs = [] then b.addr else chipaddr bits (a + BitVec.ofNat 16 (bs.length - 1)) } := by
  induction bs generalizing a b with
  | nil => rfl
  | cons v bs ih =>
    rw [readTrace, List.foldl_append, readCycle_bus, ih _ _ rfl rfl]
    cases bs with
    | nil => simp [← hc, ← ht]
    | cons w bs =>
      have e : a + 1#16 + BitVec.ofNat 16 bs.length = a + BitVec.ofNat 16 (bs.length + 1) := by
        apply BitVec.eq_of_toNat_eq
        simp [Nat.add_assoc, Nat.add_comm 1]
      simp [← hc, ← ht, e]

/-- The bus registers after write cycles: the last address and byte stay, CE and WE end deasserted. -/
theorem writeTrace_bus (p : Params) (bits : Nat) (cs : List (Word × Byte)) (b : BusRegs) (hc : b.ce = false) (hw : b.we = false)
    (ht : b.timer = .idle) :
    (writeTrace p cs).foldl (applyEvent bits) b =
      match cs.getLast? with
      | none => b
      | some (a, v) => { b with addr := chipaddr bits a, dout := v } := by
  induction cs generalizing b with
  | nil => rfl
  | cons c cs ih =>
    obtain ⟨a, v⟩ := c
    obtain ⟨ce, oe, we, dir, addr, dout, timer⟩ := b
    subst hc hw ht
    rw [writeTrace, List.foldl_append, writeCycle_bus, ih _ rfl rfl rfl]
    cases cs with
    | nil => rfl
    | cons d cs =>
      rw [List.getLast?_cons_cons]
      cases h : (d :: cs).getLast? with
      | none => simp at h
      | some p => rfl

/-! ### Addresses -/

/-- What reaches the pins is a chip address (20_memory.md R70, R71). -/
theorem chipaddr_lt (bits : Nat) (v : Word) : (chipaddr bits v).toNat < 2 ^ bits := by
  rw [chipaddr, BitVec.toNat_ofNat]
  exact Nat.lt_of_le_of_lt (Nat.mod_le _ _) (Nat.mod_lt _ (Nat.two_pow_pos bits))

theorem chipaddr_toNat {bits : Nat} (h : bits ≤ 16) (v : Word) : (chipaddr bits v).toNat = v.toNat % 2 ^ bits := by
  rw [chipaddr, BitVec.toNat_ofNat]
  exact Nat.mod_eq_of_lt (Nat.lt_of_lt_of_le (Nat.mod_lt _ (Nat.two_pow_pos bits)) (Nat.pow_le_pow_right (by decide) h))

/-- The address register keeps no bit from `ADDR_BITS` on (10_state.md R43). -/
theorem applyEvent_addr_lt {bits : Nat} {b : BusRegs} (h : b.addr.toNat < 2 ^ bits) (e : BusEvent) :
    (applyEvent bits b e).addr.toNat < 2 ^ bits := by
  cases e with
  | setAddr a => exact chipaddr_lt bits a
  | assertLine l => cases l <;> exact h
  | deassertLine l => cases l <;> exact h
  | setDir d => exact h
  | drive v => exact h
  | wait t => exact h
  | sample v => exact h

theorem foldl_addr_lt {bits : Nat} {b : BusRegs} (h : b.addr.toNat < 2 ^ bits) (es : List BusEvent) :
    (es.foldl (applyEvent bits) b).addr.toNat < 2 ^ bits := by
  induction es generalizing b with
  | nil => exact h
  | cons e es ih => exact ih (applyEvent_addr_lt h e)

/-- Every write cycle goes to a chip address. -/
theorem writesOf_addr_lt {bits : Nat} {b : BusRegs} (h : b.addr.toNat < 2 ^ bits) (es : List BusEvent) :
    ∀ w ∈ writesOf bits b es, w.1.toNat < 2 ^ bits := by
  induction es generalizing b with
  | nil => simp [writesOf]
  | cons e es ih =>
    have h2 := ih (applyEvent_addr_lt h e)
    rw [writesOf]
    split
    · intro w hw
      rcases List.mem_cons.mp hw with rfl | hw
      · exact h
      · exact h2 w hw
    · exact h2

/-! ### Chip operations -/

/-- bulkRead from quiet lines (R190, R202). -/
theorem bulkRead_ok {a : Word} {n : Nat} {s : State} (h : s.bus.quiet) :
    bulkRead a n s =
      .ok (samplesAhead n s, perform (bulkReadTrace s.params a (samplesAhead n s)) (takeSamples n s)) := by
  have h2 : readReady (perform ([.setDir .input] ++ [.assertLine .oe]) s).bus = true := by
    simp [readReady, perform, applyEvent, BusRegs.setLine, h.1, h.2.2]
  simp only [bulkRead, setDataLinesDirection_ok (dirReady_of_quiet h), readCycles_ok h2, samplesAhead_perform,
    takeSamples_perform, perform_append]
  rfl

/-- One SetDir(Output) and write cycles from quiet lines (R191, R192, R197, R202). -/
theorem outputCycles_ok {cs : List (Word × Byte)} {s : State} (h : s.bus.quiet) :
    outputCycles cs s = .ok (perform (outputTrace s.params cs) s) := by
  have h2 : writeReady (perform [.setDir .output] s).bus = true := by
    simp [writeReady, perform, applyEvent, h.1, h.2.1, h.2.2]
  simp only [outputCycles, setDataLinesDirection_ok (dirReady_of_quiet h), writeCycles_ok h2, perform_append]
  rfl

theorem quiet_bulkReadTrace {p : Params} {bits : Nat} {a : Word} {bs : List Byte} {b : BusRegs} (h : b.quiet) :
    ((bulkReadTrace p a bs).foldl (applyEvent bits) b).quiet := by
  have e := readTrace_bus p bits a bs { b with dir := .input, oe := true, timer := .idle } h.1 rfl
  have f : (bulkReadTrace p a bs).foldl (applyEvent bits) b =
      applyEvent bits ((readTrace p a bs).foldl (applyEvent bits) { b with dir := .input, oe := true, timer := .idle })
        (.deassertLine .oe) := by
    simp [bulkReadTrace, List.foldl_append, applyEvent, BusRegs.setLine]
  rw [f, e]
  exact ⟨h.1, rfl, h.2.2⟩

theorem quiet_outputTrace {p : Params} {bits : Nat} {cs : List (Word × Byte)} {b : BusRegs} (h : b.quiet) :
    ((outputTrace p cs).foldl (applyEvent bits) b).quiet := by
  have e := writeTrace_bus p bits cs { b with dir := .output, timer := .idle } h.1 h.2.2 rfl
  have f : (outputTrace p cs).foldl (applyEvent bits) b =
      (writeTrace p cs).foldl (applyEvent bits) { b with dir := .output, timer := .idle } := by
    simp [outputTrace, applyEvent]
  rw [f, e]
  cases cs.getLast? with
  | none => exact h
  | some p => exact h

/-- The read of byte 0 that starts an SDP sequence, from quiet lines (R192, R193). -/
theorem saveByteZero_ok {s : State} (h : s.bus.quiet) :
    saveByteZero s =
      .ok { perform (bulkReadTrace s.params s.params.sdpRestoreAddr [s.nextSample]) (takeSample s) with
        sdpSaved := s.nextSample } := by
  simp only [saveByteZero, bulkRead_ok h]
  rfl

/-- setSoftwareDataProtection from quiet lines (R192, R193): the read, the sequence, the trailing write of the byte read. -/
theorem setSoftwareDataProtection_ok {e : Bool} {s : State} (h : s.bus.quiet) :
    setSoftwareDataProtection e s =
      .ok { perform (bulkReadTrace s.params s.params.sdpRestoreAddr [s.nextSample] ++
              outputTrace s.params (sdpCycles s.params e ++ [(s.params.sdpRestoreAddr, s.nextSample)])) (takeSample s) with
        sdpSaved := s.nextSample } := by
  simp only [setSoftwareDataProtection, saveByteZero_ok h]
  rw [outputCycles_ok]
  · simp [perform]
  · exact quiet_bulkReadTrace (b := s.bus) h

/-- bulkWrite from quiet lines (R191, R202). -/
theorem bulkWrite_ok {a : Word} {bs : List Byte} {s : State} (h : s.bus.quiet) :
    bulkWrite a bs s = .ok (perform (outputTrace s.params (consecutive a bs)) s) :=
  outputCycles_ok h

/-- eraseChip from quiet lines (R197, R202). -/
theorem eraseChip_ok {s : State} (h : s.bus.quiet) :
    eraseChip s = .ok (perform (outputTrace s.params (eraseCycles s.params)) s) :=
  outputCycles_ok h

/-- programPageBuffer from quiet lines (R200, R202). -/
theorem programPageBuffer_ok {s : State} (h : s.bus.quiet) :
    programPageBuffer s =
      .ok (perform (outputTrace s.params (consecutive s.base s.page) ++ [.wait s.params.tPageMin]) s) := by
  simp only [programPageBuffer, bulkWrite_ok h, perform_params, perform_append]

/-! ### No operation breaks a precondition, and each ends with the lines deasserted (R202)

The preparations of a page buffer (R198, R199) call no primitive and leave the bus as it is. -/

theorem bulkRead_ends_quiet {a : Word} {n : Nat} {s : State} (h : s.bus.quiet) :
    ∃ bs t, bulkRead a n s = .ok (bs, t) ∧ t.bus.quiet :=
  ⟨_, _, bulkRead_ok h, quiet_bulkReadTrace (b := (takeSamples n s).bus) (by rwa [takeSamples_bus])⟩

theorem bulkWrite_ends_quiet {a : Word} {bs : List Byte} {s : State} (h : s.bus.quiet) :
    ∃ t, bulkWrite a bs s = .ok t ∧ t.bus.quiet :=
  ⟨_, bulkWrite_ok h, quiet_outputTrace (b := s.bus) h⟩

theorem eraseChip_ends_quiet {s : State} (h : s.bus.quiet) : ∃ t, eraseChip s = .ok t ∧ t.bus.quiet :=
  ⟨_, eraseChip_ok h, quiet_outputTrace (b := s.bus) h⟩

theorem setSoftwareDataProtection_ends_quiet {e : Bool} {s : State} (h : s.bus.quiet) :
    ∃ t, setSoftwareDataProtection e s = .ok t ∧ t.bus.quiet := by
  refine ⟨_, setSoftwareDataProtection_ok h, ?_⟩
  simp only [perform, List.foldl_append]
  exact quiet_outputTrace (quiet_bulkReadTrace (b := s.bus) h)

theorem programPageBuffer_ends_quiet {s : State} (h : s.bus.quiet) : ∃ t, programPageBuffer s = .ok t ∧ t.bus.quiet := by
  refine ⟨_, programPageBuffer_ok h, ?_⟩
  simp only [perform, List.foldl_append]
  exact quiet_outputTrace (b := s.bus) h

end Sys2Proof.Machine
end

