-- ==== Sys2Proof/Laws/ChipMemory.lean ====
section
/-!
SUPPORT. The ideal chip's memory: a store keeps the canonical form, is read back, and leaves every other byte alone.
-/

namespace Sys2Proof.Machine

theorem wfFrom_mono {bits lo lo' : Nat} {m : ChipMemory} (h : wfFrom bits lo m = true) (hl : lo' ≤ lo) : wfFrom bits lo' m = true := by
  cases m with
  | nil => rfl
  | cons c m =>
    obtain ⟨k, v⟩ := c
    simp only [wfFrom, Bool.and_eq_true, decide_eq_true_eq] at h ⊢
    exact ⟨⟨⟨by omega, h.1.1.2⟩, h.1.2⟩, h.2⟩

/-- Below the first listed address a canonical memory reads as erased. -/
theorem readCell_below {bits lo a : Nat} {m : ChipMemory} (h : wfFrom bits lo m = true) (ha : a < lo) :
    readCell m a = chipErased := by
  induction m generalizing lo with
  | nil => rfl
  | cons c m ih =>
    obtain ⟨k, v⟩ := c
    simp only [wfFrom, Bool.and_eq_true, decide_eq_true_eq] at h
    have hk : ¬k = a := by omega
    rw [readCell, if_neg hk]
    exact ih h.2 (by omega)

theorem wfFrom_consCell {bits lo a : Nat} {v : Byte} {m : ChipMemory} (h : wfFrom bits (a + 1) m = true) (hl : lo ≤ a)
    (ha : a < 2 ^ bits) : wfFrom bits lo (consCell a v m) = true := by
  unfold consCell
  split
  · exact wfFrom_mono h (by omega)
  · next hv =>
    simp only [wfFrom, Bool.and_eq_true, decide_eq_true_eq, bne_iff_ne]
    exact ⟨⟨⟨hl, ha⟩, hv⟩, h⟩

theorem readCell_consCell {bits a : Nat} {v : Byte} {m : ChipMemory} (h : wfFrom bits (a + 1) m = true) (b : Nat) :
    readCell (consCell a v m) b = if a = b then v else readCell m b := by
  unfold consCell
  split
  · next hv =>
    split
    · next hb => rw [readCell_below h (by omega), hv]
    · rfl
  · rfl

/-- A store keeps the canonical form. -/
theorem wfFrom_writeCell {bits lo a : Nat} {v : Byte} {m : ChipMemory} (h : wfFrom bits lo m = true) (hl : lo ≤ a)
    (ha : a < 2 ^ bits) : wfFrom bits lo (writeCell m a v) = true := by
  induction m generalizing lo with
  | nil => exact wfFrom_consCell rfl hl ha
  | cons c m ih =>
    obtain ⟨k, w⟩ := c
    have h0 := h
    simp only [wfFrom, Bool.and_eq_true, decide_eq_true_eq] at h
    rw [writeCell]
    split
    · next hk =>
      refine wfFrom_consCell ?_ hl ha
      simp only [wfFrom, Bool.and_eq_true, decide_eq_true_eq]
      exact ⟨⟨⟨by omega, h.1.1.2⟩, h.1.2⟩, h.2⟩
    · split
      · next hk => exact wfFrom_consCell (hk ▸ h.2) hl ha
      · next h1 h2 =>
        simp only [wfFrom, Bool.and_eq_true, decide_eq_true_eq]
        exact ⟨h.1, ih h.2 (by omega)⟩

/-- A store keeps the canonical form of the whole memory. -/
theorem wf_writeCell {bits : Nat} {m : ChipMemory} (h : m.wf bits = true) {a : ChipAddr} (ha : a.toNat < 2 ^ bits)
    (v : Byte) : ChipMemory.wf bits (writeCell m a.toNat v) = true :=
  wfFrom_writeCell h (Nat.zero_le _) ha

/-- Reading after a store: the byte stored there, every other byte as before. -/
theorem readCell_writeCell {bits lo : Nat} {m : ChipMemory} (h : wfFrom bits lo m = true) (a : Nat) (v : Byte) (b : Nat) :
    readCell (writeCell m a v) b = if a = b then v else readCell m b := by
  induction m generalizing lo with
  | nil => exact readCell_consCell (bits := bits) rfl b
  | cons c m ih =>
    obtain ⟨k, w⟩ := c
    have h0 := h
    simp only [wfFrom, Bool.and_eq_true, decide_eq_true_eq] at h
    rw [writeCell]
    split
    · next hk =>
      refine readCell_consCell (bits := bits) ?_ b
      simp only [wfFrom, Bool.and_eq_true, decide_eq_true_eq]
      exact ⟨⟨⟨by omega, h.1.1.2⟩, h.1.2⟩, h.2⟩
    · split
      · next hk =>
        subst hk
        rw [readCell_consCell h.2 b, readCell]
        split <;> rfl
      · next h1 h2 =>
        rw [readCell, readCell]
        by_cases hb : k = b
        · rw [if_pos hb, if_pos hb, if_neg (by omega)]
        · rw [if_neg hb, if_neg hb]
          exact ih h.2

/-- Many stores at chip addresses keep the canonical form. -/
theorem wf_storeAll {bits : Nat} {m : ChipMemory} (h : m.wf bits = true) (ws : List (ChipAddr × Byte))
    (ha : ∀ w ∈ ws, w.1.toNat < 2 ^ bits) : ChipMemory.wf bits (storeAll m ws) = true := by
  induction ws generalizing m with
  | nil => exact h
  | cons w ws ih =>
    obtain ⟨a, v⟩ := w
    exact ih (wf_writeCell h (ha _ List.mem_cons_self) v) fun w hw => ha w (List.mem_cons_of_mem _ hw)

/-- Whatever a command writes at chip addresses, the ideal chip's memory stays canonical. -/
theorem wf_chipAfter {bits : Nat} {m : ChipMemory} (h : m.wf bits = true) (i : Instr) {ws : List (ChipAddr × Byte)}
    (ha : ∀ w ∈ ws, w.1.toNat < 2 ^ bits) : ChipMemory.wf bits (chipAfter i ws m) = true := by
  have hd : ∀ w ∈ ws.drop (ws.length - 1), w.1.toNat < 2 ^ bits := fun w hw => ha w (List.mem_of_mem_drop hw)
  cases i <;> first | exact wf_storeAll h _ ha | exact wf_storeAll h _ hd | rfl

/-! ### The page-load window -/

/-- A page with no gap longer than the window is one load (00_scope.md R10, 70_reset_and_hazards.md R344). -/
theorem pageLoads_within {p : Params} (ws : List (Nat × ChipAddr × Byte)) (hne : ws ≠ [])
    (h : ∀ w ∈ ws.tail, w.1 ≤ p.tLoadMax) : pageLoads p ws = [ws.map Prod.snd] := by
  induction ws with
  | nil => exact absurd rfl hne
  | cons w ws ih =>
    cases ws with
    | nil => rfl
    | cons w2 ws =>
      obtain ⟨g, x⟩ := w
      obtain ⟨g2, y⟩ := w2
      have h2 : g2 ≤ p.tLoadMax := h (g2, y) List.mem_cons_self
      rw [pageLoads, ih (by simp) fun w hw => h w (List.mem_cons_of_mem _ hw)]
      simp [h2]

/-- No write is lost or moved: the loads, one after the other, are the writes in order. -/
theorem pageLoads_flatten (p : Params) (ws : List (Nat × ChipAddr × Byte)) :
    (pageLoads p ws).flatten = ws.map Prod.snd := by
  induction ws with
  | nil => rfl
  | cons w ws ih =>
    cases ws with
    | nil => rfl
    | cons w2 ws =>
      obtain ⟨g, x⟩ := w
      obtain ⟨g2, y⟩ := w2
      rw [pageLoads, List.map_cons, ← ih]
      split
      · next e => rw [e]; rfl
      · next e => rw [e]; split <;> simp

end Sys2Proof.Machine
end

