-- ==== Sys2Proof/Laws/PerInstr.lean ====
section
/-!
SUPPORT. Facts about every instruction as syntax, one lemma per constructor. `EncodedLine`: the encoding of a well-formed instruction is
a line the block can store (30_encoding.md R101, R104): it fits, no control byte.
-/

namespace Sys2Proof.Laws

open Sys2Proof.Machine

/-! ### Hex text -/

/-- A lowercase digit is storable, is neither separator nor comma, and reads back as its value (40_codec.md R140, R142). -/
theorem digitLower_facts : ∀ d : Nibble,
    storable (digitLower d) = true ∧ digitLower d ≠ colon ∧ digitLower d ≠ comma ∧ hexval (digitLower d) = d := by
  decide

@[simp] theorem hex2_length (b : Byte) : (hex2 b).length = 2 := rfl

@[simp] theorem hex4_length (v : Word) : (hex4 v).length = 4 := rfl

@[simp] theorem flatMap_hex2_length (bs : List Byte) : (bs.flatMap hex2).length = 2 * bs.length := by
  induction bs with
  | nil => rfl
  | cons b bs ih => simp only [List.flatMap_cons, List.length_append, ih, hex2_length, List.length_cons]; omega

theorem hex2_storable (b : Byte) : ∀ c ∈ hex2 b, storable c = true := by
  intro c hc
  simp only [hex2, List.mem_cons, List.not_mem_nil, or_false] at hc
  rcases hc with rfl | rfl
  · exact (digitLower_facts _).1
  · exact (digitLower_facts _).1

theorem hex4_storable (v : Word) : ∀ c ∈ hex4 v, storable c = true := by
  intro c hc
  rcases List.mem_append.mp hc with h | h
  · exact hex2_storable _ c h
  · exact hex2_storable _ c h

/-- The two digits of a byte read back as the byte (40_codec.md R142, R145). -/
theorem pair_hex2 (b : Byte) : pair (digitLower (highNibble b)) (digitLower (lowNibble b)) = b := by
  rw [pair, (digitLower_facts _).2.2.2, (digitLower_facts _).2.2.2]
  revert b
  decide

/-! ### Operand fields -/

theorem encodeAddr_line (arg : AddrOperand) :
    (encodeAddr arg).length ≤ 4 ∧ ∀ c ∈ encodeAddr arg, storable c = true := by
  cases arg with
  | missing => simp [encodeAddr]
  | value a => exact ⟨Nat.le_refl 4, hex4_storable a⟩

theorem encodeChecksum_line (given : Option Byte) :
    (encodeChecksum given).length ≤ 3 ∧ ∀ c ∈ encodeChecksum given, storable c = true := by
  cases given with
  | none => simp [encodeChecksum]
  | some v =>
    refine ⟨Nat.le_refl 3, ?_⟩
    intro c hc
    rcases List.mem_cons.mp hc with rfl | h
    · decide
    · exact hex2_storable v c h

theorem encodePayload_line {p : Params} (arg : PayloadOperand) (h : arg.wellFormed p = true) :
    (encodePayload arg).length ≤ 8 + 2 * p.xferCap ∧ ∀ c ∈ encodePayload arg, storable c = true := by
  cases arg with
  | noAddress => simp [encodePayload]
  | noSeparator =>
    refine ⟨?_, hex4_storable 0⟩
    rw [encodePayload, hex4_length]
    omega
  | fields a data given =>
    have hd : data.length ≤ p.xferCap := by simpa [PayloadOperand.wellFormed] using h
    have hg := encodeChecksum_line given
    constructor
    · simp only [encodePayload, List.length_append, hex4_length, List.length_cons, flatMap_hex2_length]
      omega
    · intro c hc
      simp only [encodePayload, List.mem_append, List.mem_cons, List.mem_flatMap] at hc
      rcases hc with h4 | rfl | ⟨b, -, hb⟩ | hk
      · exact hex4_storable a c h4
      · decide
      · exact hex2_storable b c hb
      · exact hg.2 c hk

/-- A tag byte in front of storable bytes. -/
theorem cons_line {tag : Byte} {cs : List Byte} {n : Nat} (ht : storable tag = true)
    (h : cs.length ≤ n ∧ ∀ c ∈ cs, storable c = true) :
    (tag :: cs).length ≤ n + 1 ∧ ∀ c ∈ tag :: cs, storable c = true :=
  ⟨Nat.succ_le_succ h.1, fun c hc => (List.mem_cons.mp hc).elim (fun e => e ▸ ht) (h.2 c)⟩

namespace EncodedLine

/-- The longest well-formed line has `1 + ADDR_DIGITS + 1 + 2*XFER_CAP + 3` bytes (00_scope.md R11, 30_encoding.md R104). -/
def Statement (i : Instr) : Prop :=
  ∀ p : Params, wellFormed p i = true →
    (encode i).length ≤ 1 + Config.addrDigits + 1 + 2 * p.xferCap + 3 ∧ ∀ c ∈ encode i, storable c = true

/-- A line of at most eight bytes is short enough for every `XFER_CAP`. -/
theorem short {cs : List Byte} (p : Params) (h : cs.length ≤ 8 ∧ ∀ c ∈ cs, storable c = true) :
    cs.length ≤ 1 + Config.addrDigits + 1 + 2 * p.xferCap + 3 ∧ ∀ c ∈ cs, storable c = true :=
  ⟨by have := h.1; simp only [Config.addrDigits]; omega, h.2⟩

/-- A tag and a payload. -/
theorem payload {p : Params} {tag : Byte} {arg : PayloadOperand} (ht : storable tag = true) (h : arg.wellFormed p = true) :
    (tag :: encodePayload arg).length ≤ 1 + Config.addrDigits + 1 + 2 * p.xferCap + 3 ∧
      ∀ c ∈ tag :: encodePayload arg, storable c = true :=
  have e := cons_line ht (encodePayload_line arg h)
  ⟨by have := e.1; simp only [Config.addrDigits]; omega, e.2⟩

theorem version : Statement .version := fun p _ => short p (by decide)

theorem protect : Statement .protect := fun p _ => short p (by decide)

theorem unprotect : Statement .unprotect := fun p _ => short p (by decide)

theorem read (arg : AddrOperand) : Statement (.read arg) := fun p _ =>
  have h := cons_line (tag := 0x52) (by decide) (encodeAddr_line arg)
  short p ⟨Nat.le_trans h.1 (by decide), h.2⟩

theorem write (arg : PayloadOperand) : Statement (.write arg) := fun _ hw => payload (by decide) hw

theorem erase : Statement .erase := fun p _ => short p (by decide)

theorem prepare (arg : AddrOperand) : Statement (.prepare arg) := fun p _ =>
  have h := cons_line (tag := 0x4E) (by decide) (encodeAddr_line arg)
  short p ⟨Nat.le_trans h.1 (by decide), h.2⟩

theorem fill (arg : PayloadOperand) : Statement (.fill arg) := fun _ hw => payload (by decide) hw

theorem program : Statement .program := fun p _ => short p (by decide)

theorem help : Statement .help := fun p _ => short p (by decide)

theorem empty : Statement .empty := fun p _ => short p (by decide)

theorem unrecognized (tag : Byte) : Statement (.unrecognized tag) := fun p hw => by
  simp only [wellFormed, Bool.and_eq_true] at hw
  have h := cons_line (tag := tag) (cs := []) (n := 0) hw.1 (by simp)
  exact short p ⟨Nat.le_trans h.1 (by decide), h.2⟩

end EncodedLine

end Sys2Proof.Laws
end

