-- ==== Sys2Proof/Laws/Protocol.lean ====
section
/-!
SUPPORT. What replies, reception and one step of the protocol do, once each (43_protocol.md). Later proofs cite these and unfold nothing.
-/

namespace Sys2Proof.Machine

/-! ### Replies -/

theorem emit_eq (l : List Byte) (s : State) : emit l s = { s with reply := s.replied [l] } := by
  simp [emit, State.replied]

theorem raise_eq (e : ErrorKind) (s : State) : raise e s = { s with reply := s.replied [errorLine s.params e] } :=
  emit_eq _ _

theorem emitAll_eq (ls : List (List Byte)) (s : State) : emitAll ls s = { s with reply := s.replied ls } := by
  induction ls generalizing s with
  | nil => simp [emitAll, finish, State.replied]
  | cons l ls ih => rw [emitAll, ih, emit_eq]; simp [State.replied, State.replyBytes]

/-- Every error line starts with `ERR` (60_exceptions.md R291). -/
theorem errorLine_starts {p : Params} (h : p.ok) (e : ErrorKind) : (errorLine p e).take 3 = Config.errText := by
  cases e with
  | lineOverflow => rfl
  | unrecognized => exact h.2.2.2.2.2.2.2.2.2.2.1
  | malformed => rfl
  | checksumMismatch g c => rfl

/-! ### Reception -/

theorem storable_iff (b : Byte) : storable b = true ↔ Config.ctrlMax < b := by simp [storable]

theorem receive_lf (s : State) : receive 0x0A s = { s with fsm := .dispatching } := by simp [receive]

/-- A discarded control byte changes nothing (R224). -/
theorem receive_control {b : Byte} (h : b ≠ Config.lineTerm) (hs : storable b = false) (s : State) : receive b s = s := by
  rw [receive, if_neg h, if_neg (by simp [hs])]

/-- A storable byte that fits is appended (R224). -/
theorem receive_storable {b : Byte} (h : storable b = true) {s : State} (hl : s.len < s.params.lineCap) :
    receive b s = { s with line := putByte s.line s.len b, len := s.len + 1 } := by
  have hb : b ≠ Config.lineTerm := by rintro rfl; simp [storable] at h
  rw [receive, if_neg hb, if_pos h, if_neg (by simpa [lineFull] using hl)]

/-- A storable byte that does not fit sets `ovf` (R224, R225). -/
theorem receive_overflow {b : Byte} (h : storable b = true) {s : State} (hl : ¬s.len < s.params.lineCap) :
    receive b s = { s with ovf := true } := by
  have hb : b ≠ Config.lineTerm := by rintro rfl; simp [storable] at h
  rw [receive, if_neg hb, if_pos h, if_pos (by simpa [lineFull] using hl)]

theorem receive_lineBytes {b : Byte} (h : storable b = true) {s : State} (hl : s.len < s.params.lineCap)
    (hc : s.line.length = s.params.lineCap) : (receive b s).lineBytes = s.lineBytes ++ [b] := by
  rw [receive_storable h hl]
  exact take_putByte b (by omega)

/-! ### One step -/

theorem step_awaiting {s : State} (h : s.fsm = .awaitingLine) (hr : s.rst = none) : step s = .next (takeByte s) := by
  simp [step, protocolStep, hr, blockStep, h]

theorem step_dispatch {s : State} (h : s.fsm = .dispatching) (hp : s.reply = none) (hr : s.rst = none) :
    step s = dispatch s := by
  simp [step, protocolStep, hr, blockStep, h, hp]

theorem step_reply {s : State} {left : List Byte} (h : s.fsm = .dispatching) (hp : s.reply = some left)
    (hr : s.rst = none) : step s = .next (sendReply left s) := by
  simp [step, protocolStep, hr, blockStep, h, hp]

theorem step_reset {s : State} (hr : s.rst = some 0) : step s = .next (resetBlock s) := by
  simp [step, protocolStep, hr]

theorem step_cut {s : State} {k : Nat} (hr : s.rst = some (k + 1)) : step s = cutStep (k + 1) s (blockStep s) := by
  simp [step, protocolStep, hr]

/-! ### Runs -/

theorem coreRun_succ (M : Host.Core) {s t : M.State} (h : M.step s = .next t) (n : Nat) : M.run (n + 1) s = M.run n t := by
  simp [Host.Core.run, h]

theorem coreRun_add (M : Host.Core) {m : Nat} {s t : M.State} (h : M.run m s = .next t) (n : Nat) :
    M.run (m + n) s = M.run n t := by
  induction m generalizing s with
  | zero =>
    cases h
    rw [Nat.zero_add]
  | succ m ih =>
    rw [Nat.add_right_comm]
    cases hs : M.step s with
    | next u =>
      rw [coreRun_succ M hs] at h ⊢
      exact ih h
    | fault f => simp [Host.Core.run, hs] at h
    | refused r => simp [Host.Core.run, hs] at h

/-- A run of `n + 1` steps whose first step goes on. -/
theorem run_succ {s t : State} (h : step s = .next t) (n : Nat) :
    Sys2Proof.core.run (n + 1) s = Sys2Proof.core.run n t :=
  coreRun_succ Sys2Proof.core h n

/-- Two runs in a row are one run. -/
theorem run_add {s t : State} {m : Nat} (h : Sys2Proof.core.run m s = .next t) (n : Nat) :
    Sys2Proof.core.run (m + n) s = Sys2Proof.core.run n t :=
  coreRun_add Sys2Proof.core h n

end Sys2Proof.Machine
end

