-- ==== Sys2Proof/Tests/Slice0.lean ====
section
/-!
SUPPORT. Tests. Lines, replies and traces are copied from 95_test_vectors.md or worked from the rules named; every test is one step
or one operation. The second half gives, for each obligation with hypotheses, a state and operands that meet them all.
-/

namespace Sys2Proof.Tests

open Sys2Proof Sys2Proof.Machine

/-! ### Helpers -/

/-- The bytes of a text. -/
def ascii (text : String) : List Byte := text.toList.map fun c => BitVec.ofNat 8 c.toNat

/-- The start state of 95_test_vectors.md 2.5: `page` all 0x5A, `base = 0`; the chip drives `bytes` at its next reads. -/
def start (bytes : List Byte) : State :=
  { State.reset with page := List.replicate 128 0x5A, base := 0, eepIn := bytes }

/-- `start`, dispatching a line. -/
def holding (text : String) (bytes : List Byte) : State := lineReceived (ascii text ++ [0x0A]) (start bytes)

/-- A view of the state after a step that goes on. -/
def view {α : Type} (f : State → α) : Result → Option α
  | .next t => some (f t)
  | .fault _ => none
  | .refused _ => none

/-- Reply text, read cycles and write cycles of the step that dispatches a line. -/
def answers (text : String) (bytes : List Byte) (reply : String) (reads writes : Nat) : Bool :=
  view (fun t => (t.replyBytes, (newPins (start bytes) t).countP fun e => isSample (.pin e),
      (writesOf 15 BusRegs.reset (newPins (start bytes) t)).length))
    (step (holding text bytes)) = some (ascii reply, reads, writes)

/-- Sixteen bytes of an erased chip. -/
def erased16 : List Byte := List.replicate 16 0xFF

/-- Sixteen different bytes. -/
def written16 : List Byte := (List.range 16).map (BitVec.ofNat 8 ·)

/-! ### Parameters (00_scope.md R11) -/

theorem test_parameter_constraints : Config.params.ok ∧ Config.parseBits = 4 * Config.addrDigits :=
  ⟨⟨by decide, by decide, by decide, ⟨7, by decide, rfl⟩, by decide, by decide, by decide, by decide, by decide,
    List.cons_ne_nil _ _, by decide, by decide, by decide, by decide, by decide⟩, rfl⟩

theorem params_ok : Config.params.ok := test_parameter_constraints.1

/-- An unrecognized reply of two lines is excluded (60_exceptions.md R291). -/
theorem test_unrecognized_reply_is_one_line :
    ¬({ Config.params with unrecognizedReply := ascii "ERR\nOK" } : Params).oneLine (ascii "ERR\nOK") ∧
    Config.params.oneLine (ascii "ERR unknown command") := by decide

/-! ### WellFormed refuses ill-formed terms -/

theorem test_wellFormed_refuses_write_of_17_bytes :
    wellFormed Config.params (.write (.fields 0 (List.replicate 17 0) none)) = false := by decide

theorem test_wellFormed_refuses_fill_of_17_bytes :
    wellFormed Config.params (.fill (.fields 0 (List.replicate 17 0) (some 0))) = false := by decide

theorem test_wellFormed_refuses_unrecognized_tag_V : wellFormed Config.params (.unrecognized 0x56) = false := by decide

theorem test_wellFormed_refuses_unrecognized_control_byte : wellFormed Config.params (.unrecognized 0x1F) = false := by decide

theorem test_wellFormed_accepts_limits :
    wellFormed Config.params (.write (.fields 0xFFFF (List.replicate 16 0) none)) = true ∧
    wellFormed Config.params (.unrecognized 0x20) = true ∧ wellFormed Config.params (.unrecognized 0xFF) = true := by decide

/-! ### Decoding: one written-out word for every constructor (30_encoding.md R103 to R113) -/

theorem test_decode_version : decodeTableWord 8 0x56 = some .version := by decide
theorem test_decode_protect : decodeTableWord 8 0x50 = some .protect := by decide
theorem test_decode_unprotect : decodeTableWord 8 0x55 = some .unprotect := by decide
theorem test_decode_erase : decodeTableWord 8 0x42 = some .erase := by decide
theorem test_decode_program : decodeTableWord 8 0x54 = some .program := by decide
theorem test_decode_help : decodeTableWord 8 0x3F = some .help := by decide
theorem test_decode_empty : decodeTableWord 0 0 = some .empty := by decide
theorem test_decode_unrecognized : decodeTableWord 8 0x5A = some (.unrecognized 0x5A) := by decide

/-- `R1a2B`: the first byte of the line is the lowest byte of the word (S1). -/
theorem test_decode_read : decodeTableWord 40 0x4232613152 = some (.read (.value 0x1A2B)) := by decide

theorem test_decode_read_missing : decodeTableWord 8 0x52 = some (.read .missing) := by decide

/-- `N0080`. -/
theorem test_decode_prepare : decode Config.params [0x4E, 0x30, 0x30, 0x38, 0x30, 0x0A] = .ok (.prepare (.value 0x0080), []) := by
  decide

/-- `W0000:AA,BB`. -/
theorem test_decode_write :
    decode Config.params [0x57, 0x30, 0x30, 0x30, 0x30, 0x3A, 0x41, 0x41, 0x2C, 0x42, 0x42, 0x0A] =
      .ok (.write (.fields 0 [0xAA] (some 0xBB)), []) := by decide

/-- `S0010:2233,11` (Program 2). -/
theorem test_decode_fill :
    decode Config.params [0x53, 0x30, 0x30, 0x31, 0x30, 0x3A, 0x32, 0x32, 0x33, 0x33, 0x2C, 0x31, 0x31, 0x0A] =
      .ok (.fill (.fields 0x10 [0x22, 0x33] (some 0x11)), []) := by decide

/-- Streams that hold no dispatched line: no LF, and 81 storable bytes (2.2). -/
theorem test_decode_refuses :
    decode Config.params [0x56] = .error .unterminated ∧
    decode Config.params (ascii "R0000" ++ List.replicate 76 0x78 ++ [0x0A]) = .error .lineOverflow := by decide

/-- 80 storable bytes with CRs mixed in fit (2.2). -/
theorem test_decode_ignores_controls :
    decode Config.params (ascii "R0000" ++ List.replicate 5 0x0D ++ List.replicate 75 0x78 ++ [0x0A]) = .ok (.read (.value 0), []) := by
  decide

/-! ### Codec (2.1) -/

theorem test_hexval_ends :
    [0x30, 0x39, 0x41, 0x46, 0x61, 0x66].map hexval = ([0, 9, 10, 15, 10, 15] : List Nibble) ∧
    [0x47, 0x67, 0x3A, 0x2C, 0x20, 0x7F, 0x80, 0xFF, 0x2F, 0x40, 0x60].map hexval = List.replicate 11 (0 : Nibble) := by decide

theorem test_parseAddr :
    parseAddr (ascii "abC1") = (0xABC1, 4, []) ∧ parseAddr (ascii "12:5") = (0x0012, 2, ascii ":5") ∧
    parseAddr (ascii "G1") = (0x0001, 2, []) ∧ parseAddr [] = (0, 0, []) ∧ parseAddr (ascii ":") = (0, 0, ascii ":") ∧
    parseAddr (ascii "00105") = (0x0010, 4, ascii "5") := by decide

theorem test_hex_digits :
    hex2 0xAB = ascii "ab" ∧ hex2 0x0F = ascii "0f" ∧ hex2Upper 0x0B = ascii "0B" ∧ hex4 0x7FF8 = ascii "7ff8" ∧
    pair 0x61 0x42 = 0xAB ∧ pair 0x31 0x20 = 0x10 := by decide

theorem test_xorsum :
    xorsum [] = 0 ∧ xorsum [0xA1, 0xB2, 0xC3, 0xD4] = 0x04 ∧ xorsum (0xAA :: List.replicate 15 0xFF) = 0x55 := by decide

/-! ### One dispatched line each (2.5, 2.6) -/

theorem test_V : answers "Vxyz" [] "EEPROM Version=0.03\n" 0 0 = true := by decide +kernel
theorem test_P : answers "P" [0x5A] "OK\n" 1 4 = true := by decide +kernel
theorem test_U : answers "U" [0x00] "OK\n" 1 7 = true := by decide +kernel
theorem test_B : answers "B" [] "OK\n" 0 6 = true := by decide +kernel
theorem test_R : answers "R8000" erased16 "8000:ffffffffffffffffffffffffffffffff,00\nOK\n" 16 0 = true := by decide +kernel

/-- A lone character is dropped, here and before a checksum; the 17th byte is dropped and the checksum is over 16 (2.5). -/
theorem test_W :
    answers "W0000:AABBC" [] "OK\n" 0 2 = true ∧ answers "W0000:A,BB" [] "ERR BB 00\n" 0 0 = true ∧
    answers "W0000:000102030405060708090a0b0c0d0e0f10,10" [] "ERR 10 00\n" 0 0 = true := by decide +kernel

theorem test_N : answers "N0100" [] "OK\n" 0 0 = true := by decide +kernel
theorem test_S : answers "S0000:AA,00" [] "ERR 00 AA\n" 0 0 = true := by decide +kernel
theorem test_empty : answers "" [] "" 0 0 = true := by decide +kernel
theorem test_unrecognized : answers "r0000" [] "ERR\n" 0 0 = true := by decide +kernel

/-- `?` replies the help text, whatever it is (R259). -/
theorem test_help :
    view State.replyBytes (exec .help (start [])) = some (Config.params.helpText.flatMap fun l => l ++ [0x0A]) := by
  simp only [exec, execHelp, emitAll_eq, view]
  rfl

/-- An overflowed line reports LineOverflow before anything else (2.6). -/
theorem test_overflow :
    answers (String.ofList (List.replicate 86 'Z')) [] "ERR\n" 0 0 = true := by decide +kernel

/-! ### Effects -/

/-- P on a chip that drives 0x5A at address 0 (R251). -/
theorem test_P_trace :
    view (fun t => (t.sdpSaved, writesOf 15 BusRegs.reset t.trace)) (exec .protect (start [0x5A])) =
      some (0x5A, [(0x5555, 0xAA), (0x2AAA, 0x55), (0x5555, 0xA0), (0x0000, 0x5A)]) := by decide +kernel

/-- U on a chip that drives 0x00 at address 0 (R252). -/
theorem test_U_trace :
    view (fun t => writesOf 15 BusRegs.reset t.trace) (exec .unprotect (start [0x00])) =
      some [(0x5555, 0xAA), (0x2AAA, 0x55), (0x5555, 0x80), (0x5555, 0xAA), (0x2AAA, 0x55), (0x5555, 0x20), (0, 0)] := by
  decide +kernel

/-- `B` (R255). -/
theorem test_B_trace :
    view (fun t => writesOf 15 BusRegs.reset t.trace) (exec .erase (start [])) =
      some [(0x5555, 0xAA), (0x2AAA, 0x55), (0x5555, 0x80), (0x5555, 0xAA), (0x2AAA, 0x55), (0x5555, 0x10)] := by decide +kernel

/-- The read window wraps at the top of the chip (2.4, Program 4). -/
theorem test_R_wraps :
    view (fun t => (sampledAddrs 15 BusRegs.reset t.trace).map BitVec.toNat) (exec (.read (.value 0x7FF8)) (start erased16)) =
      some [0x7FF8, 0x7FF9, 0x7FFA, 0x7FFB, 0x7FFC, 0x7FFD, 0x7FFE, 0x7FFF, 0, 1, 2, 3, 4, 5, 6, 7] := by decide +kernel

/-- `W7FFE:A1B2C3D4` (Program 4). -/
theorem test_W_wraps :
    view (fun t => writesOf 15 BusRegs.reset t.trace) (exec (.write (.fields 0x7FFE [0xA1, 0xB2, 0xC3, 0xD4] none)) (start [])) =
      some [(0x7FFE, 0xA1), (0x7FFF, 0xB2), (0x0000, 0xC3), (0x0001, 0xD4)] := by decide +kernel

/-- `N0100` (R256). -/
theorem test_N_effect :
    view (fun t => (t.base, t.page.length, t.page[0]?, t.page[126]?, t.page[127]?))
      (exec (.prepare (.value 0x0100)) (start [])) = some (0x0100, 128, some 0xFF, some 0xFF, some 0xFF) := by decide +kernel

/-- `fillPageBuffer(0x007E, [AA,BB,CC,DD])` (2.4): the index wraps within the page. -/
theorem test_S_wraps :
    view (fun t => (t.page.drop 0x7D, t.page.take 3))
      (exec (.fill (.fields 0x007E [0xAA, 0xBB, 0xCC, 0xDD] none)) (start [])) =
      some ([0x5A, 0xAA, 0xBB], [0xCC, 0xDD, 0x5A]) := by decide +kernel

/-- `programPageBuffer()` from base 0x7FC0 (2.4): where the page lies, and the wait at the end. -/
theorem test_T_wraps :
    view (fun t => ((writesOf 15 BusRegs.reset t.trace)[63]?, (writesOf 15 BusRegs.reset t.trace)[64]?, t.trace.getLast?))
      (exec .program { start [] with base := 0x7FC0 }) =
      some (some (0x7FFF, 0x5A), some (0x0000, 0x5A), some (.wait 10000000)) := by decide +kernel

/-- Bus primitives against a wrong state (2.3). -/
theorem test_bus_precondition :
    (readByteAt 0 { start [] with bus := { BusRegs.reset with dir := .output } }).toOption = none ∧
    (writeByteAt 0 0 { start [] with bus := { BusRegs.reset with oe := true, dir := .output } }).toOption = none ∧
    (setDataLinesDirection .output { start [] with bus := { BusRegs.reset with oe := true } }).toOption = none := by decide +kernel

/-- `start` with LEGACY_PREPARE_FILL. -/
def legacy : State := { start [] with params := { Config.params with legacyPrepareFill := true } }

/-- `preparePageBuffer(0x0100)` with LEGACY_PREPARE_FILL (2.4). -/
theorem test_legacy_prepare :
    (preparePageBuffer 0x0100 legacy).base = 0x0100 ∧
    (preparePageBuffer 0x0100 legacy).page = List.replicate 127 0x5A ++ [0xFF] := by decide +kernel

/-- Other parameters reach the machine: with `SEQ_ADDRS` all `SDP_ADDR_1` and `RESP_EOL` CR LF, B writes there and ends its line so. -/
theorem test_parameters_are_arguments :
    view (fun t => ((writesOf 15 BusRegs.reset t.trace).map Prod.fst, t.replyBytes))
      (exec .erase { start [] with
        params := { Config.params with seqAddrsErase := List.replicate 6 .first, respEol := [0x0D, 0x0A] } }) =
      some (List.replicate 6 0x5555, ascii "OK\r\n") := by decide +kernel

/-- A write after a gap longer than the window of 150 us starts a new page load (00_scope.md R10, 70_reset_and_hazards.md R344). -/
theorem test_page_loads :
    pageLoads { Config.params with tLoadMax := 150000 } [(0, 0, 1), (150000, 1, 2), (150001, 2, 3), (0, 3, 4)] =
      [[(0, 1), (1, 2)], [(2, 3), (3, 4)]] := by decide

/-- CR LF ends a line as LF does (2.2, S12). -/
theorem test_reception : (lineReceived [0x52, 0x30, 0x30, 0x0D, 0x31, 0x30, 0x0A] State.reset).lineBytes = ascii "R0010" := by
  decide +kernel

/-- The word of a table row is the next instruction. -/
theorem test_withFetchWord :
    view State.replyBytes (step (State.reset.withFetchWord 8 0x56)) = some (ascii "EEPROM Version=0.03\n") := by decide +kernel

/-- BUSCTL as one word while the block drives the bus (10_state.md R42). -/
theorem test_busctl : BusRegs.busctl { BusRegs.reset with ce := true, we := true, dir := .output } = 0b1101#4 := by decide +kernel

/-- The least serial time of the 41-byte line and its LF (70_reset_and_hazards.md R349: 42 bytes at 9600 baud), and R350. -/
theorem test_timing : serialTime Config.params 42 = 43750000 ∧ waitCycles { Config.params with fClk := 50000000 } 1000 = 50 ∧
    waitCycles { Config.params with fClk := 1500000 } 1000 = 2 := by decide +kernel

/-! ### Witnesses: for each obligation with hypotheses, values that meet them all -/

theorem view_some {α : Type} {f : State → α} {r : Result} {x : α} (h : view f r = some x) : ∃ t, r = .next t ∧ f t = x := by
  cases r with
  | next t => exact ⟨t, rfl, Option.some.inj h⟩
  | fault q => cases h
  | refused q => cases h

theorem goes_on {r : Result} (h : view (fun _ => ()) r = some ()) : ∃ t, r = .next t :=
  (view_some h).imp fun _ e => e.1

/-- A state that is handing over the reply `A`, with a running delay or without. -/
def replying (timer : DelayTimer) (ready : Bool) : State :=
  { holding "V" [] with reply := some [0x41], bus := { BusRegs.reset with timer := timer }, txReady := ready }

/-- A state with these bytes offered and a line not yet started. -/
def offered (raw : List Byte) : State := { start [] with rx := raw }

theorem witness_DecodeEncodeRoundTrip :
    Config.params.ok ∧ wellFormed Config.params (.write (.fields 0xFFFF (List.replicate 16 0xFF) (some 0))) = true ∧
    wellFormed Config.params (.fill (.fields 0 [] none)) = true ∧ wellFormed Config.params (.write .noSeparator) = true ∧
    wellFormed Config.params (.read .missing) = true ∧ wellFormed Config.params (.unrecognized 0x20) = true ∧
    wellFormed Config.params (.unrecognized 0xFF) = true :=
  ⟨params_ok, by decide⟩

theorem witness_TagSelectsCommand :
    ∀ tag ∈ ([0x20, 0x5A, 0xFF] : List Byte), 0x20 ≤ tag ∧
      tag ∉ ([0x56, 0x50, 0x55, 0x52, 0x57, 0x42, 0x4E, 0x53, 0x54, 0x3F] : List Byte) := by decide

theorem witness_AddressFieldValue :
    parseAddr (ascii "1a2B:") = (0x1A2B, 4, ascii ":") ∧ parseAddr (ascii "12:") = (0x12, 2, ascii ":") ∧
    parseAddr (ascii "12") = (0x12, 2, []) ∧ parseAddr [] = (0, 0, []) := by decide

theorem witness_AddressRoundTrip :
    ∀ c ∈ ([0x30, 0x39, 0x41, 0x46, 0x61, 0x66] : List Byte),
      (0x30 ≤ c ∧ c ≤ 0x39) ∨ (0x41 ≤ c ∧ c ≤ 0x46) ∨ (0x61 ≤ c ∧ c ≤ 0x66) := by decide

/-- Fields of one and four characters, hex and not; pairs, a lone character and a tail. -/
theorem witness_DataFieldDecoding :
    (∀ field ∈ ([[0x47], [0x2C, 0x31], [0x66, 0x46, 0x30, 0x39]] : List (List Byte)),
      field ≠ [] ∧ field.length ≤ 4 ∧ 0x3A ∉ field) ∧
    (∀ c ∈ ([(0x41, 0x62), (0x5A, 0x3A)] : List (Byte × Byte)), c.1 ≠ 0x2C ∧ c.2 ≠ 0x2C) ∧
    (∃ c : Byte, c ≠ 0x2C ∧ ([0x41] : List Byte) = [c]) ∧ ([] : List Byte).length < 2 ∧ ([0x2C] : List Byte).length < 2 :=
  ⟨by decide, by simp, ⟨0x41, by decide, rfl⟩, by decide, by decide⟩

theorem witness_TrailingCharactersIgnored :
    (0x3A ∉ ascii "12" ∧ (ascii "12").length ≤ 4 ∧ (ascii ":9").head? = some 0x3A) ∧
    (0x3A ∉ ascii "0010" ∧ (ascii "0010").length ≤ 4 ∧ (ascii "0010").length = 4) := by decide

theorem witness_EveryStoredLineIsWellFormed : ∀ b ∈ ([0x20, 0x7F, 0xFF] : List Byte), storable b = true := by decide

theorem witness_ChecksumDetectsEveryBitFlip :
    (List.replicate 16 (0xFF : Byte)).length ≤ (start []).params.xferCap ∧ (start []).bus.quiet ∧
    15 < (List.replicate 16 (0xFF : Byte)).length ∧ 0 < 8 ∧ 7 < 8 := by decide

theorem witness_LegalTraceHasNoContention :
    BusRegs.reset.quiet ∧
    legalTrace Config.params BusRegs.reset
      (bulkReadTrace Config.params 0 [0xFF] ++ outputTrace Config.params [(0x5555, 0xAA)]) = true := by decide

theorem witness_CommandTracesAreLegal :
    (start []).bus.quiet ∧ { BusRegs.reset with dir := .output, addr := 0x7FFF, dout := 0xFF }.quiet := by decide

/-- Both sides of the two clauses: aliases and none, pins and none. -/
theorem witness_ChipAddressAliasing :
    (0x8005 : Word).toNat % 2 ^ 15 = (0x0005 : Word).toNat % 2 ^ 15 ∧
    (0x8005 : Word).toNat % 2 ^ 15 ≠ (0x0004 : Word).toNat % 2 ^ 15 ∧ 14 < 15 ∧ ¬15 < 15 := by decide

theorem witness_ConsecutiveAddressesWrap :
    Config.params.ok ∧ 0 < ([1, 2] : List Byte).length ∧ 1 < ([1, 2] : List Byte).length :=
  ⟨params_ok, by decide, by decide⟩

/-- For the five statements about P, U, B, R and T; the Transfer Buffer has its capacity. -/
theorem witness_bus_commands :
    (start erased16).bus.quiet ∧ (start erased16).xfer.length = (start erased16).params.xferCap := by decide

theorem witness_WriteSendsDataBytes :
    (start []).bus.quiet ∧ ([] : List Byte).length ≤ (start []).params.xferCap ∧
    erased16.length ≤ (start []).params.xferCap ∧ (some 0x00 : Option Byte) = some (xorsum erased16) := by decide

theorem witness_ChecksumMismatchReplies :
    (0xBB : Byte) ≠ xorsum [0xAA] ∧ ([0xAA] : List Byte).length ≤ (start []).params.xferCap ∧
    (0x01 : Byte) ≠ xorsum erased16 ∧ erased16.length ≤ (start []).params.xferCap := by decide

theorem witness_MissingOperandIsMalformed :
    requireAddr [] = .missing ∧ requireAddr (ascii ":1") = .missing ∧ parsePayload 16 (ascii "12") = .noSeparator ∧
    parsePayload 16 (ascii "00001:AA") = .noSeparator ∧ parsePayload 16 (ascii ":AA") = .noAddress := by decide

/-- The two values of LEGACY_PREPARE_FILL. -/
theorem witness_PrepareErases :
    (start []).params.legacyPrepareFill = false ∧ legacy.params.legacyPrepareFill = true ∧
    legacy.page.length = legacy.params.pageCap ∧ 127 < legacy.params.pageCap ∧ 127 + 1 = legacy.params.pageCap := by decide +kernel

/-- The hypotheses of S: data of length 0 and 16, with and without a checksum; and a page index for each clause. -/
theorem witness_FillStoresAtMaskedOffset :
    ([] : List Byte).length ≤ (start []).params.xferCap ∧ erased16.length ≤ (start []).params.xferCap ∧
    (some 0x00 : Option Byte) = some (xorsum erased16) ∧ (start []).params.ok ∧
    (start []).page.length = (start []).params.pageCap ∧ erased16.length ≤ (start []).params.pageCap ∧ 15 < erased16.length ∧
    ∀ k, k < erased16.length → 16 ≠ ((0 : Word).toNat % (start []).params.pageCap + k) % (start []).params.pageCap :=
  ⟨by decide, by decide, by decide, params_ok, by decide +kernel, by decide +kernel, by decide, by decide +kernel⟩

theorem witness_ErrorsHaveNoSideEffects :
    (start []).params.ok ∧
    raisesError (.unrecognized 0x5A) = some .unrecognized ∧ wellFormed (start []).params (.unrecognized 0x5A) = true ∧
    raisesError (.read .missing) = some .malformed ∧ wellFormed (start []).params (.read .missing) = true ∧
    raisesError (.fill .noSeparator) = some .malformed ∧ wellFormed (start []).params (.fill .noSeparator) = true ∧
    raisesError (.write (.fields 0 [0xAA] (some 0xBB))) = some (.checksumMismatch 0xBB 0xAA) ∧
    wellFormed (start []).params (.write (.fields 0 [0xAA] (some 0xBB))) = true :=
  ⟨params_ok, by decide⟩

theorem witness_OnlyTheseCommandsChangeEachRegister :
    (∃ t, exec .protect (start [0x5A]) = .next t) ∧ (∃ t, exec (.read (.value 0)) (start erased16) = .next t) ∧
    ∃ t, exec .version (start []) = .next t :=
  ⟨goes_on (by decide +kernel), goes_on (by decide +kernel), goes_on (by decide +kernel)⟩

theorem witness_PageBufferIsOnlyStaging : Instr.help ≠ .program := by decide

/-- For the two tables: a command that runs and one that ends in an error. -/
theorem witness_tables :
    wellFormed (start []).params .program = true ∧ raisesError .program = none ∧
    wellFormed (start []).params (.write .noAddress) = true ∧ raisesError (.write .noAddress) ≠ none ∧
    (start []).params.ok ∧ (start []).page.length = (start []).params.pageCap ∧ (start []).bus.quiet ∧
    { start [] with ovf := true }.ovf = true :=
  ⟨by decide, by decide, by decide, by decide, params_ok, by decide +kernel, by decide, rfl⟩

theorem witness_ReceiveOneByte : (start []).line.length = (start []).params.lineCap := by decide

theorem witness_ReceptionKeepsTheLine : 0x0A ∉ List.replicate 81 (0x78 : Byte) ∧ 0x0A ∉ ([0x0D, 0x56] : List Byte) := by decide

theorem witness_AwaitingTakesOneByte :
    (offered [0x56]).fsm = .awaitingLine ∧ (offered [0x56]).rst = none ∧ (offered [0x56]).rx = [0x56] ∧
    (offered []).rx = [] := by decide

theorem witness_InputOnlyInAwaitingLine :
    (holding "V" []).fsm = .dispatching ∧ (∃ t, step (holding "V" []) = .next t) ∧
    ∃ t, step { holding "V" [] with rst := some 0 } = .next t :=
  ⟨by decide, goes_on (by decide +kernel), goes_on (by decide +kernel)⟩

theorem witness_StepRunsDecodedInstruction :
    (holding "V" []).fsm = .dispatching ∧ (holding "V" []).reply = none ∧ (holding "V" []).rst = none ∧
    (holding "V" []).ovf = false := by decide

theorem witness_OverflowedLineRunsNothing :
    (holding (String.ofList (List.replicate 81 'V')) []).ovf = true ∧
    (holding (String.ofList (List.replicate 81 'V')) []).fsm = .dispatching ∧
    (holding (String.ofList (List.replicate 81 'V')) []).reply = none ∧
    (holding (String.ofList (List.replicate 81 'V')) []).rst = none := by decide +kernel

theorem witness_ReplyIsHandedOver :
    (replying .idle true).fsm = .dispatching ∧ (replying .idle true).reply = some [0x41] ∧
    (replying .idle true).bus.timer = .idle ∧ (replying .idle true).txReady = true ∧ (replying .idle true).rst = none := by decide

theorem witness_StalledTransportChangesNothing :
    (replying .idle false).fsm = .dispatching ∧ (replying .idle false).reply = some (0x41 :: []) ∧
    (replying .idle false).bus.timer = .idle ∧ (replying .idle false).txReady = false ∧ (replying .idle false).rst = none := by
  decide

theorem witness_NoReplyByteDuringPageWait :
    (holding "T" []).bus.quiet ∧ (holding "T" []).fsm = .dispatching ∧ (holding "T" []).rst = none := by decide

theorem witness_OnlyTheseTransitions :
    ((offered [0x0A]).fsm = .awaitingLine ∧ ∃ t, step (offered [0x0A]) = .next t ∧ t.fsm = .dispatching) ∧
    ({ replying .idle true with reply := some [] }.fsm = .dispatching ∧
      ∃ t, step { replying .idle true with reply := some [] } = .next t ∧ t.fsm = .awaitingLine) :=
  ⟨⟨by decide, _, rfl, by decide⟩, by decide, _, rfl, by decide⟩

theorem witness_ResetTakesPrecedence : { holding "T" [] with rst := some 0 }.rst = some 0 := by decide

/-- Both clauses: a reset at the sixth event of U, at its last event, and one that comes after it. -/
theorem witness_ResetCutsTheCommandShort :
    (∀ k ∈ [5, 57, 58], view (fun t => decide (k + 1 ≤ (newEvents (holding "U" [0]) t).length))
      (blockStep { holding "U" [0] with rst := some (k + 1) }) = some (decide (k < 58))) := by decide +kernel

theorem witness_EveryStepGoesOnAndKeepsInvariant : (holding "W0000:AA" []).Inv ∧ State.reset.Inv :=
  ⟨⟨params_ok, by decide +kernel⟩, params_ok, by decide +kernel⟩

theorem witness_EveryLineReturnsToAwaitingLine :
    ((holding "W0000:AA" []).Inv ∧ (replying (.waiting 10000000) true).Inv) ∧ (holding "W0000:AA" []).fsm = .dispatching ∧
    (holding "W0000:AA" []).txReady = true ∧ (holding "W0000:AA" []).rst = none :=
  ⟨⟨⟨params_ok, by decide +kernel⟩, params_ok, by decide +kernel⟩, by decide +kernel⟩

theorem witness_HostLineReachesItsHandler :
    (offered []).params.ok ∧ wellFormed (offered []).params (.read (.value 0x10)) = true ∧
    (offered (encodeRaw (.read (.value 0x10)) ++ [0x54])).fsm = .awaitingLine ∧
    (offered (encodeRaw (.read (.value 0x10)) ++ [0x54])).len = 0 ∧
    (offered (encodeRaw (.read (.value 0x10)) ++ [0x54])).ovf = false ∧
    (offered (encodeRaw (.read (.value 0x10)) ++ [0x54])).reply = none ∧
    (offered (encodeRaw (.read (.value 0x10)) ++ [0x54])).rst = none ∧
    (offered (encodeRaw (.read (.value 0x10)) ++ [0x54])).rx = encodeRaw (.read (.value 0x10)) ++ [0x54] := by decide

/-- A W of sixteen bytes, then an R that finds them on the chip. -/
theorem witness_WriteThenReadOnIdealChip :
    ∃ (a : Word) (data : List Byte) (m : ChipMemory) (s t u v : State),
      s.params.ok ∧ data.length = s.params.xferCap ∧ data.length ≤ 2 ^ s.params.addrBits ∧ m.wf s.params.addrBits = true ∧
      s.bus.quiet ∧ exec (.write (.fields a data none)) s = .next t ∧
      u.params = s.params ∧ u.bus.quiet ∧ exec (.read (.value a)) u = .next v ∧
      drivenBy (chipAfter (.write (.fields a data none)) (writesOf s.params.addrBits s.bus (newPins s t)) m)
        s.params.addrBits u.bus (newPins u v) := by
  obtain ⟨t, ht, hv⟩ := view_some (f := fun t => view (fun v => decide (drivenBy
      (chipAfter (.write (.fields 0x7FF8 written16 none)) (writesOf 15 (start []).bus (newPins (start []) t)) [(0x10, 0x01)])
      15 (start written16).bus (newPins (start written16) v))) (exec (.read (.value 0x7FF8)) (start written16)))
    (r := exec (.write (.fields 0x7FF8 written16 none)) (start [])) (x := some true) (by decide +kernel)
  obtain ⟨v, hv, hd⟩ := view_some hv
  exact ⟨0x7FF8, written16, [(0x10, 0x01)], start [], t, start written16, v, params_ok, by decide, by decide,
    by decide, by decide, ht, rfl, by decide, hv, of_decide_eq_true hd⟩

theorem witness_ProgramStoresPageOnIdealChip :
    (start []).params.ok ∧ ChipMemory.wf (start []).params.addrBits [(0, 0x5A), (0x7FFF, 0x00)] = true ∧ (start []).bus.quiet ∧
    (start []).page.length ≤ 2 ^ (start []).params.addrBits ∧ (∃ t, exec .program (start []) = .next t) ∧
    0 < (start []).page.length ∧ ∀ j, j < (start []).page.length → 128 ≠ ((start []).base.toNat + j) % 2 ^ 15 :=
  ⟨params_ok, by decide, by decide, by decide +kernel, goes_on (by decide +kernel), by decide +kernel,
    by decide +kernel⟩

/-- P and U on a chip that holds 0x5A at address 0 and drives it. -/
theorem witness_ProtectionChangeKeepsByteZero :
    ∀ i ∈ [Instr.protect, Instr.unprotect], ChipMemory.wf (start [0x5A]).params.addrBits [(0, 0x5A)] = true ∧
      (start [0x5A]).bus.quiet ∧ ∃ t, exec i (start [0x5A]) = .next t ∧
        drivenBy [(0, 0x5A)] (start [0x5A]).params.addrBits (start [0x5A]).bus (newPins (start [0x5A]) t) := by
  intro i hi
  refine ⟨by decide, by decide, ?_⟩
  obtain ⟨t, ht, hd⟩ := view_some (r := exec i (start [0x5A])) (x := true)
    (f := fun t => decide (drivenBy [(0, 0x5A)] 15 (start [0x5A]).bus (newPins (start [0x5A]) t)))
    (by revert i; decide +kernel)
  exact ⟨t, ht, of_decide_eq_true hd⟩

end Sys2Proof.Tests
end

section
/-!
PROOF of ParametersAtReset (O60): a reset leaves the default parameters, and the default `SEQ_ADDRS` are computed from the sequences.
-/

namespace Sys2Proof.Machine

/-- The block starts with the default parameters (R9, R10). -/
@[simp] theorem reset_params : State.reset.params = Config.params := rfl

/-! ### The default `SEQ_ADDRS` (R196) -/

@[simp] theorem jedecAddrs_nil : Config.jedecAddrs [] = [] := rfl

/-- The sequence byte alone decides its unlock address. -/
@[simp] theorem jedecAddrs_cons (v : Byte) (vs : List Byte) :
    Config.jedecAddrs (v :: vs) = (if v = 0x55 then .second else .first) :: Config.jedecAddrs vs := rfl

/-- SDP disable and chip erase differ only in their last byte, and neither last byte is 0x55. -/
theorem jedecAddrs_six {v : Byte} (h : v ≠ 0x55) :
    Config.jedecAddrs [0xAA, 0x55, 0x80, 0xAA, 0x55, v] = [.first, .second, .first, .first, .second, .first] := by
  simpa using h

theorem jedecAddrs_enable : Config.jedecAddrs [0xAA, 0x55, 0xA0] = [.first, .second, .first] := by simp

/-- Settles O60: R11 is `params_ok`; the only fields of the defaults that are computed are the three `SEQ_ADDRS`. -/
theorem parametersAtReset : Obligations.ParametersAtReset := by
  unfold Obligations.ParametersAtReset
  rw [reset_params]
  refine ⟨Tests.params_ok, Config.helpFirst :: Config.helpRest, Config.fClk, Config.tLoadMax, ?_⟩
  have hDisable := jedecAddrs_six (v := 0x20) (by decide)
  have hErase := jedecAddrs_six (v := 0x10) (by decide)
  rw [Config.params, hDisable, jedecAddrs_enable, hErase, Config.errText]

end Sys2Proof.Machine
end

section
/-!
SUPPORT. What a chip operation, and then a command, can do to the state when it goes on, from any bus state: pin events and samples first,
then one register effect for each command, then a reply (44_commands.md R250 to R264). The frame of every command and the invariant are
read off `exec_effect`.
-/

namespace Sys2Proof.Machine

/-! ### What an operation and a command can do -/

/-- From `s` to `t` only `n` samples were taken and pin events performed: what an operation of the Bus Sequencer does when it goes on. -/
def BusActivity (n : Nat) (s t : State) : Prop := ∃ es, t = perform es (takeSamples n s)

/-- What command `i` can have done before its reply is queued, one line for each kind of command: only the reply (V, ?, the empty line, and
an error before anything was loaded: R264); one sample for `sdp_saved` (P and U: R192); one sample for each byte of the Transfer Buffer (R:
R253); pin events after a load, none with a wrong checksum (W: R254, R262); pin events alone (B and T: R255, R258); the prepare (N: R256);
a load, and the fill unless the checksum is wrong (S: R257, R262). -/
def CommandEffect (i : Instr) (s u : State) : Prop :=
  u = s ∨
  ((i = .protect ∨ i = .unprotect) ∧ ∃ v w, BusActivity 1 s w ∧ u = { w with sdpSaved := v }) ∨
  (∃ a bs w, i = .read (.value a) ∧ bs.length = s.params.xferCap ∧ BusActivity s.params.xferCap s w ∧ u = loadXfer bs w) ∨
  (∃ a data given, i = .write (.fields a data given) ∧ BusActivity 0 (loadXfer data s) u) ∨
  ((i = .erase ∨ i = .program) ∧ BusActivity 0 s u) ∨
  (∃ a, i = .prepare (.value a) ∧ u = preparePageBuffer a s) ∨
  ∃ a data given, i = .fill (.fields a data given) ∧ (u = loadXfer data s ∨ ∃ bs, u = fillPageBuffer a bs (loadXfer data s))

/-! ### Pin events and samples -/

theorem busActivity_perform (es : List BusEvent) (s : State) : BusActivity 0 s (perform es s) := ⟨es, rfl⟩

theorem busActivity_refl (s : State) : BusActivity 0 s s := ⟨[], by simp [perform, takeSamples]⟩

theorem takeSamples_add (m n : Nat) (s : State) : takeSamples n (takeSamples m s) = takeSamples (m + n) s := by
  simp [takeSamples_eq, Nat.add_assoc]

theorem BusActivity.trans {m n : Nat} {s t u : State} (h : BusActivity m s t) (h' : BusActivity n t u) :
    BusActivity (m + n) s u := by
  obtain ⟨es, rfl⟩ := h
  obtain ⟨fs, rfl⟩ := h'
  exact ⟨es ++ fs, by rw [takeSamples_perform, perform_append, takeSamples_add]⟩

/-! ### Primitives and cycles -/

theorem setDataLinesDirection_activity {d : Dir} {s t : State} (h : setDataLinesDirection d s = .ok t) : BusActivity 0 s t := by
  cases hr : dirReady d s.bus with
  | false => rw [setDataLinesDirection_fault hr] at h; cases h
  | true =>
    rw [setDataLinesDirection_ok hr] at h
    cases h
    exact busActivity_perform _ s

theorem readByteAt_activity {a : Word} {b : Byte} {s t : State} (h : readByteAt a s = .ok (b, t)) : BusActivity 1 s t := by
  cases hr : readReady s.bus with
  | false => rw [readByteAt_fault hr] at h; cases h
  | true =>
    rw [readByteAt_ok hr] at h
    cases h
    exact ⟨_, rfl⟩

theorem writeByteAt_activity {a : Word} {v : Byte} {s t : State} (h : writeByteAt a v s = .ok t) : BusActivity 0 s t := by
  cases hr : writeReady s.bus with
  | false => rw [writeByteAt_fault hr] at h; cases h
  | true =>
    rw [writeByteAt_ok hr] at h
    cases h
    exact busActivity_perform _ s

/-- Read cycles that go on answer one byte for each sample. -/
theorem readCycles_activity {n : Nat} {a : Word} {bs : List Byte} {s t : State} (h : readCycles n a s = .ok (bs, t)) :
    bs.length = n ∧ BusActivity n s t := by
  induction n generalizing a bs s with
  | zero => cases h; exact ⟨rfl, busActivity_refl _⟩
  | succ n ih =>
    rw [readCycles] at h
    split at h
    · cases h
    · next b s1 hb =>
      split at h
      · cases h
      · next bs' s2 hrest =>
        cases h
        obtain ⟨hlen, hact⟩ := ih hrest
        exact ⟨congrArg (· + 1) hlen, Nat.add_comm n 1 ▸ (readByteAt_activity hb).trans hact⟩

theorem writeCycles_activity {cs : List (Word × Byte)} {s t : State} (h : writeCycles cs s = .ok t) : BusActivity 0 s t := by
  induction cs generalizing s with
  | nil => cases h; exact busActivity_refl _
  | cons c cs ih =>
    rw [writeCycles] at h
    split at h
    · cases h
    · next s1 hc => exact (writeByteAt_activity hc).trans (ih h)

/-! ### Chip operations -/

theorem bulkRead_activity {a : Word} {n : Nat} {bs : List Byte} {s t : State} (h : bulkRead a n s = .ok (bs, t)) :
    bs.length = n ∧ BusActivity n s t := by
  rw [bulkRead] at h
  split at h
  · cases h
  · next s1 hdir =>
    split at h
    · cases h
    · next bs' s2 hread =>
      cases h
      obtain ⟨hlen, hact⟩ := readCycles_activity hread
      have hstart := (setDataLinesDirection_activity hdir).trans (busActivity_perform [.assertLine .oe] s1)
      refine ⟨hlen, ?_⟩
      simpa using (hstart.trans hact).trans (busActivity_perform [.deassertLine .oe] s2)

theorem outputCycles_activity {cs : List (Word × Byte)} {s t : State} (h : outputCycles cs s = .ok t) : BusActivity 0 s t := by
  rw [outputCycles] at h
  split at h
  · cases h
  · next s1 hdir => exact (setDataLinesDirection_activity hdir).trans (writeCycles_activity h)

/-- The read of byte 0 is the only place where `sdp_saved` is written (R192). -/
theorem saveByteZero_activity {s t : State} (h : saveByteZero s = .ok t) :
    ∃ v u, BusActivity 1 s u ∧ t = { u with sdpSaved := v } := by
  rw [saveByteZero] at h
  split at h
  · cases h
  · next bs u hread =>
    cases h
    exact ⟨_, u, (bulkRead_activity hread).2, rfl⟩

theorem setSoftwareDataProtection_activity {enable : Bool} {s t : State} (h : setSoftwareDataProtection enable s = .ok t) :
    ∃ v u, BusActivity 1 s u ∧ t = { u with sdpSaved := v } := by
  rw [setSoftwareDataProtection] at h
  split at h
  · cases h
  · next s1 hsave =>
    obtain ⟨v, u, hu, rfl⟩ := saveByteZero_activity hsave
    obtain ⟨es, rfl⟩ := outputCycles_activity h
    exact ⟨v, perform es u, hu.trans (busActivity_perform es u), rfl⟩

theorem programPageBuffer_activity {s t : State} (h : programPageBuffer s = .ok t) : BusActivity 0 s t := by
  rw [programPageBuffer] at h
  split at h
  · cases h
  · next s1 hwrite =>
    cases h
    exact (outputCycles_activity hwrite).trans (busActivity_perform _ s1)

/-! ### Commands -/

theorem replyOk_next {r : Except Fault State} {t : State} (h : replyOk r = .next t) : ∃ u, r = .ok u ∧ t = emit okLine u := by
  cases r with
  | error f => cases h
  | ok u => cases h; exact ⟨u, rfl, rfl⟩

/-- W and S after the parse (R262): an error with nothing loaded, a wrong checksum after the load, or the command's own work. -/
theorem withPayload_next {arg : PayloadOperand} {run : Word → List Byte → State → Result} {s t : State}
    (h : withPayload arg run s = .next t) :
    t = raise .malformed s ∨
    ∃ a data given, arg = .fields a data given ∧
      ((∃ e, t = raise e (loadXfer data s)) ∨ run a (loadXfer data s).xferBytes (loadXfer data s) = .next t) := by
  cases arg with
  | noAddress => cases h; exact .inl rfl
  | noSeparator => cases h; exact .inl rfl
  | fields a data given =>
    refine .inr ⟨a, data, given, rfl, ?_⟩
    rw [withPayload] at h
    split at h
    · cases h; exact .inl ⟨_, rfl⟩
    · exact .inr h

/-- Every command that goes on has its effect and leaves a reply in the queue. -/
theorem exec_effect {i : Instr} {s t : State} (h : exec i s = .next t) :
    ∃ u r, CommandEffect i s u ∧ t = { u with reply := some r } := by
  cases i with
  | version => cases h; exact ⟨s, _, .inl rfl, rfl⟩
  | protect =>
    obtain ⟨u, hu, rfl⟩ := replyOk_next h
    exact ⟨u, _, .inr (.inl ⟨.inl rfl, setSoftwareDataProtection_activity hu⟩), rfl⟩
  | unprotect =>
    obtain ⟨u, hu, rfl⟩ := replyOk_next h
    exact ⟨u, _, .inr (.inl ⟨.inr rfl, setSoftwareDataProtection_activity hu⟩), rfl⟩
  | read arg =>
    cases arg with
    | missing => cases h; exact ⟨s, _, .inl rfl, rfl⟩
    | value a =>
      rw [exec, execRead] at h
      split at h
      · cases h
      · next bs w hread =>
        cases h
        obtain ⟨hlen, hact⟩ := bulkRead_activity hread
        exact ⟨loadXfer bs w, _, .inr (.inr (.inl ⟨a, bs, w, rfl, hlen, hact, rfl⟩)), rfl⟩
  | write arg =>
    rw [exec, execWrite] at h
    obtain rfl | ⟨a, data, given, rfl, ⟨e, rfl⟩ | hrun⟩ := withPayload_next h
    · exact ⟨s, _, .inl rfl, rfl⟩
    · exact ⟨loadXfer data s, _, .inr (.inr (.inr (.inl ⟨a, data, given, rfl, busActivity_refl _⟩))), rfl⟩
    · obtain ⟨u, hu, rfl⟩ := replyOk_next hrun
      exact ⟨u, _, .inr (.inr (.inr (.inl ⟨a, data, given, rfl, outputCycles_activity hu⟩))), rfl⟩
  | erase =>
    obtain ⟨u, hu, rfl⟩ := replyOk_next h
    exact ⟨u, _, .inr (.inr (.inr (.inr (.inl ⟨.inl rfl, outputCycles_activity hu⟩)))), rfl⟩
  | prepare arg =>
    cases arg with
    | missing => cases h; exact ⟨s, _, .inl rfl, rfl⟩
    | value a => cases h; exact ⟨_, _, .inr (.inr (.inr (.inr (.inr (.inl ⟨a, rfl, rfl⟩))))), rfl⟩
  | fill arg =>
    rw [exec, execFill] at h
    obtain rfl | ⟨a, data, given, rfl, ⟨e, rfl⟩ | hrun⟩ := withPayload_next h
    · exact ⟨s, _, .inl rfl, rfl⟩
    · exact ⟨_, _, .inr (.inr (.inr (.inr (.inr (.inr ⟨a, data, given, rfl, .inl rfl⟩))))), rfl⟩
    · cases hrun
      exact ⟨_, _, .inr (.inr (.inr (.inr (.inr (.inr ⟨a, data, given, rfl, .inr ⟨_, rfl⟩⟩))))), rfl⟩
  | program =>
    obtain ⟨u, hu, rfl⟩ := replyOk_next h
    exact ⟨u, _, .inr (.inr (.inr (.inr (.inl ⟨.inr rfl, programPageBuffer_activity hu⟩)))), rfl⟩
  | help =>
    cases h
    exact ⟨s, _, .inl rfl, emitAll_eq _ s⟩
  | empty => cases h; exact ⟨s, _, .inl rfl, rfl⟩
  | unrecognized tag => cases h; exact ⟨s, _, .inl rfl, rfl⟩

end Sys2Proof.Machine
end

section
/-!
PROOF of OnlyTheseCommandsChangeEachRegister (O35): the frame of every command, read off its effect.
-/

namespace Sys2Proof.Machine

/-- Settles O35: each effect of `exec_effect` names the registers it changes, and the reply is none of the registers listed. -/
theorem onlyTheseCommandsChangeEachRegister : Obligations.OnlyTheseCommandsChangeEachRegister := by
  unfold Obligations.OnlyTheseCommandsChangeEachRegister
  intro i s t h
  obtain ⟨u, r, heff, rfl⟩ := exec_effect h
  rcases heff with rfl | ⟨rfl | rfl, v, w, ⟨es, rfl⟩, rfl⟩ | ⟨a, bs, w, rfl, -, ⟨es, rfl⟩, rfl⟩ | ⟨a, data, given, rfl, es, rfl⟩ |
    ⟨rfl | rfl, es, rfl⟩ | ⟨a, rfl, rfl⟩ | ⟨a, data, given, rfl, rfl | ⟨bs, rfl⟩⟩
  · simp
  · simp
  · simp
  · simp
  · simp [takeSamples]
  · simp
  · simp
  · simp
  · simp
  · simp

end Sys2Proof.Machine
end

section
/-!
PROOF of PinsFollowRegisters (O15) and PowerOnResetValues (O51): the output ports of 10_state.md R30 as functions of the bus registers.
-/

namespace Sys2Proof.Machine

/-! ### Pins (R41 to R44) -/

/-- `pin = asserted XOR CTRL_ACTIVE_LOW` (R41). -/
theorem pinLevel_eq_xor (activeLow asserted : Bool) : pinLevel activeLow asserted = (asserted ^^ activeLow) :=
  congrFun₂ Bool.bne_eq_xor asserted activeLow

/-- The direction pin is 1 for Output and 0 for Input (R42). -/
theorem eepDDir_iff (s : State) : s.eepDDir = true ↔ s.bus.dir = .output := by simp [State.eepDDir]

/-- The block drives the data lines exactly when the direction is Output (R44). -/
theorem drivenData_eq (s : State) : s.drivenData = if s.bus.dir = .output then some s.bus.dout else none := by
  rw [State.drivenData]
  cases s.bus.dir with
  | input => rfl
  | output => rfl

/-- Settles O15: the three control pins are `pinLevel` of their register bits. -/
theorem pinsFollowRegisters : Obligations.PinsFollowRegisters := by
  unfold Obligations.PinsFollowRegisters
  intro s
  exact ⟨pinLevel_eq_xor _ _, pinLevel_eq_xor _ _, pinLevel_eq_xor _ _, eepDDir_iff s, drivenData_eq s, rfl⟩

/-! ### Right after power-on (R52, R330, R331) -/

@[simp] theorem reset_bus : State.reset.bus = BusRegs.reset := rfl

@[simp] theorem reset_history : State.reset.history = [] := rfl

/-- Settles O51: the history is empty, and the pins are read off the reset values of the bus registers under the default polarity. -/
theorem powerOnResetValues : Obligations.PowerOnResetValues := by
  unfold Obligations.PowerOnResetValues
  have hout : State.reset.out = [] := by rw [State.out, reset_history, List.foldl_nil]
  have htrace : State.reset.trace = [] := by rw [State.trace, reset_history, List.filterMap_nil]
  have hdriven : State.reset.drivenData = none := by rw [drivenData_eq, reset_bus]; rfl
  obtain ⟨hce, hoe, hwe, -⟩ := pinsFollowRegisters State.reset
  exact ⟨rfl, rfl, rfl, reset_bus, hout, htrace, rfl, rfl, hce, hoe, hwe, hdriven⟩

end Sys2Proof.Machine
end

section
/-!
PROOF of InvariantAtReset (O53) and EveryStepGoesOnAndKeepsInvariant (O54). The invariant is kept by each kind of step in turn: a reset, a
received byte, a dispatched line, one step of the reply, and a step that a reset cuts short (43_protocol.md R220, 70_reset_and_hazards.md
R333).
-/

namespace Sys2Proof.Machine

/-! ### Reset -/

@[simp] theorem pageInit_length (p : Params) (n : Nat) : (pageInit p n).length = p.pageCap := by simp [pageInit]

theorem lineBytes_of_len_zero {s : State} (h : s.len = 0) : s.lineBytes = [] := by
  rw [State.lineBytes, h, List.take_zero]

/-- The reset values of R52 meet the invariant, whatever the draws for the page and the parameters within R11. -/
theorem inv_of_reset_values {s : State} (hok : s.params.ok) (hline : s.line.length = s.params.lineCap)
    (hxfer : s.xfer.length = s.params.xferCap) (hpage : s.page.length = s.params.pageCap) (hlen : s.len = 0) (hxferN : s.xferN = 0)
    (hovf : s.ovf = false) (hbus : s.bus = BusRegs.reset) (hreply : s.reply = none) : s.Inv := by
  refine ⟨hok, hline, by omega, hxfer, by omega, hpage, ?_, by simp [hovf], ?_, ?_, fun _ => hreply, fun _ => by rw [hbus]; rfl⟩
  · simp [lineBytes_of_len_zero hlen]
  · rw [hbus]; exact ⟨rfl, rfl, rfl⟩
  · rw [hbus]; exact Nat.two_pow_pos _

/-- Settles O53: the machine starts with the default parameters, which keep R11, and the reset values. -/
theorem invariantAtReset : Obligations.InvariantAtReset :=
  inv_of_reset_values Tests.params_ok List.length_replicate List.length_replicate (pageInit_length _ _) rfl rfl rfl rfl rfl

theorem resetBlock_inv {s : State} (hok : s.params.ok) : (resetBlock s).Inv :=
  inv_of_reset_values hok List.length_replicate List.length_replicate (pageInit_length _ _) rfl rfl rfl rfl rfl

/-! ### Reception -/

/-- A received byte ends the line, is stored, sets `ovf` for a full line, or is discarded (R224); each keeps the invariant. -/
theorem receive_inv {s : State} (h : s.Inv) (b : Byte) : (receive b s).Inv ∧ (receive b s).params = s.params := by
  obtain ⟨hok, hline, hlen, hxfer, hxferN, hpage, hbytes, hovf, hquiet, haddr, hreply, htimer⟩ := id h
  by_cases hlf : b = Config.lineTerm
  · subst hlf
    rw [receive_lf]
    exact ⟨⟨hok, hline, hlen, hxfer, hxferN, hpage, hbytes, hovf, hquiet, haddr, nofun, htimer⟩, rfl⟩
  cases hs : storable b with
  | false =>
    rw [receive_control hlf hs]
    exact ⟨h, rfl⟩
  | true =>
    by_cases hroom : s.len < s.params.lineCap
    · have hstored : ∀ c ∈ (receive b s).lineBytes, Config.ctrlMax < c := by
        rw [receive_lineBytes hs hroom hline]
        intro c hc
        rcases List.mem_append.mp hc with hc | hc
        · exact hbytes c hc
        · rw [List.mem_singleton.mp hc]; exact (storable_iff b).mp hs
      rw [receive_storable hs hroom] at hstored ⊢
      have hlength : (putByte s.line s.len b).length = s.params.lineCap := by rw [putByte_length b (by omega), hline]
      have hnotFull : s.ovf = true → s.len + 1 = s.params.lineCap := fun ho => by have := hovf ho; omega
      exact ⟨⟨hok, hlength, hroom, hxfer, hxferN, hpage, hstored, hnotFull, hquiet, haddr, hreply, htimer⟩, rfl⟩
    · have hfull : s.len = s.params.lineCap := by omega
      rw [receive_overflow hs hroom]
      exact ⟨⟨hok, hline, hlen, hxfer, hxferN, hpage, hbytes, fun _ => hfull, hquiet, haddr, hreply, htimer⟩, rfl⟩

/-- Taking a byte off `rx` is outside the invariant; what counts is its reception. -/
theorem takeByte_inv {s : State} (h : s.Inv) : (takeByte s).Inv ∧ (takeByte s).params = s.params := by
  rw [takeByte]
  split
  · exact ⟨h, rfl⟩
  · next b bs hrx => exact receive_inv (s := { s with rx := bs, history := s.history ++ [.rx b] }) h b

/-! ### Decoding a stored line -/

/-- At most `cap` data bytes are kept (R110, R262). -/
theorem parseData_length (cap : Nat) (cs : List Byte) : (parseData cap cs).1.length ≤ cap := by
  fun_induction parseData cap cs
  case case3 ih => exact ih
  case case8 ih => exact Nat.succ_le_succ ih
  all_goals exact Nat.zero_le _

theorem parsePayload_wellFormed (p : Params) (cs : List Byte) : (parsePayload p.xferCap cs).wellFormed p = true := by
  rw [parsePayload]
  split
  · rfl
  · rfl
  · split
    · simpa [PayloadOperand.wellFormed] using parseData_length _ _
    · rfl

theorem wellFormed_ite {p : Params} {c : Prop} [Decidable c] {i j : Instr} (hi : wellFormed p i = true)
    (hj : ¬c → wellFormed p j = true) : wellFormed p (if c then i else j) = true := by
  split
  · exact hi
  · next hc => exact hj hc

/-- A storable byte that is none of the ten tags is a well-formed unrecognized tag (R114). -/
theorem unrecognized_wellFormed (p : Params) {tag : Byte} (hs : storable tag = true) (ht : tag ∉ tagBytes) :
    wellFormed p (.unrecognized tag) = true := by
  have hcontains : tagBytes.contains tag = false := by simpa using ht
  rw [wellFormed, hcontains]
  simpa using (storable_iff tag).mp hs

/-- Every line of storable bytes decodes to a well-formed instruction (R110, R114). -/
theorem decodeLine_wellFormed (p : Params) {line : List Byte} (h : ∀ b ∈ line, storable b = true) :
    wellFormed p (decodeLine p line) = true := by
  cases line with
  | nil => rfl
  | cons tag cs =>
    have hpayload := parsePayload_wellFormed p cs
    refine wellFormed_ite rfl fun hV => wellFormed_ite rfl fun hP => wellFormed_ite rfl fun hU => wellFormed_ite rfl fun hR =>
      wellFormed_ite hpayload fun hW => wellFormed_ite rfl fun hB => wellFormed_ite rfl fun hN => wellFormed_ite hpayload fun hS =>
      wellFormed_ite rfl fun hT => wellFormed_ite rfl fun hHelp => unrecognized_wellFormed p (h tag List.mem_cons_self) ?_
    simp only [tagBytes, List.mem_cons, List.not_mem_nil, or_false, not_or]
    exact ⟨hV, hP, hU, hR, hW, hB, hN, hS, hT, hHelp⟩

/-! ### A dispatched line -/

/-- A load that fits keeps the Transfer Buffer's capacity and count in range (R38). -/
theorem loadXfer_buffers {data : List Byte} {s : State} (hdata : data.length ≤ s.params.xferCap)
    (hxfer : s.xfer.length = s.params.xferCap) :
    (loadXfer data s).xfer.length = s.params.xferCap ∧ (loadXfer data s).xferN ≤ s.params.xferCap :=
  ⟨overwrite_length hxfer, hdata⟩

/-- A well-formed command leaves the buffers at their capacities (R38, R39). -/
theorem CommandEffect.buffers {i : Instr} {s u : State} (heff : CommandEffect i s u) (hwf : wellFormed s.params i = true)
    (hxfer : s.xfer.length = s.params.xferCap) (hxferN : s.xferN ≤ s.params.xferCap) (hpage : s.page.length = s.params.pageCap) :
    u.xfer.length = s.params.xferCap ∧ u.xferN ≤ s.params.xferCap ∧ u.page.length = s.params.pageCap := by
  rcases heff with rfl | ⟨-, v, w, ⟨es, rfl⟩, rfl⟩ | ⟨a, bs, w, rfl, hbs, ⟨es, rfl⟩, rfl⟩ | ⟨a, data, given, rfl, es, rfl⟩ |
    ⟨-, es, rfl⟩ | ⟨a, rfl, rfl⟩ | ⟨a, data, given, rfl, rfl | ⟨bs, rfl⟩⟩
  · exact ⟨hxfer, hxferN, hpage⟩
  · simp [hxfer, hxferN, hpage]
  · simp [overwrite_length hxfer, hbs, hpage]
  · obtain ⟨hload, hcount⟩ := loadXfer_buffers (data := data) (of_decide_eq_true hwf) hxfer
    exact ⟨hload, hcount, hpage⟩
  · simp [hxfer, hxferN, hpage]
  · exact ⟨hxfer, hxferN, preparedPage_length hpage⟩
  · obtain ⟨hload, hcount⟩ := loadXfer_buffers (data := data) (of_decide_eq_true hwf) hxfer
    exact ⟨hload, hcount, hpage⟩
  · obtain ⟨hload, hcount⟩ := loadXfer_buffers (data := data) (of_decide_eq_true hwf) hxfer
    exact ⟨hload, hcount, (fillPage_length _ _ _ _).trans hpage⟩

/-- Pin events put only chip addresses into the address register (R43, R71). -/
theorem BusActivity.addr_lt {n : Nat} {s u : State} (hu : BusActivity n s u) (h : s.bus.addr.toNat < 2 ^ s.params.addrBits) :
    u.bus.addr.toNat < 2 ^ s.params.addrBits := by
  obtain ⟨es, rfl⟩ := hu
  rw [perform_bus, takeSamples_params]
  exact foldl_addr_lt (by rwa [takeSamples_bus]) es

theorem CommandEffect.addr_lt {i : Instr} {s u : State} (heff : CommandEffect i s u)
    (h : s.bus.addr.toNat < 2 ^ s.params.addrBits) : u.bus.addr.toNat < 2 ^ s.params.addrBits := by
  rcases heff with rfl | ⟨-, v, w, hw, rfl⟩ | ⟨a, bs, w, -, -, hw, rfl⟩ | ⟨a, data, given, -, hu⟩ | ⟨-, hu⟩ | ⟨a, -, rfl⟩ |
    ⟨a, data, given, -, rfl | ⟨bs, rfl⟩⟩
  · exact h
  · exact hw.addr_lt h
  · exact hw.addr_lt h
  · exact hu.addr_lt (s := loadXfer data s) h
  · exact hu.addr_lt h
  · exact h
  · exact h
  · exact h

/-- A chip operation that goes on with the lines deasserted lets its command reply `OK`. -/
theorem replyOk_ends_quiet {r : Except Fault State} (h : ∃ t, r = .ok t ∧ t.bus.quiet) :
    ∃ t, replyOk r = .next t ∧ t.bus.quiet := by
  obtain ⟨t, rfl, hq⟩ := h
  exact ⟨_, rfl, hq⟩

/-- The error paths of W and S make no pin event (R262). -/
theorem withPayload_ends_quiet {arg : PayloadOperand} {run : Word → List Byte → State → Result} {s : State} (h : s.bus.quiet)
    (hrun : ∀ a bs u, u.bus.quiet → ∃ t, run a bs u = .next t ∧ t.bus.quiet) :
    ∃ t, withPayload arg run s = .next t ∧ t.bus.quiet := by
  cases arg with
  | noAddress => exact ⟨_, rfl, h⟩
  | noSeparator => exact ⟨_, rfl, h⟩
  | fields a data given =>
    rw [withPayload]
    split
    · exact ⟨_, rfl, h⟩
    · exact hrun _ _ _ h

/-- From the line invariant every command goes on, to a state with the line invariant (R50, R202). -/
theorem exec_ends_quiet (i : Instr) {s : State} (h : s.bus.quiet) : ∃ t, exec i s = .next t ∧ t.bus.quiet := by
  cases i with
  | version => exact ⟨_, rfl, h⟩
  | protect => exact replyOk_ends_quiet (setSoftwareDataProtection_ends_quiet h)
  | unprotect => exact replyOk_ends_quiet (setSoftwareDataProtection_ends_quiet h)
  | read arg =>
    cases arg with
    | missing => exact ⟨_, rfl, h⟩
    | value a =>
      obtain ⟨bs, u, hread, hq⟩ := bulkRead_ends_quiet (a := a) (n := s.params.xferCap) h
      exact ⟨replyData a (loadXfer bs u), by rw [exec, execRead, hread], hq⟩
  | write arg =>
    rw [exec, execWrite]
    exact withPayload_ends_quiet h fun _ _ _ hu => replyOk_ends_quiet (bulkWrite_ends_quiet hu)
  | erase => exact replyOk_ends_quiet (eraseChip_ends_quiet h)
  | prepare arg =>
    cases arg with
    | missing => exact ⟨_, rfl, h⟩
    | value a => exact ⟨_, rfl, h⟩
  | fill arg =>
    rw [exec, execFill]
    exact withPayload_ends_quiet h fun _ _ _ hu => ⟨_, rfl, hu⟩
  | program => exact replyOk_ends_quiet (programPageBuffer_ends_quiet h)
  | help => exact ⟨_, congrArg Host.Outcome.next (emitAll_eq _ s), h⟩
  | empty => exact ⟨_, rfl, h⟩
  | unrecognized tag => exact ⟨_, rfl, h⟩

/-- A well-formed command keeps the invariant: it leaves the line and the parameters, keeps the buffers' sizes and the address range, ends
with the lines deasserted, and leaves a reply, so that its delay may run. -/
theorem exec_inv {i : Instr} {s : State} (h : s.Inv) (hfsm : s.fsm = .dispatching) (hwf : wellFormed s.params i = true) :
    ∃ t, exec i s = .next t ∧ t.Inv ∧ t.params = s.params := by
  obtain ⟨hok, hline, hlen, hxfer, hxferN, hpage, hbytes, hovf, hquiet, haddr, -, -⟩ := h
  obtain ⟨t, ht, hquiet'⟩ := exec_ends_quiet i hquiet
  obtain ⟨hframe, -⟩ := onlyTheseCommandsChangeEachRegister i s t ht
  simp only [Prod.mk.injEq] at hframe
  obtain ⟨hparams', hfsm', hline', hlen', hovf', -⟩ := hframe
  obtain ⟨u, r, heff, rfl⟩ := exec_effect ht
  obtain ⟨hxfer', hxferN', hpage'⟩ := heff.buffers hwf hxfer hxferN hpage
  have hbytes' : u.lineBytes = s.lineBytes := by rw [State.lineBytes, hline', hlen', State.lineBytes]
  refine ⟨_, ht, ?_, hparams'⟩
  simp only at hparams' hfsm' hline' hlen' hovf'
  simp only [State.Inv, hparams', hfsm', hline', hlen', hovf', hfsm]
  exact ⟨hok, hline, hlen, hxfer', hxferN', hpage', hbytes'.symm ▸ hbytes, hovf, hquiet', heff.addr_lt haddr, nofun, nofun⟩

/-- The overflowed line raises; every other line's instruction is well-formed and runs (R225, R226). -/
theorem dispatch_inv {s : State} (h : s.Inv) (hfsm : s.fsm = .dispatching) :
    ∃ t, dispatch s = .next t ∧ t.Inv ∧ t.params = s.params := by
  obtain ⟨hok, hline, hlen, hxfer, hxferN, hpage, hbytes, hovf, hquiet, haddr, -, -⟩ := id h
  rw [dispatch]
  split
  · have hnotWaiting : s.fsm = .awaitingLine → (raise .lineOverflow s).reply = none := by rw [hfsm]; nofun
    exact ⟨_, rfl, ⟨hok, hline, hlen, hxfer, hxferN, hpage, hbytes, hovf, hquiet, haddr, hnotWaiting, nofun⟩, rfl⟩
  · exact exec_inv h hfsm (decodeLine_wellFormed _ fun b hb => (storable_iff b).mpr (hbytes b hb))

/-! ### Handing the reply over -/

/-- A step of the reply ends the delay, moves or keeps a byte, or starts a new line (R298); each keeps the invariant. -/
theorem sendReply_inv {s : State} {left : List Byte} (h : s.Inv) (hfsm : s.fsm = .dispatching) :
    (sendReply left s).Inv ∧ (sendReply left s).params = s.params := by
  obtain ⟨hok, hline, hlen, hxfer, hxferN, hpage, hbytes, hovf, hquiet, haddr, hreply, htimer⟩ := id h
  simp only [sendReply]
  split
  · exact ⟨⟨hok, hline, hlen, hxfer, hxferN, hpage, hbytes, hovf, hquiet, haddr, hreply, fun _ => rfl⟩, rfl⟩
  · next hidle =>
    split
    · have hempty : ∀ b ∈ (startLine s).lineBytes, Config.ctrlMax < b := by
        rw [lineBytes_of_len_zero (startLine_len s)]
        nofun
      exact ⟨⟨hok, hline, Nat.zero_le _, hxfer, hxferN, hpage, hempty, nofun, hquiet, haddr, fun _ => rfl, fun _ => hidle⟩, rfl⟩
    · next b rest =>
      split
      · have hnotWaiting : s.fsm = .awaitingLine → (handOver b rest s).reply = none := by rw [hfsm]; nofun
        exact ⟨⟨hok, hline, hlen, hxfer, hxferN, hpage, hbytes, hovf, hquiet, haddr, hnotWaiting, nofun⟩, rfl⟩
      · exact ⟨h, rfl⟩

/-! ### One step -/

/-- While `rst` is low every transition of R220 goes on and keeps the invariant. -/
theorem blockStep_inv {s : State} (h : s.Inv) : ∃ t, blockStep s = .next t ∧ t.Inv ∧ t.params = s.params := by
  rw [blockStep]
  split
  · exact ⟨_, rfl, takeByte_inv h⟩
  · next hfsm =>
    split
    · exact dispatch_inv h hfsm
    · exact ⟨_, rfl, sendReply_inv h hfsm⟩

/-- A step that a reset may cut is either whole, with a reset still to come, or ends in the reset (R333). -/
theorem cutStep_inv {k : Nat} {s t : State} (hok : s.params.ok) (ht : t.Inv) (hparams : t.params = s.params) :
    ∃ u, cutStep k s (.next t) = .next u ∧ u.Inv ∧ u.params = s.params := by
  simp only [cutStep]
  split
  · exact ⟨_, rfl, ht, hparams⟩
  · exact ⟨_, rfl, resetBlock_inv hok, rfl⟩

/-- Settles O54: a step is a reset, one transition of the block, or one that a reset may cut. -/
theorem everyStepGoesOnAndKeepsInvariant : Obligations.EveryStepGoesOnAndKeepsInvariant := by
  unfold Obligations.EveryStepGoesOnAndKeepsInvariant
  intro s h
  obtain ⟨t, hstep, ht, hparams⟩ := blockStep_inv h
  rw [step, protocolStep]
  split
  · exact ⟨t, hstep, ht, hparams⟩
  · exact ⟨_, rfl, resetBlock_inv h.1, rfl⟩
  · rw [hstep]
    exact cutStep_inv h.1 ht hparams

end Sys2Proof.Machine
end

section
/-!
PROOF of ChipAddressAliasing (O18) and ConsecutiveAddressesWrap (O19): which chip address a block address has, and which block addresses a
run of cycles sets (20_memory.md R71, R73).
-/

namespace Sys2Proof.Machine

/-! ### Chip addresses (R71) -/

/-- The reduction modulo `2^ADDR_BITS` never leaves the word, also where `ADDR_BITS` is wider than it. -/
theorem chipaddr_toNat_mod (bits : Nat) (v : Word) : (chipaddr bits v).toNat = v.toNat % 2 ^ bits := by
  rw [chipaddr, BitVec.toNat_ofNat]
  exact Nat.mod_eq_of_lt (Nat.lt_of_le_of_lt (Nat.mod_le _ _) v.isLt)

theorem chipaddr_getLsbD (bits : Nat) (v : Word) (j : Nat) : (chipaddr bits v).getLsbD j = (decide (j < bits) && v.getLsbD j) := by
  simp only [BitVec.getLsbD, chipaddr_toNat_mod, Nat.testBit_mod_two_pow]

/-- Settles O18: a chip address is its block address modulo `2^ADDR_BITS`, read once as a number and once bit by bit. -/
theorem chipAddressAliasing : Obligations.ChipAddressAliasing := by
  unfold Obligations.ChipAddressAliasing
  intro bits
  refine ⟨fun v w => ?_, fun v b j => chipaddr_getLsbD bits v j⟩
  rw [← BitVec.toNat_inj, chipaddr_toNat_mod, chipaddr_toNat_mod]

/-! ### The addresses of a run of cycles (R73) -/

@[simp] theorem consecutive_nil (a : Word) : consecutive a [] = [] := rfl

@[simp] theorem consecutive_cons (a : Word) (b : Byte) (bs : List Byte) :
    consecutive a (b :: bs) = (a, b) :: consecutive (a + 1) bs := rfl

theorem addressesOf_append (es fs : List BusEvent) : addressesOf (es ++ fs) = addressesOf es ++ addressesOf fs :=
  List.filterMap_append

/-- A read cycle sets one address. -/
theorem addressesOf_readCycle (p : Params) (a : Word) (v : Byte) : addressesOf (readCycle p a v) = [a] := rfl

/-- A write cycle sets one address. -/
theorem addressesOf_writeCycle (p : Params) (a : Word) (v : Byte) : addressesOf (writeCycle p a v) = [a] := rfl

theorem addressesOf_readTrace (p : Params) (a : Word) (bs : List Byte) :
    addressesOf (readTrace p a bs) = (consecutive a bs).map Prod.fst := by
  induction bs generalizing a with
  | nil => rfl
  | cons b bs ih => rw [readTrace, addressesOf_append, addressesOf_readCycle, ih]; rfl

theorem addressesOf_writeTrace (p : Params) (cs : List (Word × Byte)) : addressesOf (writeTrace p cs) = cs.map Prod.fst := by
  induction cs with
  | nil => rfl
  | cons c cs ih => rw [writeTrace, addressesOf_append, addressesOf_writeCycle, ih]; rfl

theorem consecutive_map_snd (a : Word) (bs : List Byte) : (consecutive a bs).map Prod.snd = bs := by
  induction bs generalizing a with
  | nil => rfl
  | cons b bs ih => rw [consecutive_cons, List.map_cons, ih]

@[simp] theorem consecutive_length (a : Word) (bs : List Byte) : (consecutive a bs).length = bs.length := by
  rw [← List.length_map (f := Prod.snd), consecutive_map_snd]

theorem add_one_add_ofNat (a : Word) (i : Nat) : a + 1 + BitVec.ofNat 16 i = a + BitVec.ofNat 16 (i + 1) := by
  rw [BitVec.add_assoc, Nat.add_comm i 1, BitVec.ofNat_add]
  rfl

/-- The `i`-th address of a run, before its wrap at `2^16` is written out. -/
theorem consecutive_fst_get (a : Word) {bs : List Byte} {i : Nat} (h : i < bs.length) :
    ((consecutive a bs).map Prod.fst)[i]? = some (a + BitVec.ofNat 16 i) := by
  induction bs generalizing a i with
  | nil => exact absurd h (Nat.not_lt_zero i)
  | cons b bs ih =>
    cases i with
    | zero => simp
    | succ i =>
      rw [consecutive_cons, List.map_cons, List.getElem?_cons_succ, ih (a + 1) (Nat.lt_of_succ_lt_succ h), add_one_add_ofNat]

theorem add_ofNat_toNat (a : Word) (i : Nat) : (a + BitVec.ofNat 16 i).toNat = (a.toNat + i) % 65536 := by
  rw [BitVec.toNat_add, BitVec.toNat_ofNat, Nat.add_mod_mod]

/-- The wrap of a block address does not show in its chip address, because `ADDR_BITS` is at most 16 (R10, R11). -/
theorem chipaddr_add_toNat {bits : Nat} (h : bits ≤ 16) (a : Word) (i : Nat) :
    (chipaddr bits (a + BitVec.ofNat 16 i)).toNat = (a.toNat + i) % 2 ^ bits := by
  rw [chipaddr_toNat_mod, add_ofNat_toNat]
  exact Nat.mod_mod_of_dvd _ (Nat.pow_dvd_pow 2 h)

/-- Settles O19: both runs set the addresses of `consecutive`, of which the `i`-th is `a + i` in 16 bits. -/
theorem consecutiveAddressesWrap : Obligations.ConsecutiveAddressesWrap := by
  unfold Obligations.ConsecutiveAddressesWrap
  intro p a bs hok
  obtain ⟨-, hbits, -⟩ := hok
  rw [addressesOf_writeTrace, addressesOf_readTrace]
  refine ⟨by simp, rfl, consecutive_map_snd a bs, fun i hi => ?_⟩
  exact ⟨_, consecutive_fst_get a hi, add_ofNat_toNat a i, chipaddr_add_toNat hbits a i⟩

end Sys2Proof.Machine
end

section
/-!
SUPPORT. Whether a chip operation goes on, from any bus state: its first SetDir decides it, and every later precondition holds then
(41_bus_sequencer.md R163 to R165, R168). Input may be set with OE asserted, Output may not.
-/

namespace Sys2Proof.Machine

theorem quiet_iff_dirReady_output {b : BusRegs} : b.quiet ↔ dirReady .output b = true := by
  simp [dirReady, and_assoc, and_comm (a := b.oe = false)]

/-- The state with OE deasserted, from which a bulkRead does the same. -/
def releaseOe (s : State) : State := { s with bus := { s.bus with oe := false } }

theorem releaseOe_quiet {s : State} (h : dirReady .input s.bus = true) : (releaseOe s).bus.quiet := by
  simpa [dirReady, releaseOe, BusRegs.quiet] using h

/-- A bulkRead asserts OE before its first cycle, so that it does not matter whether it was asserted before. -/
theorem bulkRead_releaseOe {a : Word} {n : Nat} {s : State} (h : dirReady .input s.bus = true) :
    bulkRead a n s = bulkRead a n (releaseOe s) := by
  rw [bulkRead, bulkRead, setDataLinesDirection_ok h, setDataLinesDirection_ok (dirReady_of_quiet (releaseOe_quiet h))]
  rfl

/-- The bytes sampled next depend on what the chip drives and on nothing else of the state. -/
theorem samplesAhead_congr (n : Nat) {s u : State} (hin : u.eepIn = s.eepIn) (hcount : u.samples = s.samples) :
    samplesAhead n u = samplesAhead n s := by
  induction n generalizing s u with
  | zero => rfl
  | succ n ih =>
    have hnext : u.nextSample = s.nextSample := by rw [State.nextSample, State.nextSample, hin, hcount]
    have hrest : samplesAhead n (takeSample u) = samplesAhead n (takeSample s) :=
      ih (congrArg List.tail hin) (congrArg (· + 1) hcount)
    rw [samplesAhead, samplesAhead, hnext, hrest]

theorem bulkRead_fault {a : Word} {n : Nat} {s : State} (h : dirReady .input s.bus = false) :
    bulkRead a n s = .error .busPrecondition := by
  rw [bulkRead, setDataLinesDirection_fault h]

theorem bulkRead_eq (a : Word) (n : Nat) (s : State) :
    bulkRead a n s =
      if dirReady .input s.bus = true then
        .ok (samplesAhead n s, perform (bulkReadTrace s.params a (samplesAhead n s)) (takeSamples n s))
      else .error .busPrecondition := by
  by_cases h : dirReady .input s.bus = true
  · rw [if_pos h]
    have hbytes : samplesAhead n (releaseOe s) = samplesAhead n s := samplesAhead_congr n rfl rfl
    rw [bulkRead_releaseOe h, bulkRead_ok (releaseOe_quiet h), hbytes, takeSamples_eq, takeSamples_eq]
    rfl
  · rw [if_neg h]
    exact bulkRead_fault (Bool.eq_false_iff.mpr h)

theorem execRead_eq (a : Word) (s : State) :
    execRead (.value a) s =
      if dirReady .input s.bus = true then
        .next (replyData a (loadXfer (samplesAhead s.params.xferCap s)
          (perform (bulkReadTrace s.params a (samplesAhead s.params.xferCap s)) (takeSamples s.params.xferCap s))))
      else .fault .busPrecondition := by
  rw [execRead, bulkRead_eq]
  by_cases h : dirReady .input s.bus = true
  · rw [if_pos h, if_pos h]
  · rw [if_neg h, if_neg h]

/-- The pin events of a change of the protection (R192, R193): one bulkRead of byte 0, the sequence, the trailing write. -/
def protectionTrace (s : State) (enable : Bool) : List BusEvent :=
  bulkReadTrace s.params s.params.sdpRestoreAddr [s.nextSample] ++
    outputTrace s.params (sdpCycles s.params enable ++ [(s.params.sdpRestoreAddr, s.nextSample)])

theorem setSoftwareDataProtection_eq (enable : Bool) (s : State) :
    setSoftwareDataProtection enable s =
      if dirReady .input s.bus = true then
        .ok { perform (protectionTrace s enable) (takeSample s) with sdpSaved := s.nextSample }
      else .error .busPrecondition := by
  by_cases h : dirReady .input s.bus = true
  · rw [if_pos h]
    have hsave : saveByteZero s = saveByteZero (releaseOe s) := by
      rw [saveByteZero, saveByteZero, bulkRead_releaseOe h]
      rfl
    have hop : setSoftwareDataProtection enable s = setSoftwareDataProtection enable (releaseOe s) := by
      rw [setSoftwareDataProtection, setSoftwareDataProtection, hsave]
    rw [hop, setSoftwareDataProtection_ok (releaseOe_quiet h)]
    rfl
  · rw [if_neg h, setSoftwareDataProtection, saveByteZero, bulkRead_fault (Bool.eq_false_iff.mpr h)]

theorem outputCycles_eq (cs : List (Word × Byte)) (s : State) :
    outputCycles cs s =
      if dirReady .output s.bus = true then .ok (perform (outputTrace s.params cs) s) else .error .busPrecondition := by
  by_cases h : dirReady .output s.bus = true
  · rw [if_pos h]
    exact outputCycles_ok (quiet_iff_dirReady_output.mpr h)
  · rw [if_neg h, outputCycles, setDataLinesDirection_fault (Bool.eq_false_iff.mpr h)]

theorem programPageBuffer_fault {s : State} (h : dirReady .output s.bus = false) :
    programPageBuffer s = .error .busPrecondition := by
  rw [programPageBuffer, bulkWrite, outputCycles_eq, h]
  rfl

end Sys2Proof.Machine
end

section
/-!
PROOF of BusCyclesPerCommand (O38): which pin events a command makes from deasserted lines, and how many of them are read and write cycles
(20_memory.md R80).
-/

namespace Sys2Proof.Machine

/-! ### The events a step added -/

theorem newEvents_of_history {s t : State} {es : List PortEvent} (h : t.history = s.history ++ es) : newEvents s t = es :=
  (congrArg (List.drop s.history.length) h).trans List.drop_left

theorem newPins_of_history {s t : State} {es : List BusEvent} (h : t.history = s.history ++ es.map .pin) : newPins s t = es :=
  calc newPins s t
    _ = (es.map PortEvent.pin).filterMap pinOf := congrArg (List.filterMap pinOf) (newEvents_of_history h)
    _ = es.filterMap some := List.filterMap_map
    _ = es := List.filterMap_some

/-! ### The write cycles among pin events (R165) -/

theorem writesOf_append (bits : Nat) (b : BusRegs) (es fs : List BusEvent) :
    writesOf bits b (es ++ fs) = writesOf bits b es ++ writesOf bits (es.foldl (applyEvent bits) b) fs := by
  induction es generalizing b with
  | nil => rfl
  | cons e es ih =>
    simp only [List.cons_append, writesOf, ih, List.foldl_cons]
    split
    · rfl
    · rfl

/-- A read cycle has no WE pulse. -/
theorem writesOf_readCycle (p : Params) (bits : Nat) (b : BusRegs) (a : Word) (v : Byte) :
    writesOf bits b (readCycle p a v) = [] := rfl

/-- A write cycle stores its byte at its chip address, whatever the lines were before it. -/
theorem writesOf_writeCycle (p : Params) (bits : Nat) (b : BusRegs) (a : Word) (v : Byte) :
    writesOf bits b (writeCycle p a v) = [(chipaddr bits a, v)] := rfl

theorem writesOf_readTrace (p : Params) (bits : Nat) (b : BusRegs) (a : Word) (bs : List Byte) :
    writesOf bits b (readTrace p a bs) = [] := by
  induction bs generalizing a b with
  | nil => rfl
  | cons v bs ih => rw [readTrace, writesOf_append, writesOf_readCycle, ih, List.append_nil]

theorem writesOf_writeTrace (p : Params) (bits : Nat) (b : BusRegs) (cs : List (Word × Byte)) :
    writesOf bits b (writeTrace p cs) = cs.map fun c => (chipaddr bits c.1, c.2) := by
  induction cs generalizing b with
  | nil => rfl
  | cons c cs ih => rw [writeTrace, writesOf_append, writesOf_writeCycle, ih, List.map_cons, List.singleton_append]

/-! ### Counting cycles -/

/-- How many read cycles, each of which samples once (R164), and how many write cycles these pin events hold, from the bus state before
them. -/
def cycles (bits : Nat) (b : BusRegs) (es : List BusEvent) : Nat × Nat :=
  ((es.map PortEvent.pin).countP isSample, (writesOf bits b es).length)

theorem cycles_append (bits : Nat) (b : BusRegs) (es fs : List BusEvent) :
    cycles bits b (es ++ fs) = cycles bits b es + cycles bits (es.foldl (applyEvent bits) b) fs :=
  Prod.ext ((congrArg (List.countP isSample) List.map_append).trans List.countP_append)
    ((congrArg List.length (writesOf_append bits b es fs)).trans List.length_append)

theorem cycles_readTrace (p : Params) (bits : Nat) (b : BusRegs) (a : Word) (bs : List Byte) :
    cycles bits b (readTrace p a bs) = (bs.length, 0) := by
  induction bs generalizing a b with
  | nil => rfl
  | cons v bs ih =>
    have hcycle : cycles bits b (readCycle p a v) = (1, 0) := rfl
    rw [readTrace, cycles_append, hcycle, ih, Prod.mk_add_mk, Nat.add_comm, List.length_cons]

theorem cycles_writeTrace (p : Params) (bits : Nat) (b : BusRegs) (cs : List (Word × Byte)) :
    cycles bits b (writeTrace p cs) = (0, cs.length) := by
  induction cs generalizing b with
  | nil => rfl
  | cons c cs ih =>
    have hcycle : cycles bits b (writeCycle p c.1 c.2) = (0, 1) := rfl
    rw [writeTrace, cycles_append, hcycle, ih, Prod.mk_add_mk, Nat.add_comm 1, List.length_cons]

/-- The events around the read cycles of a bulkRead are no cycles (R190). -/
theorem cycles_bulkReadTrace (p : Params) (bits : Nat) (b : BusRegs) (a : Word) (bs : List Byte) :
    cycles bits b (bulkReadTrace p a bs) = (bs.length, 0) := by
  rw [bulkReadTrace, cycles_append, cycles_append, cycles_readTrace]
  exact Prod.ext (Nat.zero_add _) rfl

/-- SetDir(Output) is no cycle (R191). -/
theorem cycles_outputTrace (p : Params) (bits : Nat) (b : BusRegs) (cs : List (Word × Byte)) :
    cycles bits b (outputTrace p cs) = (0, cs.length) :=
  cycles_writeTrace p bits (applyEvent bits b (.setDir .output)) cs

/-! ### Sequence lengths (R196) -/

theorem sequenceCycles_length {p : Params} {addrs : List UnlockAddr} {bytes : List Byte} (h : addrs.length = bytes.length) :
    (sequenceCycles p addrs bytes).length = bytes.length := by
  rw [sequenceCycles, List.length_zipWith, h, Nat.min_self]

theorem sdpCycles_length {p : Params} (h : p.ok) (enable : Bool) :
    (sdpCycles p enable).length = if enable then p.seqSdpEnable.length else p.seqSdpDisable.length := by
  obtain ⟨-, -, -, -, -, -, -, -, -, -, -, -, hDisable, hEnable, -⟩ := h
  cases enable with
  | true => exact sequenceCycles_length hEnable
  | false => exact sequenceCycles_length hDisable

theorem eraseCycles_length {p : Params} (h : p.ok) : (eraseCycles p).length = p.seqErase.length := by
  obtain ⟨-, -, -, -, -, -, -, -, -, -, -, -, -, -, hErase⟩ := h
  exact sequenceCycles_length hErase

/-! ### The pin events of each command -/

/-- The pin events of a command that does not end in an error, from deasserted lines (R250 to R260). -/
def commandTrace (s : State) : Instr → List BusEvent
  | .protect => protectionTrace s true
  | .unprotect => protectionTrace s false
  | .read (.value a) => bulkReadTrace s.params a (samplesAhead s.params.xferCap s)
  | .write (.fields a data _) => outputTrace s.params (consecutive a data)
  | .erase => outputTrace s.params (eraseCycles s.params)
  | .program => outputTrace s.params (consecutive s.base s.page) ++ [.wait s.params.tPageMin]
  | .read .missing => []
  | .write .noAddress => []
  | .write .noSeparator => []
  | .version => []
  | .prepare _ => []
  | .fill _ => []
  | .help => []
  | .empty => []
  | .unrecognized _ => []

/-- The pin events of any command from deasserted lines: none where it ends in an error (R264). -/
def pinsOf (i : Instr) (s : State) : List BusEvent := if raisesError i = none then commandTrace s i else []

theorem pinsOf_of_runs {i : Instr} (h : raisesError i = none) (s : State) : pinsOf i s = commandTrace s i := if_pos h

theorem pinsOf_of_error {i : Instr} {e : ErrorKind} (h : raisesError i = some e) (s : State) : pinsOf i s = [] :=
  if_neg (Option.isSome_iff_ne_none.mp (Option.isSome_of_eq_some h))

/-- N makes no pin event, with or without its operand. -/
@[simp] theorem pinsOf_prepare (arg : AddrOperand) (s : State) : pinsOf (.prepare arg) s = [] := ite_self _

/-- S makes no pin event, whether it ends in an error or not. -/
@[simp] theorem pinsOf_fill (arg : PayloadOperand) (s : State) : pinsOf (.fill arg) s = [] := ite_self _

/-! ### W and S with all their fields (R262) -/

/-- An error of W is its checksum comparison, made on the bytes of the instruction. -/
theorem raisesError_write_fields (a : Word) (data : List Byte) (given : Option Byte) :
    raisesError (.write (.fields a data given)) =
      (checksumMismatch given data).map fun gc => .checksumMismatch gc.1 gc.2 := by
  cases given with
  | none => rfl
  | some g =>
    rw [raisesError, checksumMismatch]
    by_cases h : g = xorsum data
    · simp [h]
    · simp [h]

section WithPayload

variable {a : Word} {data : List Byte} {given : Option Byte} {run : Word → List Byte → State → Result} {s : State}

/-- W and S with all fields: the bytes are loaded, and their checksum decides between the raise and the command's own work. -/
theorem withPayload_fields :
    withPayload (.fields a data given) run s =
      (checksumMismatch given (data.take s.params.xferCap)).elim (run a (data.take s.params.xferCap) (loadXfer data s))
        fun gc => .next (raise (.checksumMismatch gc.1 gc.2) (loadXfer data s)) := by
  simp only [withPayload, loadXfer_xferBytes]
  cases checksumMismatch given (data.take s.params.xferCap) with
  | none => rfl
  | some gc => rfl

/-- With a wrong checksum the error is raised. -/
theorem withPayload_mismatch {gc : Byte × Byte} (hfits : data.length ≤ s.params.xferCap)
    (hsum : checksumMismatch given data = some gc) :
    withPayload (.fields a data given) run s = .next (raise (.checksumMismatch gc.1 gc.2) (loadXfer data s)) := by
  rw [withPayload_fields, List.take_of_length_le hfits, hsum, Option.elim_some]

/-- With no wrong checksum the command goes on with exactly the bytes of the instruction. -/
theorem withPayload_match (hfits : data.length ≤ s.params.xferCap) (hsum : checksumMismatch given data = none) :
    withPayload (.fields a data given) run s = run a data (loadXfer data s) := by
  rw [withPayload_fields, List.take_of_length_le hfits, hsum, Option.elim_none]

end WithPayload

/-! ### From deasserted lines a well-formed command goes on and adds exactly its pin events -/

theorem execRead_pins (a : Word) {s : State} (hquiet : s.bus.quiet) :
    ∃ t, execRead (.value a) s = .next t ∧
      t.history = s.history ++ (bulkReadTrace s.params a (samplesAhead s.params.xferCap s)).map .pin := by
  rw [execRead_eq, if_pos (dirReady_of_quiet hquiet)]
  exact ⟨_, rfl, congrArg (· ++ _) (takeSamples_history _ s)⟩

theorem execWrite_pins (a : Word) {data : List Byte} (given : Option Byte) {s : State} (hfits : data.length ≤ s.params.xferCap)
    (hquiet : s.bus.quiet) :
    ∃ t, execWrite (.fields a data given) s = .next t ∧
      t.history = s.history ++ (pinsOf (.write (.fields a data given)) s).map .pin := by
  have herror := raisesError_write_fields a data given
  cases hsum : checksumMismatch given data with
  | some gc =>
    rw [hsum] at herror
    rw [pinsOf_of_error herror]
    exact ⟨_, withPayload_mismatch hfits hsum, (List.append_nil _).symm⟩
  | none =>
    rw [hsum] at herror
    rw [pinsOf_of_runs herror]
    have hwrite := bulkWrite_ok (a := a) (bs := data) (s := loadXfer data s) hquiet
    exact ⟨_, (withPayload_match hfits hsum).trans (congrArg replyOk hwrite), rfl⟩

theorem execFill_history (a : Word) {data : List Byte} (given : Option Byte) {s : State} (hfits : data.length ≤ s.params.xferCap) :
    ∃ t, execFill (.fields a data given) s = .next t ∧ t.history = s.history := by
  cases hsum : checksumMismatch given data with
  | some gc => exact ⟨_, withPayload_mismatch hfits hsum, rfl⟩
  | none => exact ⟨_, withPayload_match hfits hsum, rfl⟩

theorem exec_pins {i : Instr} {s : State} (hwf : wellFormed s.params i = true) (hquiet : s.bus.quiet) :
    ∃ t, exec i s = .next t ∧ t.history = s.history ++ (pinsOf i s).map .pin := by
  have hnone : s.history = s.history ++ List.map .pin [] := (List.append_nil _).symm
  cases i with
  | version => exact ⟨_, rfl, hnone⟩
  | protect => exact ⟨_, congrArg replyOk (setSoftwareDataProtection_ok hquiet), rfl⟩
  | unprotect => exact ⟨_, congrArg replyOk (setSoftwareDataProtection_ok hquiet), rfl⟩
  | read arg =>
    cases arg with
    | missing => exact ⟨_, rfl, hnone⟩
    | value a => exact execRead_pins a hquiet
  | write arg =>
    cases arg with
    | noAddress => exact ⟨_, rfl, hnone⟩
    | noSeparator => exact ⟨_, rfl, hnone⟩
    | fields a data given => exact execWrite_pins a given (of_decide_eq_true hwf) hquiet
  | erase => exact ⟨_, congrArg replyOk (eraseChip_ok hquiet), rfl⟩
  | prepare arg =>
    rw [pinsOf_prepare]
    cases arg with
    | missing => exact ⟨_, rfl, hnone⟩
    | value a => exact ⟨_, rfl, hnone⟩
  | fill arg =>
    rw [pinsOf_fill, ← hnone]
    cases arg with
    | noAddress => exact ⟨_, rfl, rfl⟩
    | noSeparator => exact ⟨_, rfl, rfl⟩
    | fields a data given => exact execFill_history a given (of_decide_eq_true hwf)
  | program => exact ⟨_, congrArg replyOk (programPageBuffer_ok hquiet), rfl⟩
  | help => exact ⟨_, congrArg Host.Outcome.next (emitAll_eq _ s), hnone⟩
  | empty => exact ⟨_, rfl, hnone⟩
  | unrecognized tag => exact ⟨_, rfl, hnone⟩

/-! ### The table of R80 -/

/-- One read of byte 0, and one write cycle more than the sequence has bytes. -/
theorem cycles_protectionTrace {s : State} (hok : s.params.ok) (enable : Bool) (b : BusRegs) :
    cycles s.params.addrBits b (protectionTrace s enable) =
      (1, (if enable then s.params.seqSdpEnable.length else s.params.seqSdpDisable.length) + 1) := by
  refine (cycles_append _ b _ _).trans ?_
  rw [cycles_bulkReadTrace, cycles_outputTrace, List.length_append, sdpCycles_length hok]
  exact Prod.ext rfl (Nat.zero_add _)

/-- A command that runs makes the cycles of its row. -/
theorem cycles_commandTrace {i : Instr} {s : State} (hok : s.params.ok) (hpage : s.page.length = s.params.pageCap)
    (hruns : raisesError i = none) (b : BusRegs) :
    cycles s.params.addrBits b (commandTrace s i) = cycleCounts s.params i := by
  cases i with
  | version => rfl
  | protect => exact cycles_protectionTrace hok true b
  | unprotect => exact cycles_protectionTrace hok false b
  | read arg =>
    cases arg with
    | missing => cases hruns
    | value a => exact (cycles_bulkReadTrace _ _ b a _).trans (congrArg (·, 0) (samplesAhead_length _ s))
  | write arg =>
    cases arg with
    | noAddress => rfl
    | noSeparator => rfl
    | fields a data given => exact (cycles_outputTrace _ _ b _).trans (congrArg (0, ·) (consecutive_length a data))
  | erase => exact (cycles_outputTrace _ _ b _).trans (congrArg (0, ·) (eraseCycles_length hok))
  | prepare arg => rfl
  | fill arg => rfl
  | program =>
    have hwrites := cycles_outputTrace s.params s.params.addrBits b (consecutive s.base s.page)
    rw [consecutive_length, hpage] at hwrites
    exact (cycles_append _ b _ _).trans (congrArg (· + (0, 0)) hwrites)
  | help => rfl
  | empty => rfl
  | unrecognized tag => rfl

theorem cycles_pinsOf (i : Instr) {s : State} (hok : s.params.ok) (hpage : s.page.length = s.params.pageCap) (b : BusRegs) :
    cycles s.params.addrBits b (pinsOf i s) = if raisesError i = none then cycleCounts s.params i else (0, 0) := by
  rw [pinsOf]
  split
  · next hruns => exact cycles_commandTrace hok hpage hruns b
  · rfl

/-- An overflowed line runs no handler (R225). -/
theorem dispatch_overflowed {s : State} (h : s.ovf = true) : dispatch s = .next (raise .lineOverflow s) := if_pos h

/-- Settles O38: the new events are `pinsOf`, whose cycles are counted command by command; the rest is the table at the defaults. -/
theorem busCyclesPerCommand : Obligations.BusCyclesPerCommand := by
  unfold Obligations.BusCyclesPerCommand
  refine ⟨fun i s hwf hok hpage hquiet => ?_, fun s hovf => ?_, fun a => rfl, fun a data g => rfl, rfl, rfl, rfl, rfl, ?_⟩
  · obtain ⟨t, ht, hpins⟩ := exec_pins hwf hquiet
    refine ⟨t, ht, ?_⟩
    rw [newEvents_of_history hpins, newPins_of_history hpins]
    exact cycles_pinsOf i hok hpage s.bus
  · exact ⟨_, dispatch_overflowed hovf, newEvents_of_history (List.append_nil _).symm⟩
  · rintro i (hi | ⟨arg, rfl⟩ | ⟨arg, rfl⟩)
    · simp only [List.mem_cons, List.not_mem_nil, or_false] at hi
      rcases hi with rfl | rfl | rfl
      · rfl
      · rfl
      · rfl
    · rfl
    · rfl

end Sys2Proof.Machine
end

section
/-!
PROOF of TransferBufferCarriesNothing (O36) and PageBufferIsOnlyStaging (O37): two runs of one command from states that differ only in
what the command must not depend on (20_memory.md R92, R93). They are compared operation by operation, for any relation between states that
the operations keep; the bus registers alone decide whether a command goes on.
-/

namespace Sys2Proof.Machine

/-! ### Relations that operations keep -/

/-- Related states have the same parameters, bus registers and reply, and what replies, pin events and the buffer operations make of them is
related again. -/
def Alike (same : State → State → Prop) : Prop :=
  ∀ s u, same s u →
    (u.params = s.params ∧ u.bus = s.bus ∧ u.reply = s.reply) ∧
    (∀ r, same { s with reply := r } { u with reply := r }) ∧
    (∀ es, same (perform es s) (perform es u)) ∧
    (∀ bs, same (loadXfer bs s) (loadXfer bs u)) ∧
    (∀ a, same (preparePageBuffer a s) (preparePageBuffer a u)) ∧
    ∀ o bs, same (fillPageBuffer o bs s) (fillPageBuffer o bs u)

/-- Related states see the same bytes of the chip, and a sample, and what P and U save of it, keep the relation. -/
def SamplesAlike (same : State → State → Prop) : Prop :=
  ∀ s u, same s u →
    (u.eepIn = s.eepIn ∧ u.samples = s.samples) ∧
    same (takeSample s) (takeSample u) ∧
    ∀ v, same { s with sdpSaved := v } { u with sdpSaved := v }

/-- The commands that sample what the chip drives (R251 to R253). -/
def Samples (i : Instr) : Prop := i = .protect ∨ i = .unprotect ∨ ∃ a, i = .read (.value a)

section Lockstep

variable {same : State → State → Prop} {s u : State}

theorem Alike.params (h : Alike same) (hsu : same s u) : u.params = s.params := by
  obtain ⟨⟨hparams, -, -⟩, -⟩ := h s u hsu
  exact hparams

theorem Alike.bus (h : Alike same) (hsu : same s u) : u.bus = s.bus := by
  obtain ⟨⟨-, hbus, -⟩, -⟩ := h s u hsu
  exact hbus

theorem Alike.perform (h : Alike same) (hsu : same s u) (es : List BusEvent) : same (perform es s) (perform es u) := by
  obtain ⟨-, -, hperform, -⟩ := h s u hsu
  exact hperform es

theorem Alike.loadXfer (h : Alike same) (hsu : same s u) (bs : List Byte) : same (loadXfer bs s) (loadXfer bs u) := by
  obtain ⟨-, -, -, hload, -⟩ := h s u hsu
  exact hload bs

theorem Alike.prepare (h : Alike same) (hsu : same s u) (a : Word) : same (preparePageBuffer a s) (preparePageBuffer a u) := by
  obtain ⟨-, -, -, -, hprepare, -⟩ := h s u hsu
  exact hprepare a

theorem Alike.fill (h : Alike same) (hsu : same s u) (o : Word) (bs : List Byte) :
    same (fillPageBuffer o bs s) (fillPageBuffer o bs u) := by
  obtain ⟨-, -, -, -, -, hfill⟩ := h s u hsu
  exact hfill o bs

/-! ### Replies -/

theorem Alike.replied (h : Alike same) (hsu : same s u) (ls : List (List Byte)) :
    same { s with reply := s.replied ls } { u with reply := u.replied ls } := by
  obtain ⟨⟨hparams, -, hreply⟩, hset, -⟩ := h s u hsu
  have hreplied : u.replied ls = s.replied ls := by
    rw [State.replied, State.replied, State.replyBytes, State.replyBytes, hreply, hparams]
  rw [hreplied]
  exact hset _

/-- Lines that the parameters determine are the same in both runs. -/
theorem Alike.emitAll (h : Alike same) (hsu : same s u) (ls : Params → List (List Byte)) :
    same (emitAll (ls s.params) s) (emitAll (ls u.params) u) := by
  rw [h.params hsu, emitAll_eq, emitAll_eq]
  exact h.replied hsu _

theorem Alike.emit (h : Alike same) (hsu : same s u) (l : Params → List Byte) :
    same (emit (l s.params) s) (emit (l u.params) u) := by
  rw [h.params hsu, emit_eq, emit_eq]
  exact h.replied hsu _

theorem Alike.emitOk (h : Alike same) (hsu : same s u) : same (Machine.emit okLine s) (Machine.emit okLine u) :=
  h.emit hsu fun _ => okLine

theorem Alike.raise (h : Alike same) (hsu : same s u) (e : ErrorKind) : same (raise e s) (raise e u) :=
  h.emit hsu fun p => errorLine p e

theorem Alike.finish (h : Alike same) (hsu : same s u) : same (finish s) (finish u) :=
  h.emitAll hsu fun _ => []

/-! ### Outcomes decided by one condition -/

theorem outcomesAgree_ite {c : Prop} [Decidable c] {f : Fault} (h : same s u) :
    outcomesAgree same (if c then .next s else .fault f) (if c then .next u else .fault f) := by
  by_cases hc : c
  · rw [if_pos hc, if_pos hc]
    exact h
  · rw [if_neg hc, if_neg hc]
    rfl

theorem outcomesAgree_replyOk_ite {c : Prop} [Decidable c] {f : Fault} (h : same (emit okLine s) (emit okLine u)) :
    outcomesAgree same (replyOk (if c then .ok s else .error f)) (replyOk (if c then .ok u else .error f)) := by
  rw [apply_ite replyOk, apply_ite replyOk]
  exact outcomesAgree_ite h

/-! ### Commands -/

theorem replyOk_outputCycles_alike (h : Alike same) (hsu : same s u) (cs : Params → List (Word × Byte)) :
    outcomesAgree same (replyOk (outputCycles (cs s.params) s)) (replyOk (outputCycles (cs u.params) u)) := by
  rw [outputCycles_eq, outputCycles_eq, h.bus hsu, h.params hsu]
  exact outcomesAgree_replyOk_ite (h.emitOk (h.perform hsu _))

/-- T lets the Page Buffer and the Base Address out, so that here they have to agree (R92, R258). -/
theorem execProgram_alike (h : Alike same) (hsu : same s u) (hpage : u.page = s.page) (hbase : u.base = s.base) :
    outcomesAgree same (execProgram s) (execProgram u) := by
  have hbus := h.bus hsu
  rw [execProgram, execProgram]
  cases hready : dirReady .output s.bus with
  | false =>
    rw [programPageBuffer_fault hready, programPageBuffer_fault (hbus ▸ hready)]
    rfl
  | true =>
    have hquiet := quiet_iff_dirReady_output.mpr hready
    rw [programPageBuffer_ok hquiet, programPageBuffer_ok (hbus ▸ hquiet), h.params hsu, hpage, hbase]
    exact h.emitOk (h.perform hsu _)

theorem SamplesAlike.samplesAhead (hsamples : SamplesAlike same) (hsu : same s u) (n : Nat) :
    samplesAhead n u = samplesAhead n s := by
  obtain ⟨⟨hin, hcount⟩, -⟩ := hsamples s u hsu
  exact samplesAhead_congr n hin hcount

theorem SamplesAlike.takeSamples (hsamples : SamplesAlike same) (hsu : same s u) (n : Nat) :
    same (takeSamples n s) (takeSamples n u) := by
  induction n generalizing s u with
  | zero => exact hsu
  | succ n ih =>
    obtain ⟨-, htake, -⟩ := hsamples s u hsu
    exact ih htake

theorem replyOk_setSoftwareDataProtection_alike (h : Alike same) (hsamples : SamplesAlike same) (hsu : same s u) (enable : Bool) :
    outcomesAgree same (replyOk (setSoftwareDataProtection enable s)) (replyOk (setSoftwareDataProtection enable u)) := by
  have hnext : u.nextSample = s.nextSample := List.head_eq_of_cons_eq (hsamples.samplesAhead hsu 1)
  rw [setSoftwareDataProtection_eq, setSoftwareDataProtection_eq, protectionTrace, protectionTrace, h.bus hsu, h.params hsu, hnext]
  obtain ⟨-, -, hsave⟩ := hsamples _ _ (h.perform (hsamples.takeSamples hsu 1) (protectionTrace s enable))
  exact outcomesAgree_replyOk_ite (h.emitOk (hsave _))

theorem replyData_alike (h : Alike same) {bs : List Byte} (hsu : same s u) (a : Word) :
    same (replyData a (loadXfer bs s)) (replyData a (loadXfer bs u)) := by
  rw [replyData, replyData, loadXfer_xferBytes, loadXfer_xferBytes, h.params hsu]
  exact h.emitOk (h.emit (h.loadXfer hsu bs) fun _ => dataLine a (bs.take s.params.xferCap))

theorem execRead_alike (h : Alike same) (hsamples : SamplesAlike same) (hsu : same s u) (a : Word) :
    outcomesAgree same (execRead (.value a) s) (execRead (.value a) u) := by
  rw [execRead_eq, execRead_eq, h.bus hsu, h.params hsu, hsamples.samplesAhead hsu]
  exact outcomesAgree_ite (replyData_alike h (h.perform (hsamples.takeSamples hsu _) _) a)

/-- W and S run on the bytes of the instruction, cut to the Transfer Buffer, and not on what was in it before (R93, R262). -/
theorem withPayload_alike (h : Alike same) (hsu : same s u) {arg : PayloadOperand} {run : Word → List Byte → State → Result}
    (hrun : ∀ a bs {s u}, same s u → outcomesAgree same (run a bs s) (run a bs u)) :
    outcomesAgree same (withPayload arg run s) (withPayload arg run u) := by
  cases arg with
  | noAddress => exact h.raise hsu .malformed
  | noSeparator => exact h.raise hsu .malformed
  | fields a data given =>
    have hload := h.loadXfer hsu data
    rw [withPayload_fields, withPayload_fields, h.params hsu]
    cases checksumMismatch given (data.take s.params.xferCap) with
    | none => exact hrun a _ hload
    | some gc => exact h.raise hload _

/-- Two runs of a command from related states stop alike or go on to related states. -/
theorem exec_alike {i : Instr} (h : Alike same) (hsamples : Samples i → SamplesAlike same)
    (hprogram : i = .program → u.page = s.page ∧ u.base = s.base) (hsu : same s u) :
    outcomesAgree same (exec i s) (exec i u) := by
  cases i with
  | version => exact h.emit hsu Params.versionString
  | protect => exact replyOk_setSoftwareDataProtection_alike h (hsamples (.inl rfl)) hsu true
  | unprotect => exact replyOk_setSoftwareDataProtection_alike h (hsamples (.inr (.inl rfl))) hsu false
  | read arg =>
    cases arg with
    | missing => exact h.raise hsu .malformed
    | value a => exact execRead_alike h (hsamples (.inr (.inr ⟨a, rfl⟩))) hsu a
  | write arg => exact withPayload_alike h hsu fun a bs _ _ hload => replyOk_outputCycles_alike h hload fun _ => consecutive a bs
  | erase => exact replyOk_outputCycles_alike h hsu eraseCycles
  | prepare arg =>
    cases arg with
    | missing => exact h.raise hsu .malformed
    | value a => exact h.emitOk (h.prepare hsu a)
  | fill arg =>
    exact withPayload_alike (run := fun a bs t => .next (emit okLine (fillPageBuffer a bs t))) h hsu fun a bs _ _ hload =>
      h.emitOk (h.fill hload a bs)
  | program =>
    obtain ⟨hpage, hbase⟩ := hprogram rfl
    exact execProgram_alike h hsu hpage hbase
  | help => exact h.emitAll hsu Params.helpText
  | empty => exact h.finish hsu
  | unrecognized tag => exact h.raise hsu .unrecognized

end Lockstep

/-! ### States that differ only in the Transfer Buffer (R93) -/

def SameButXfer (s u : State) : Prop := u = { s with xfer := u.xfer, xferN := u.xferN }

theorem sameButXfer_alike : Alike SameButXfer := by
  intro s u h
  rw [h]
  exact ⟨⟨rfl, rfl, rfl⟩, fun _ => rfl, fun _ => rfl, fun _ => rfl, fun _ => rfl, fun _ _ => rfl⟩

theorem sameButXfer_samplesAlike : SamplesAlike SameButXfer := by
  intro s u h
  rw [h]
  exact ⟨⟨rfl, rfl⟩, rfl, fun _ => rfl⟩

/-- Settles O36: a load overwrites what it reads back, and no other operation reads the Transfer Buffer. -/
theorem transferBufferCarriesNothing : Obligations.TransferBufferCarriesNothing := by
  unfold Obligations.TransferBufferCarriesNothing
  intro i s x n
  exact exec_alike sameButXfer_alike (fun _ => sameButXfer_samplesAlike) (fun _ => ⟨rfl, rfl⟩)
    (u := { s with xfer := x, xferN := n }) rfl

/-! ### States that differ only in the Page Buffer (R92) -/

def SameButPage (s u : State) : Prop := u = { s with page := u.page }

theorem sameButPage_alike : Alike SameButPage := by
  intro s u h
  rw [h]
  exact ⟨⟨rfl, rfl, rfl⟩, fun _ => rfl, fun _ => rfl, fun _ => rfl, fun _ => rfl, fun _ _ => rfl⟩

theorem sameButPage_samplesAlike : SamplesAlike SameButPage := by
  intro s u h
  rw [h]
  exact ⟨⟨rfl, rfl⟩, rfl, fun _ => rfl⟩

/-! ### States that differ only in what the chip drives (R92) -/

def SameButChip (s u : State) : Prop := u = { s with eepIn := u.eepIn, samples := u.samples }

theorem sameButChip_alike : Alike SameButChip := by
  intro s u h
  rw [h]
  exact ⟨⟨rfl, rfl, rfl⟩, fun _ => rfl, fun _ => rfl, fun _ => rfl, fun _ => rfl, fun _ _ => rfl⟩

/-- What must not depend on the chip. -/
def SamePage (s u : State) : Prop := s.page = u.page ∧ s.base = u.base

theorem SameButChip.samePage {s u : State} (h : SameButChip s u) : SamePage s u := by
  rw [h]
  exact ⟨rfl, rfl⟩

/-- Outcomes that agree in more agree in less. -/
theorem outcomesAgree_mono {same weaker : State → State → Prop} (h : ∀ {s u}, same s u → weaker s u) {r q : Result}
    (hagree : outcomesAgree same r q) : outcomesAgree weaker r q := by
  cases r with
  | next t =>
    cases q with
    | next u => exact h hagree
    | fault g => exact hagree
    | refused g => exact hagree
  | fault f => cases q <;> exact hagree
  | refused f => cases q <;> exact hagree

section Chip

variable {s u : State}

/-- P and U stop alike whatever they sample, and it reaches neither page nor base. -/
theorem replyOk_setSoftwareDataProtection_samePage (hbus : u.bus = s.bus) (hsame : SamePage s u) (enable : Bool) :
    outcomesAgree SamePage (replyOk (setSoftwareDataProtection enable s)) (replyOk (setSoftwareDataProtection enable u)) := by
  rw [setSoftwareDataProtection_eq, setSoftwareDataProtection_eq, hbus]
  exact outcomesAgree_replyOk_ite hsame

/-- R stops alike whatever it samples, and it reaches neither page nor base. -/
theorem execRead_samePage (hbus : u.bus = s.bus) (hsame : SamePage s u) (a : Word) :
    outcomesAgree SamePage (execRead (.value a) s) (execRead (.value a) u) := by
  rw [execRead_eq, execRead_eq, hbus]
  obtain ⟨hpage, hbase⟩ := hsame
  exact outcomesAgree_ite ⟨(takeSamples_page _ s).trans (hpage.trans (takeSamples_page _ u).symm),
    (takeSamples_base _ s).trans (hbase.trans (takeSamples_base _ u).symm)⟩

theorem exec_samePage_of_samples {i : Instr} (hi : Samples i) (hbus : u.bus = s.bus) (hsame : SamePage s u) :
    outcomesAgree SamePage (exec i s) (exec i u) := by
  rcases hi with rfl | rfl | ⟨a, rfl⟩
  · exact replyOk_setSoftwareDataProtection_samePage hbus hsame true
  · exact replyOk_setSoftwareDataProtection_samePage hbus hsame false
  · exact execRead_samePage hbus hsame a

/-- A command that samples keeps its samples from page and base; any other takes none and leaves the chip's bytes as they were. -/
theorem exec_samePage (i : Instr) (h : SameButChip s u) : outcomesAgree SamePage (exec i s) (exec i u) := by
  by_cases hi : Samples i
  · exact exec_samePage_of_samples hi (sameButChip_alike.bus h) h.samePage
  · obtain ⟨hpage, hbase⟩ := h.samePage
    exact outcomesAgree_mono SameButChip.samePage
      (exec_alike sameButChip_alike (fun hs => absurd hs hi) (fun _ => ⟨hpage.symm, hbase.symm⟩) h)

end Chip

/-- Settles O37: T alone reads the page, and no operation writes a sampled byte to the page or the base. -/
theorem pageBufferIsOnlyStaging : Obligations.PageBufferIsOnlyStaging := by
  unfold Obligations.PageBufferIsOnlyStaging
  refine ⟨fun i s p hi => ?_, fun i s d n => ?_⟩
  · exact exec_alike sameButPage_alike (fun _ => sameButPage_samplesAlike) (fun hT => absurd hT hi) (u := { s with page := p }) rfl
  · exact exec_samePage i (u := { s with eepIn := d, samples := n }) rfl

end Sys2Proof.Machine
end

section
/-!
SUPPORT. What the parsers of 30_encoding.md R108 to R111 read from a line that is given field by field, for any bytes: an address field and
what ends it (40_codec.md R141), data pairs and what ends them (44_commands.md R262). The digits that the block prints are one case.
-/

namespace Sys2Proof.Machine

/-! ### The address field (R108) -/

/-- A `':'` ends the field and stays in front of the parse cursor (R141). -/
theorem parseAddrFrom_colon (digits : Nat) (v : Word) (k : Nat) (cs : List Byte) :
    parseAddrFrom digits v k (colon :: cs) = (v, k, colon :: cs) := by
  cases digits with
  | zero => rfl
  | succ n => exact if_pos rfl

/-- Any other character is shifted in as its value, and counted (R141). -/
theorem parseAddrFrom_cons {c : Byte} (hc : c ≠ colon) (digits : Nat) (v : Word) (k : Nat) (cs : List Byte) :
    parseAddrFrom (digits + 1) v k (c :: cs) = parseAddrFrom digits ((v <<< 4) ||| (hexval c).setWidth 16) (k + 1) cs :=
  if_neg hc

/-- An address field ends where `digits` characters are taken, at a `':'`, or with the line. -/
theorem parseAddrFrom_append {digits : Nat} {field rest : List Byte} (v : Word) (k : Nat) (hcolon : colon ∉ field)
    (hlen : field.length ≤ digits) (hend : field.length = digits ∨ rest = [] ∨ rest.head? = some colon) :
    parseAddrFrom digits v k (field ++ rest) = ((parseAddrFrom digits v k field).1, k + field.length, rest) := by
  induction field generalizing digits v k with
  | nil =>
    cases digits with
    | zero => rfl
    | succ n =>
      cases rest with
      | nil => rfl
      | cons c cs =>
        obtain rfl : c = colon := by simpa using hend
        exact parseAddrFrom_colon _ v k cs
  | cons c cs ih =>
    cases digits with
    | zero => exact absurd hlen (Nat.not_succ_le_zero _)
    | succ n =>
      obtain ⟨hc, hcs⟩ : c ≠ colon ∧ colon ∉ cs := by simpa [eq_comm] using hcolon
      simp only [List.length_cons, Nat.add_right_cancel_iff] at hlen hend ⊢
      rw [List.cons_append, parseAddrFrom_cons hc, parseAddrFrom_cons hc, ih _ _ hcs (Nat.le_of_succ_le_succ hlen) hend,
        Nat.add_assoc, Nat.add_comm 1]

/-- The value read is that of the field alone, the count its length, and what follows it is left over (R141). -/
theorem parseAddr_append {field rest : List Byte} (hcolon : colon ∉ field) (hlen : field.length ≤ 4)
    (hend : field.length = 4 ∨ rest = [] ∨ rest.head? = some colon) :
    parseAddr (field ++ rest) = ((parseAddr field).1, field.length, rest) := by
  have hparse := parseAddrFrom_append 0 0 hcolon hlen hend
  rwa [Nat.zero_add] at hparse

/-- A line that is an address field and nothing else. -/
theorem parseAddr_field {field : List Byte} (hcolon : colon ∉ field) (hlen : field.length ≤ 4) :
    parseAddr field = ((parseAddr field).1, field.length, []) := by
  have hparse := parseAddr_append (rest := []) hcolon hlen (.inr (.inl rfl))
  rwa [List.append_nil] at hparse

/-- An operand is missing exactly where no character is taken (44_commands.md R263). -/
theorem requireAddr_eq (cs : List Byte) :
    requireAddr cs = if (parseAddr cs).2.1 = 0 then .missing else .value (parseAddr cs).1 := by
  rw [requireAddr]
  split
  · next h => rw [h]; rfl
  · next h => rw [h]; rfl

theorem hex4_eq (a : Word) :
    hex4 a = [highNibble (a.extractLsb' 8 8), lowNibble (a.extractLsb' 8 8), highNibble (a.extractLsb' 0 8),
      lowNibble (a.extractLsb' 0 8)].map digitLower := rfl

/-- The digits of a printed address are no separators. -/
theorem colon_notMem_hex4 (a : Word) : colon ∉ hex4 a := by
  rw [hex4_eq, List.mem_map]
  rintro ⟨d, -, hd⟩
  exact (Laws.digitLower_facts d).2.1 hd

/-- A printed digit is shifted in as its value (R141). -/
theorem parseAddrFrom_digitLower (digits : Nat) (v : Word) (k : Nat) (d : Nibble) (cs : List Byte) :
    parseAddrFrom (digits + 1) v k (digitLower d :: cs) = parseAddrFrom digits ((v <<< 4) ||| d.setWidth 16) (k + 1) cs := by
  obtain ⟨-, hcolon, -, hval⟩ := Laws.digitLower_facts d
  rw [parseAddrFrom_cons hcolon, hval]

/-- Four nibbles, shifted in from the most significant one on, make the word again. -/
theorem word_of_nibbles (v : Word) :
    [highNibble (v.extractLsb' 8 8), lowNibble (v.extractLsb' 8 8), highNibble (v.extractLsb' 0 8),
      lowNibble (v.extractLsb' 0 8)].foldl (fun (w : Word) d => (w <<< 4) ||| d.setWidth 16) 0 = v := by
  simp only [List.foldl_cons, List.foldl_nil, highNibble, lowNibble]
  ext i hi
  interval_cases i <;> simp

/-- A printed address reads back (40_codec.md R144, R149). -/
theorem parseAddr_hex4 (a : Word) : parseAddr (hex4 a) = (a, 4, []) := by
  calc
    parseAddr (hex4 a) = (_, 4, []) := by
      iterate 4 refine (parseAddrFrom_digitLower _ _ _ _ _).trans ?_
      rfl
    _ = (a, 4, []) := congrArg (·, 4, []) (word_of_nibbles a)

/-! ### The data field (R110) -/

/-- The characters of data pairs, in the order of the line. -/
def pairChars (ps : List (Byte × Byte)) : List Byte := ps.flatMap fun c => [c.1, c.2]

/-- The two digits of a byte (40_codec.md R142). -/
def digitPair (b : Byte) : Byte × Byte := (digitLower (highNibble b), digitLower (lowNibble b))

theorem pairChars_digitPair (bs : List Byte) : pairChars (bs.map digitPair) = bs.flatMap hex2 := by
  rw [pairChars, List.flatMap_map]
  rfl

/-- A `','` ends the data and stays in front of the parse cursor (R262). -/
theorem parseData_comma (cap : Nat) (cs : List Byte) : parseData cap (comma :: cs) = ([], comma :: cs) := by
  cases cap with
  | zero => exact if_pos rfl
  | succ room =>
    cases cs with
    | nil => exact if_pos rfl
    | cons d ds => exact if_pos rfl

/-- With a full Transfer Buffer a character is skipped (R262, D22). -/
theorem parseData_skip {c : Byte} (hc : c ≠ comma) (cs : List Byte) : parseData 0 (c :: cs) = parseData 0 cs := if_neg hc

/-- With room for it a pair becomes a byte (R262). -/
theorem parseData_pair {c d : Byte} (hc : c ≠ comma) (hd : d ≠ comma) (room : Nat) (ds : List Byte) :
    parseData (room + 1) (c :: d :: ds) = (pair c d :: (parseData room ds).1, (parseData room ds).2) :=
  (if_neg hc).trans (if_neg hd)

/-- Where the data ends, nothing is read. -/
theorem parseData_end {rest : List Byte} (cap : Nat) (hend : rest = [] ∨ rest.head? = some comma) :
    parseData cap rest = ([], rest) := by
  cases rest with
  | nil => cases cap <;> rfl
  | cons c cs =>
    obtain rfl : c = comma := by simpa using hend
    exact parseData_comma cap cs

/-- A lone character before the end of the data makes no byte (D21). -/
theorem parseData_lone {c : Byte} {rest : List Byte} (cap : Nat) (hc : c ≠ comma) (hend : rest = [] ∨ rest.head? = some comma) :
    parseData cap (c :: rest) = ([], rest) := by
  cases cap with
  | zero => exact (parseData_skip hc rest).trans (parseData_end 0 hend)
  | succ room =>
    cases rest with
    | nil => exact if_neg hc
    | cons d ds =>
      obtain rfl : d = comma := by simpa using hend
      exact (if_neg hc).trans (if_pos rfl)

/-- Pairs become bytes until `cap` are kept; the rest, and a lone character, are skipped up to the `','` or the end of the line (R262). -/
theorem parseData_append {ps : List (Byte × Byte)} {lone rest : List Byte} (cap : Nat)
    (hps : ∀ c ∈ ps, c.1 ≠ comma ∧ c.2 ≠ comma) (hlone : lone = [] ∨ ∃ c, c ≠ comma ∧ lone = [c])
    (hend : rest = [] ∨ rest.head? = some comma) :
    parseData cap (pairChars ps ++ lone ++ rest) = ((ps.map fun c => pair c.1 c.2).take cap, rest) := by
  induction ps generalizing cap with
  | nil =>
    rw [List.map_nil, List.take_nil]
    rcases hlone with rfl | ⟨c, hc, rfl⟩
    · exact parseData_end cap hend
    · exact parseData_lone cap hc hend
  | cons c ps ih =>
    obtain ⟨⟨hfirst, hsecond⟩, hrest⟩ := List.forall_mem_cons.mp hps
    have hchars : pairChars (c :: ps) ++ lone ++ rest = c.1 :: c.2 :: (pairChars ps ++ lone ++ rest) := rfl
    rw [hchars]
    cases cap with
    | zero =>
      rw [parseData_skip hfirst, parseData_skip hsecond]
      exact ih 0 hrest
    | succ room =>
      rw [parseData_pair hfirst hsecond, ih room hrest]
      rfl

/-! ### The whole operand of W and S (R104) -/

/-- An address field that is not empty, its `':'`, and the data: the three parses one after the other (R262). -/
theorem parsePayload_colon {field : List Byte} (cap : Nat) (rest : List Byte) (hne : field ≠ []) (hlen : field.length ≤ 4)
    (hcolon : colon ∉ field) :
    parsePayload cap (field ++ colon :: rest) =
      .fields (parseAddr field).1 (parseData cap rest).1 (parseChecksum (parseData cap rest).2) := by
  have haddr := parseAddr_append (rest := colon :: rest) hcolon hlen (.inr (.inr rfl))
  obtain ⟨n, hn⟩ := Nat.exists_eq_succ_of_ne_zero (List.length_pos_iff.mpr hne).ne'
  rw [hn] at haddr
  simp [parsePayload, haddr]

/-- The value of a pair of characters (40_codec.md R145). -/
theorem pair_toNat (c d : Byte) : (pair c d).toNat = 16 * (hexval c).toNat + (hexval d).toNat := by
  rw [pair, BitVec.toNat_append, ← Nat.shiftLeft_add_eq_or_of_lt (hexval d).isLt, Nat.shiftLeft_eq, Nat.mul_comm]

/-- Fewer than two characters after the `','` make no checksum (R111, D23). -/
theorem parseChecksum_short {tail : List Byte} (h : tail.length < 2) : parseChecksum (comma :: tail) = none := by
  cases tail with
  | nil => rfl
  | cons c cs =>
    obtain rfl : cs = [] := List.eq_nil_of_length_eq_zero (by rw [List.length_cons] at h; omega)
    rfl

end Sys2Proof.Machine
end

section
/-!
SUPPORT. The dispatch table of 43_protocol.md R226 read as a function of the tag byte, and the cut of a byte stream at its LF
(30_encoding.md R101, R102).
-/

namespace Sys2Proof.Machine

/-! ### Tags (R113, R114) -/

/-- A byte that is no tag is unrecognized, whatever follows it. -/
theorem decodeLine_unrecognized (p : Params) {tag : Byte} (cs : List Byte) (h : tag ∉ tagBytes) :
    decodeLine p (tag :: cs) = .unrecognized tag := by
  simp only [tagBytes, List.mem_cons, List.not_mem_nil, or_false, not_or] at h
  simp only [decodeLine, h, if_false]

/-- Each of the ten tags makes another instruction. -/
theorem decodeLine_tag (p : Params) {tag : Byte} (cs : List Byte) (h : tag ∈ tagBytes) :
    decodeLine p (tag :: cs) ≠ .unrecognized tag := by
  simp only [tagBytes, List.mem_cons, List.not_mem_nil, or_false] at h
  rcases h with rfl | rfl | rfl | rfl | rfl | rfl | rfl | rfl | rfl | rfl <;> exact Instr.noConfusion

theorem decodeLine_unrecognized_iff (p : Params) (tag : Byte) (cs : List Byte) :
    decodeLine p (tag :: cs) = .unrecognized tag ↔ tag ∉ tagBytes :=
  ⟨fun h ht => decodeLine_tag p cs ht h, decodeLine_unrecognized p cs⟩

/-! ### Lines in a byte stream (R101, R102) -/

theorem not_storable_lineTerm : storable Config.lineTerm = false := by decide

/-- A line is cut at its first LF. -/
theorem splitLine_append {line : List Byte} (h : Config.lineTerm ∉ line) (rest : List Byte) :
    splitLine (line ++ Config.lineTerm :: rest) = some (line, rest) := by
  induction line with
  | nil => exact if_pos rfl
  | cons b bs ih =>
    obtain ⟨hb, hbs⟩ : b ≠ Config.lineTerm ∧ Config.lineTerm ∉ bs := by simpa [eq_comm] using h
    rw [List.cons_append, splitLine, if_neg hb, ih hbs]

/-- A line of storable bytes that fits is decoded as it stands. -/
theorem decode_line {p : Params} {line : List Byte} (hstorable : ∀ c ∈ line, storable c = true) (hfits : line.length ≤ p.lineCap)
    (rest : List Byte) : decode p (line ++ Config.lineTerm :: rest) = .ok (decodeLine p line, rest) := by
  have hterm : Config.lineTerm ∉ line := fun hmem => Bool.noConfusion (not_storable_lineTerm.symm.trans (hstorable _ hmem))
  rw [decode, splitLine_append hterm]
  simp only [List.filter_eq_self.mpr hstorable, if_pos hfits]

end Sys2Proof.Machine
end

section
/-!
PROOF of DecodeEncodeRoundTrip (O1): each field that the encoder prints is read back by its parser, so that each operand and each line is;
`EncodedLine` says that the line fits the Command Line and holds no control byte.
-/

namespace Sys2Proof.Machine

/-! ### Operands -/

theorem requireAddr_encodeAddr (arg : AddrOperand) : requireAddr (encodeAddr arg) = arg := by
  cases arg with
  | missing => rfl
  | value a => rw [requireAddr_eq, encodeAddr, parseAddr_hex4]; rfl

/-- A printed checksum, or none, ends the data and is read back (R111). -/
theorem encodeChecksum_ends (given : Option Byte) : encodeChecksum given = [] ∨ (encodeChecksum given).head? = some comma := by
  cases given with
  | none => exact .inl rfl
  | some g => exact .inr rfl

theorem parseChecksum_encodeChecksum (given : Option Byte) : parseChecksum (encodeChecksum given) = given := by
  cases given with
  | none => rfl
  | some g => rw [encodeChecksum, hex2, parseChecksum, if_pos rfl, Laws.pair_hex2]

/-- Printed data that fits is read back whole, up to the checksum (R110). -/
theorem parseData_hex2 {cap : Nat} {data rest : List Byte} (hfits : data.length ≤ cap) (hend : rest = [] ∨ rest.head? = some comma) :
    parseData cap (data.flatMap hex2 ++ rest) = (data, rest) := by
  have hdigits : ∀ c ∈ data.map digitPair, c.1 ≠ comma ∧ c.2 ≠ comma := by
    intro c hc
    obtain ⟨b, -, rfl⟩ := List.mem_map.mp hc
    exact ⟨(Laws.digitLower_facts _).2.2.1, (Laws.digitLower_facts _).2.2.1⟩
  have hback : (data.map digitPair).map (fun c => pair c.1 c.2) = data := by
    simp [digitPair, Function.comp_def, Laws.pair_hex2]
  have hparse := parseData_append (lone := []) cap hdigits (.inl rfl) hend
  rwa [pairChars_digitPair, List.append_nil, hback, List.take_of_length_le hfits] at hparse

theorem parsePayload_encodePayload {p : Params} {arg : PayloadOperand} (h : arg.wellFormed p = true) :
    parsePayload p.xferCap (encodePayload arg) = arg := by
  cases arg with
  | noAddress => rfl
  | noSeparator => rw [encodePayload, parsePayload, parseAddr_hex4]
  | fields a data given =>
    have hfits : data.length ≤ p.xferCap := by simpa [PayloadOperand.wellFormed] using h
    have haddr : (parseAddr (hex4 a)).1 = a := by rw [parseAddr_hex4]
    rw [encodePayload, parsePayload_colon (field := hex4 a) _ _ (List.cons_ne_nil _ _) (Nat.le_refl 4) (colon_notMem_hex4 a), haddr,
      parseData_hex2 hfits (encodeChecksum_ends given), parseChecksum_encodeChecksum]

/-! ### Lines -/

/-- The encoding of an instruction is a line the block can store. -/
theorem encode_line (i : Instr) : Laws.EncodedLine.Statement i := by
  cases i with
  | version => exact Laws.EncodedLine.version
  | protect => exact Laws.EncodedLine.protect
  | unprotect => exact Laws.EncodedLine.unprotect
  | read arg => exact Laws.EncodedLine.read arg
  | write arg => exact Laws.EncodedLine.write arg
  | erase => exact Laws.EncodedLine.erase
  | prepare arg => exact Laws.EncodedLine.prepare arg
  | fill arg => exact Laws.EncodedLine.fill arg
  | program => exact Laws.EncodedLine.program
  | help => exact Laws.EncodedLine.help
  | empty => exact Laws.EncodedLine.empty
  | unrecognized tag => exact Laws.EncodedLine.unrecognized tag

/-- The dispatch table reads the tag back, and the parser behind it the operand (R226). -/
theorem decodeLine_encode {p : Params} {i : Instr} (h : wellFormed p i = true) : decodeLine p (encode i) = i := by
  cases i with
  | read arg => exact congrArg Instr.read (requireAddr_encodeAddr arg)
  | prepare arg => exact congrArg Instr.prepare (requireAddr_encodeAddr arg)
  | write arg => exact congrArg Instr.write (parsePayload_encodePayload h)
  | fill arg => exact congrArg Instr.fill (parsePayload_encodePayload h)
  | unrecognized tag =>
    have htag : tag ∉ tagBytes := by
      rw [wellFormed, Bool.and_eq_true] at h
      simpa using h.2
    exact decodeLine_unrecognized p [] htag
  | _ => rfl

/-- Settles O1: the line fits since R11 leaves room for the longest one; then it is decoded as it stands. -/
theorem decodeEncodeRoundTrip : Obligations.DecodeEncodeRoundTrip := by
  unfold Obligations.DecodeEncodeRoundTrip
  intro p i rest hok hwf
  obtain ⟨-, -, -, -, -, hroom, -⟩ := hok
  obtain ⟨hlen, hstorable⟩ := encode_line i p hwf
  rw [encodeRaw, List.append_assoc, List.singleton_append, decode_line hstorable (Nat.le_trans hlen hroom), decodeLine_encode hwf]

end Sys2Proof.Machine
end

section
/-!
PROOF of the statements about arbitrary lines: DataFieldDecoding (O8), TrailingCharactersIgnored (O9), EveryStoredLineIsWellFormed (O10),
WrittenLinesDecode (O2), TagSelectsCommand (O3) and UnrecognizedTagSpace (O4).
-/

namespace Sys2Proof.Machine

/-- Settles O8: the address field ends at its `':'`, the data at a `','` or with the line, and the checksum field is the rest. -/
theorem dataFieldDecoding : Obligations.DataFieldDecoding := by
  unfold Obligations.DataFieldDecoding
  refine ⟨pair_toNat, fun cap field ps lone tail hne hlen hcolon hps hlone => ?_⟩
  have hparse (rest : List Byte) (hend : rest = [] ∨ rest.head? = some comma) :
      parsePayload cap (field ++ colon :: (pairChars ps ++ lone ++ rest)) =
        .fields (parseAddr field).1 ((ps.map fun c => pair c.1 c.2).take cap) (parseChecksum rest) := by
    rw [parsePayload_colon cap _ hne hlen hcolon, parseData_append cap hps hlone hend]
  refine ⟨?_, fun c1 c2 => ?_, fun htail => ?_⟩
  · have hnone := hparse [] (.inl rfl)
    rwa [List.append_nil] at hnone
  · exact hparse (comma :: c1 :: c2 :: tail) (.inr rfl)
  · have hshort := hparse (comma :: tail) (.inr rfl)
    rwa [parseChecksum_short htail] at hshort

/-- What follows a complete address field is not read (R105, R263). -/
theorem requireAddr_append {field rest : List Byte} (hcolon : colon ∉ field) (hlen : field.length ≤ 4)
    (hend : field.length = 4 ∨ rest.head? = some colon) : requireAddr (field ++ rest) = requireAddr field := by
  rw [requireAddr_eq, requireAddr_eq field, parseAddr_append hcolon hlen (hend.imp_right .inr), parseAddr_field hcolon hlen]

/-- Settles O9: the six F1 tags have no operand to parse; R and N read no further than the field. -/
theorem trailingCharactersIgnored : Obligations.TrailingCharactersIgnored := by
  unfold Obligations.TrailingCharactersIgnored
  intro p
  constructor
  · intro tag htag cs
    simp only [List.mem_cons, List.not_mem_nil, or_false] at htag
    rcases htag with rfl | rfl | rfl | rfl | rfl | rfl <;> rfl
  · intro tag htag field rest hcolon hlen hend
    have hoperand := requireAddr_append hcolon hlen hend
    simp only [List.mem_cons, List.not_mem_nil, or_false] at htag
    rcases htag with rfl | rfl
    · exact congrArg Instr.read hoperand
    · exact congrArg Instr.prepare hoperand

/-- Settles O10: the invariant's proof needs it of every dispatched line (`decodeLine_wellFormed`). -/
theorem everyStoredLineIsWellFormed : Obligations.EveryStoredLineIsWellFormed :=
  fun p _ h => decodeLine_wellFormed p h

/-- Settles O2, by running the decoder on the seven streams. -/
theorem writtenLinesDecode : Obligations.WrittenLinesDecode :=
  ⟨rfl, rfl, rfl, rfl, rfl, rfl, rfl⟩

/-- Settles O3: each tag picks its row of the dispatch table; the operand of R and N is `requireAddr_eq`. -/
theorem tagSelectsCommand : Obligations.TagSelectsCommand := by
  unfold Obligations.TagSelectsCommand
  intro p cs
  have hoperand := requireAddr_eq cs
  exact ⟨rfl, rfl, rfl, congrArg Instr.read hoperand, rfl, rfl, congrArg Instr.prepare hoperand, rfl, rfl, rfl, rfl,
    fun _ _ htag => decodeLine_unrecognized p cs htag⟩

/-- A count over a range is the sum of the counts over its two parts. -/
theorem countP_range_add (q : Nat → Bool) (m n : Nat) :
    (List.range (m + n)).countP q = (List.range m).countP q + (List.range n).countP fun k => q (m + k) := by
  rw [List.range_add, List.countP_append, List.countP_map, Function.comp_def]

/-- The 32 control bytes are not stored (R101); counted in quarters. -/
theorem count_storable_bytes : ((List.range 256).countP fun n => storable (BitVec.ofNat 8 n)) = 224 := by
  change (List.range (64 + (64 + (64 + 64)))).countP _ = _
  rw [countP_range_add, countP_range_add, countP_range_add]
  decide

/-- Of the storable bytes 214 are no tags (R114); counted in quarters. -/
theorem count_unrecognized_tags :
    ((List.range 256).countP fun n => storable (BitVec.ofNat 8 n) && decide (BitVec.ofNat 8 n ∉ tagBytes)) = 214 := by
  change (List.range (64 + (64 + (64 + 64)))).countP _ = _
  rw [countP_range_add, countP_range_add, countP_range_add]
  decide

/-- Settles O4: a storable byte is unrecognized exactly when it is no tag, and its handler only raises the error. -/
theorem unrecognizedTagSpace : Obligations.UnrecognizedTagSpace := by
  unfold Obligations.UnrecognizedTagSpace
  refine ⟨count_storable_bytes, fun p cs => ?_, fun tag s => congrArg _ (raise_eq .unrecognized s)⟩
  simp only [decodeLine_unrecognized_iff]
  exact count_unrecognized_tags

end Sys2Proof.Machine
end

section
/-!
PROOF of ReceptionKeepsTheLine (O41): what has been received of a line is an invariant of reception, byte by byte.
-/

namespace Sys2Proof.Machine

/-- `t` is `s`, which awaits a line, after these storable bytes of one: the first `LINE_CAP` are stored, `ovf` tells whether there were more
(43_protocol.md R224, R225), and nothing else has changed. The stored bytes lie within the buffer. -/
def Received (s : State) (stored : List Byte) (t : State) : Prop :=
  t.len ≤ t.line.length ∧
  t.lineBytes = stored.take s.params.lineCap ∧
  t.len = min stored.length s.params.lineCap ∧
  (t.ovf = true ↔ s.params.lineCap < stored.length) ∧
  t = { s with line := t.line, len := t.len, ovf := t.ovf }

theorem received_startLine (s : State) : Received (startLine s) [] (startLine s) :=
  ⟨Nat.zero_le _, by rw [lineBytes_of_len_zero rfl, List.take_nil], (Nat.zero_min _).symm, by simp, rfl⟩

/-- One more storable byte is appended, or sets `ovf` where the line is full. -/
theorem received_storable {s t : State} {stored : List Byte} {b : Byte} (h : Received s stored t) (hb : storable b = true) :
    Received s (stored ++ [b]) (receive b t) := by
  obtain ⟨hbuf, hbytes, hlen, hovf, hframe⟩ := h
  have hparams : t.params = s.params := by rw [hframe]
  have hcount : (stored ++ [b]).length = stored.length + 1 := List.length_append
  by_cases hroom : t.len < t.params.lineCap
  · have hfits : stored.length < s.params.lineCap := by rw [hparams] at hroom; omega
    have hstored : (receive b t).lineBytes = t.lineBytes ++ [b] := by
      rw [receive_storable hb hroom]
      exact take_putByte b hbuf
    rw [hbytes, List.take_of_length_le hfits.le] at hstored
    rw [receive_storable hb hroom] at hstored ⊢
    refine ⟨?_, ?_, ?_, ?_, ?_⟩
    · simp only [putByte, List.length_append, List.length_take, List.length_cons]
      omega
    · rw [hstored, List.take_of_length_le (by omega)]
    · simp only [hcount]
      omega
    · simp only [hcount, hovf]
      omega
    · rw [hframe]
  · have hfull : s.params.lineCap ≤ stored.length := by rw [hparams] at hroom; omega
    rw [receive_overflow hb hroom]
    refine ⟨hbuf, ?_, ?_, ?_, ?_⟩
    · rw [List.take_append_of_le_length hfull]
      exact hbytes
    · simp only [hcount]
      omega
    · simp only [hcount, true_iff]
      omega
    · rw [hframe]

/-- One received byte other than LF: a control byte is discarded (R101). -/
theorem received_receive {s t : State} {stored : List Byte} {b : Byte} (h : Received s stored t) (hb : b ≠ Config.lineTerm) :
    Received s (stored ++ [b].filter storable) (receive b t) := by
  cases hs : storable b with
  | true =>
    rw [List.filter_cons_of_pos hs]
    exact received_storable h hs
  | false =>
    rw [receive_control hb hs, List.filter_cons_of_neg (by simp [hs]), List.filter_nil, List.append_nil]
    exact h

/-- Bytes without LF, then the LF, received one after the other. -/
theorem receiveAll_line {s t : State} {stored raw : List Byte} (hawaiting : s.fsm = .awaitingLine) (h : Received s stored t)
    (hraw : Config.lineTerm ∉ raw) :
    ∃ u, Received s (stored ++ raw.filter storable) u ∧
      receiveAll (raw ++ [Config.lineTerm]) t = { u with fsm := .dispatching } := by
  have hfsm : t.fsm = .awaitingLine := by
    obtain ⟨-, -, -, -, hframe⟩ := h
    rw [hframe]
    exact hawaiting
  induction raw generalizing stored t with
  | nil =>
    refine ⟨t, by rwa [List.filter_nil, List.append_nil], ?_⟩
    rw [List.nil_append, receiveAll, hfsm]
    exact receive_lf t
  | cons b bs ih =>
    obtain ⟨hb, hbs⟩ : b ≠ Config.lineTerm ∧ Config.lineTerm ∉ bs := by simpa [eq_comm] using hraw
    have hnext := received_receive h hb
    have hfsm' : (receive b t).fsm = .awaitingLine := by
      obtain ⟨-, -, -, -, hframe⟩ := hnext
      rw [hframe]
      exact hawaiting
    obtain ⟨u, hu, hrun⟩ := ih hnext hbs hfsm'
    rw [List.append_assoc, ← List.filter_append, List.singleton_append] at hu
    refine ⟨u, hu, ?_⟩
    rw [List.cons_append, receiveAll, hfsm]
    exact hrun

set_option maxRecDepth 8000 in
/-- Settles O41: a started line has received nothing; the LF that ends it only moves the block to Dispatching. -/
theorem receptionKeepsTheLine : Obligations.ReceptionKeepsTheLine := by
  unfold Obligations.ReceptionKeepsTheLine
  intro raw s hraw
  obtain ⟨u, ⟨-, hbytes, hlen, hovf, hframe⟩, hrun⟩ := receiveAll_line rfl (received_startLine s) hraw
  rw [List.nil_append] at hbytes hlen hovf
  refine ⟨_, hrun, hbytes, hlen, hovf, ?_⟩
  rw [hframe]
  rfl

end Sys2Proof.Machine
end

section
/-!
PROOF of the statements about hex digits and address fields: HexDigitValues (O5), AddressFieldValue (O6) and AddressRoundTrip (O7). The
address loop shifts one nibble in per character; `exists_addrField` says where the field ends.
-/

namespace Sys2Proof.Machine

/-! ### Hex digits (40_codec.md R140) -/

/-- Settles O5: a byte lies in at most one of the three ranges, and in each the difference fits a nibble. -/
theorem hexDigitValues : Obligations.HexDigitValues := by
  unfold Obligations.HexDigitValues
  intro c
  simp only [hexval, BitVec.le_def, BitVec.ofNat_eq_ofNat, BitVec.toNat_ofNat, Nat.reducePow, Nat.reduceMod]
  split_ifs with hdecimal hupper hlower
  · rw [BitVec.toNat_setWidth]; bv_omega
  · rw [BitVec.toNat_setWidth]; bv_omega
  · rw [BitVec.toNat_setWidth]; bv_omega
  · rfl

/-- A hex character, of either case (R140). -/
def IsHexChar (c : Byte) : Prop := (0x30 ≤ c ∧ c ≤ 0x39) ∨ (0x41 ≤ c ∧ c ≤ 0x46) ∨ (0x61 ≤ c ∧ c ≤ 0x66)

theorem IsHexChar.ne_colon {c : Byte} (h : IsHexChar c) : c ≠ colon := by
  rintro rfl
  exact absurd h (by unfold IsHexChar; decide)

/-- The digit printed for a hex character's value is the character in lower case (R140, R142). -/
theorem digitLower_hexval {c : Byte} (h : IsHexChar c) :
    digitLower (hexval c) = if 0x41 ≤ c ∧ c ≤ 0x46 then c + 0x20 else c := by
  revert h
  unfold IsHexChar
  revert c
  decide

/-! ### The digits of an address (40_codec.md R141, R144) -/

/-- One turn of the loop of R141: the digit is shifted in below the word. -/
def shiftDigit (w : Word) (d : Nibble) : Word := (w <<< 4) ||| d.setWidth 16

/-- While the top nibble is free, the digit is appended in base 16. -/
theorem shiftDigit_toNat {w : Word} (h : w.toNat < 4096) (d : Nibble) : (shiftDigit w d).toNat = 16 * w.toNat + d.toNat := by
  have hfree : w.toNat <<< 4 % 2 ^ 16 = w.toNat <<< 4 := by
    rw [Nat.shiftLeft_eq]
    exact Nat.mod_eq_of_lt (by omega)
  rw [shiftDigit, BitVec.toNat_or, BitVec.toNat_shiftLeft, BitVec.toNat_setWidth_of_le (by decide), hfree,
    ← Nat.shiftLeft_add_eq_or_of_lt d.isLt, Nat.shiftLeft_eq, Nat.mul_comm]

/-- Digits that fit above the word's own are its digits in base 16, most significant first. -/
theorem foldl_shiftDigit_toNat (ds : List Nibble) {w : Word} (h : (w.toNat + 1) * 16 ^ ds.length ≤ 65536) :
    (ds.foldl shiftDigit w).toNat = ds.foldl (fun n d => 16 * n + d.toNat) w.toNat := by
  induction ds generalizing w with
  | nil => rfl
  | cons d ds ih =>
    have hpos : 0 < 16 ^ ds.length := by positivity
    have hsplit : (w.toNat + 1) * 16 * 16 ^ ds.length ≤ 65536 := by
      rwa [Nat.mul_assoc, ← Nat.pow_succ']
    have hw : w.toNat < 4096 := by
      have hone := (Nat.le_mul_of_pos_right ((w.toNat + 1) * 16) hpos).trans hsplit
      omega
    have hnext : (shiftDigit w d).toNat + 1 ≤ (w.toNat + 1) * 16 := by
      have hd := d.isLt
      rw [shiftDigit_toNat hw]
      omega
    have hroom := (Nat.mul_le_mul_right (16 ^ ds.length) hnext).trans hsplit
    rw [List.foldl_cons, List.foldl_cons, ih hroom, shiftDigit_toNat hw]

/-- Four digits shifted in are the four that are printed. -/
theorem hex4_foldl_shiftDigit (d0 d1 d2 d3 : Nibble) :
    hex4 ([d0, d1, d2, d3].foldl shiftDigit 0) = [d0, d1, d2, d3].map digitLower := by
  rw [hex4_eq]
  congr 1
  simp only [List.cons.injEq, and_true, List.foldl_cons, List.foldl_nil, shiftDigit, highNibble, lowNibble]
  refine ⟨?_, ?_, ?_, ?_⟩
  all_goals
    ext i hi
    interval_cases i <;> simp

/-! ### The address field (30_encoding.md R108) -/

/-- The value of an address field: its characters' digits, shifted in one after the other. -/
theorem parseAddrFrom_field {digits : Nat} {field : List Byte} (v : Word) (k : Nat) (hcolon : colon ∉ field)
    (hlen : field.length ≤ digits) : (parseAddrFrom digits v k field).1 = (field.map hexval).foldl shiftDigit v := by
  induction field generalizing digits v k with
  | nil => cases digits <;> rfl
  | cons c cs ih =>
    cases digits with
    | zero => exact absurd hlen (Nat.not_succ_le_zero _)
    | succ n =>
      obtain ⟨hc, hcs⟩ : c ≠ colon ∧ colon ∉ cs := by simpa [eq_comm] using hcolon
      rw [parseAddrFrom_cons hc]
      exact ih _ _ hcs (Nat.le_of_succ_le_succ hlen)

theorem parseAddr_field_value {field : List Byte} (hcolon : colon ∉ field) (hlen : field.length ≤ 4) :
    (parseAddr field).1 = (field.map hexval).foldl shiftDigit 0 :=
  parseAddrFrom_field 0 0 hcolon hlen

/-- Every line starts with an address field, possibly an empty one: its characters up to the first `':'`, at most `digits` of them. -/
theorem exists_addrField (digits : Nat) (cs : List Byte) :
    ∃ field rest, cs = field ++ rest ∧ colon ∉ field ∧ field.length ≤ digits ∧
      (field.length = digits ∨ rest = [] ∨ rest.head? = some colon) := by
  induction digits generalizing cs with
  | zero => exact ⟨[], cs, rfl, List.not_mem_nil, Nat.le_refl 0, .inl rfl⟩
  | succ n ih =>
    cases cs with
    | nil => exact ⟨[], [], rfl, List.not_mem_nil, Nat.zero_le _, .inr (.inl rfl)⟩
    | cons c cs =>
      by_cases hc : c = colon
      · exact ⟨[], c :: cs, rfl, List.not_mem_nil, Nat.zero_le _, .inr (.inr (congrArg some hc))⟩
      · obtain ⟨field, rest, rfl, hcolon, hlen, hend⟩ := ih cs
        exact ⟨c :: field, rest, rfl, by simp [Ne.symm hc, hcolon], Nat.succ_le_succ hlen, hend.imp_left (congrArg (· + 1))⟩

/-- Settles O6: the line is cut into its address field and the rest, and the at most four digits of the field fit the word. -/
theorem addressFieldValue : Obligations.AddressFieldValue := by
  unfold Obligations.AddressFieldValue
  intro cs v k rest hparse
  obtain ⟨field, left, rfl, hcolon, hlen, hend⟩ := exists_addrField 4 cs
  rw [parseAddr_append hcolon hlen hend, Prod.mk.injEq, Prod.mk.injEq] at hparse
  obtain ⟨rfl, rfl, rfl⟩ := hparse
  rw [List.take_left, List.drop_left]
  refine ⟨hlen, by simp, rfl, hcolon, hend, ?_⟩
  have hfits : ((0 : Word).toNat + 1) * 16 ^ (field.map hexval).length ≤ 65536 := by
    rw [List.length_map]
    exact (Nat.one_mul _).trans_le (Nat.pow_le_pow_right (by decide) hlen)
  rw [parseAddr_field_value hcolon hlen, foldl_shiftDigit_toNat _ hfits, List.foldl_map]
  rfl

/-- Settles O7: a hex character's digit prints back as the character in lower case, and a printed address reads back (`parseAddr_hex4`). -/
theorem addressRoundTrip : Obligations.AddressRoundTrip := by
  unfold Obligations.AddressRoundTrip
  refine ⟨fun c0 c1 c2 c3 hhex => ?_, parseAddr_hex4⟩
  have hcolon : colon ∉ [c0, c1, c2, c3] := fun hmem => IsHexChar.ne_colon (hhex _ hmem) rfl
  calc
    hex4 (parseAddr [c0, c1, c2, c3]).1 = ([c0, c1, c2, c3].map hexval).map digitLower := by
      rw [parseAddr_field_value hcolon (Nat.le_refl 4)]
      exact hex4_foldl_shiftDigit _ _ _ _
    _ = [c0, c1, c2, c3].map fun c => if 0x41 ≤ c ∧ c ≤ 0x46 then c + 0x20 else c := by
      rw [List.map_map]
      exact List.map_congr_left fun c hc => digitLower_hexval (hhex c hc)

end Sys2Proof.Machine
end

section
/-!
PROOF of ChecksumDetectsEveryBitFlip (O11): the reply of W and S tells whether the comparison of 44_commands.md R262 passed, since an error
line is none of `OK`; a mask on one byte is a mask on the XOR.
-/

namespace Sys2Proof.Machine

/-! ### The comparison and the reply (R262) -/

/-- The comparison with a stated checksum passes exactly for the XOR of the bytes (40_codec.md R148). -/
theorem checksumMismatch_some_eq_none {bs : List Byte} {c : Byte} : checksumMismatch (some c) bs = none ↔ xorsum bs = c := by
  simp [checksumMismatch, eq_comm]

/-- The line of a wrong checksum is longer than `OK`. -/
theorem raise_checksumMismatch_reply_ne (g c : Byte) (s : State) :
    (raise (.checksumMismatch g c) s).reply ≠ s.replied [[0x4F, 0x4B]] := by
  intro h
  have hlen := congrArg (fun r => (r.getD []).length) h
  simp only [raise_reply, State.replied, errorLine, mismatchLine, errLine, hex2Upper, Option.getD_some, List.flatMap_cons,
    List.flatMap_nil, List.length_append, List.length_cons, List.length_nil] at hlen
  omega

/-- Where the command's own work goes on and replies `OK`, W or S replies `OK` exactly when the comparison passes. -/
theorem withPayload_replies_ok_iff {a : Word} {data : List Byte} {given : Option Byte} {run : Word → List Byte → State → Result}
    {s : State} (hfits : data.length ≤ s.params.xferCap)
    (hrun : ∃ t, run a data (loadXfer data s) = .next t ∧ t.reply = s.replied [[0x4F, 0x4B]]) :
    checksumMismatch given data = none ↔
      ∃ t, withPayload (.fields a data given) run s = .next t ∧ t.reply = s.replied [[0x4F, 0x4B]] := by
  cases hsum : checksumMismatch given data with
  | none => simpa [withPayload_match hfits hsum] using hrun
  | some gc =>
    simp only [withPayload_mismatch hfits hsum, reduceCtorEq, false_iff]
    rintro ⟨t, ht, hreply⟩
    obtain rfl := Host.Outcome.next.inj ht
    exact raise_checksumMismatch_reply_ne gc.1 gc.2 (loadXfer data s) hreply

/-- `OK` after work that leaves the reply queue and the parameters as they were. -/
theorem emit_okLine_reply {s t : State} (hreply : t.reply = s.reply) (hparams : t.params = s.params) :
    (emit okLine t).reply = s.replied [[0x4F, 0x4B]] := by
  simp [State.replied, State.replyBytes, hreply, hparams, okLine]

theorem write_replies_ok_iff {bs : List Byte} {s : State} (a : Word) (given : Option Byte) (hfits : bs.length ≤ s.params.xferCap)
    (hquiet : s.bus.quiet) :
    checksumMismatch given bs = none ↔
      ∃ t, exec (.write (.fields a bs given)) s = .next t ∧ t.reply = s.replied [[0x4F, 0x4B]] := by
  have hwrite := bulkWrite_ok (a := a) (bs := bs) (s := loadXfer bs s) hquiet
  exact withPayload_replies_ok_iff (run := fun a bs t => replyOk (bulkWrite a bs t)) hfits
    ⟨_, congrArg replyOk hwrite, emit_okLine_reply rfl rfl⟩

theorem fill_replies_ok_iff {bs : List Byte} {s : State} (a : Word) (given : Option Byte) (hfits : bs.length ≤ s.params.xferCap) :
    checksumMismatch given bs = none ↔
      ∃ t, exec (.fill (.fields a bs given)) s = .next t ∧ t.reply = s.replied [[0x4F, 0x4B]] :=
  withPayload_replies_ok_iff (run := fun a bs t => .next (emit okLine (fillPageBuffer a bs t))) hfits
    ⟨_, rfl, emit_okLine_reply rfl rfl⟩

/-! ### Flipped bits (40_codec.md R146, R148) -/

theorem xorsum_set_xor (m : Byte) {bs : List Byte} {i : Nat} (h : i < bs.length) :
    xorsum (bs.set i (bs[i] ^^^ m)) = xorsum bs ^^^ m := by
  induction bs generalizing i with
  | nil => exact absurd h (Nat.not_lt_zero _)
  | cons b bs ih =>
    cases i with
    | zero =>
      simp only [List.getElem_cons_zero, List.set_cons_zero, xorsum]
      ac_rfl
    | succ i =>
      simp only [List.getElem_cons_succ, List.set_cons_succ, xorsum, ih (Nat.lt_of_succ_lt_succ h)]
      ac_rfl

theorem bitMask_ne_zero {j : Nat} (h : j < 8) : (1 <<< j : Byte) ≠ 0 := by
  interval_cases j <;> decide

/-- Settles O11: the reply tells the comparison's outcome, and a flip is a mask that is not 0. -/
theorem checksumDetectsEveryBitFlip : Obligations.ChecksumDetectsEveryBitFlip := by
  unfold Obligations.ChecksumDetectsEveryBitFlip
  constructor
  · intro bs c a s hfits hquiet
    rw [← checksumMismatch_some_eq_none]
    exact ⟨write_replies_ok_iff a (some c) hfits hquiet, fill_replies_ok_iff a (some c) hfits⟩
  · intro bs i j hi hj
    have hflip := xorsum_set_xor (1 <<< j) hi
    refine ⟨hflip, fun hsame => bitMask_ne_zero hj ?_⟩
    exact (BitVec.xor_right_inj (xorsum bs)).mp (hflip.symm.trans (hsame.trans BitVec.xor_zero.symm))

end Sys2Proof.Machine
end

section
/-!
PROOF of ReadCycleEvents (O12), WriteCycleEvents (O13) and DirectionPrecondition (O14): each precondition as a proposition about the bus
registers, and a cycle's control lines end as its precondition found them (41_bus_sequencer.md R163 to R165, R168).
-/

namespace Sys2Proof.Machine

theorem dirReady_iff {d : Dir} {b : BusRegs} :
    dirReady d b = true ↔ b.ce = false ∧ b.we = false ∧ (d = .output → b.oe = false) := by
  cases d with
  | input => simp [dirReady]
  | output => simp [dirReady, and_assoc]

/-- A read cycle leaves CE deasserted, as its precondition asks (R164). -/
theorem readCycle_bus_of_ready {b : BusRegs} (h : readReady b = true) (p : Params) (bits : Nat) (a : Word) (v : Byte) :
    (readCycle p a v).foldl (applyEvent bits) b = { b with addr := chipaddr bits a, timer := .idle } := by
  obtain ⟨-, -, hce, -⟩ := readReady_iff.mp h
  simp [readCycle_bus, hce]

/-- A write cycle leaves CE and WE deasserted, as its precondition asks (R165). -/
theorem writeCycle_bus_of_ready {b : BusRegs} (h : writeReady b = true) (p : Params) (bits : Nat) (a : Word) (v : Byte) :
    (writeCycle p a v).foldl (applyEvent bits) b = { b with addr := chipaddr bits a, dout := v, timer := .idle } := by
  obtain ⟨-, -, hce, hwe⟩ := writeReady_iff.mp h
  simp [writeCycle_bus, hce, hwe]

/-- Settles O12: the precondition decides, and a cycle under it ends with the control lines as they were. -/
theorem readCycleEvents : Obligations.ReadCycleEvents := by
  unfold Obligations.ReadCycleEvents
  refine ⟨fun a s => ?_, rfl⟩
  simp only [← readReady_iff]
  by_cases h : readReady s.bus = true
  · have hbus := readCycle_bus_of_ready h s.params s.params.addrBits a s.nextSample
    rw [if_pos h, readByteAt_ok h, ← hbus]
    rfl
  · rw [if_neg h]
    exact readByteAt_fault (Bool.eq_false_iff.mpr h)

/-- Settles O13: the precondition decides, and a cycle under it ends with the control lines as they were. -/
theorem writeCycleEvents : Obligations.WriteCycleEvents := by
  unfold Obligations.WriteCycleEvents
  refine ⟨fun a v s => ?_, rfl⟩
  simp only [← writeReady_iff]
  by_cases h : writeReady s.bus = true
  · have hbus := writeCycle_bus_of_ready h s.params s.params.addrBits a v
    rw [if_pos h, writeByteAt_ok h, ← hbus]
    rfl
  · rw [if_neg h]
    exact writeByteAt_fault (Bool.eq_false_iff.mpr h)

/-- Settles O14: the precondition decides, and the one event sets the direction. -/
theorem directionPrecondition : Obligations.DirectionPrecondition := by
  unfold Obligations.DirectionPrecondition
  intro d s
  simp only [← dirReady_iff]
  by_cases h : dirReady d s.bus = true
  · rw [if_pos h, setDataLinesDirection_ok h]
    rfl
  · rw [if_neg h]
    exact setDataLinesDirection_fault (Bool.eq_false_iff.mpr h)

end Sys2Proof.Machine
end

section
/-!
PROOF of CommandTracesAreLegal (O17): each kind of trace a command makes keeps the hazards of 70_reset_and_hazards.md R340 from deasserted
lines, and a command that goes on makes one of these traces or no pin event at all.
-/

namespace Sys2Proof.Machine

/-! ### Legal events (R340 (b), (c), (d), (f)) -/

theorem legalTrace_cons (p : Params) (b : BusRegs) (e : BusEvent) (es : List BusEvent) :
    legalTrace p b (e :: es) = (legalEvent p b e && legalTrace p (applyEvent p.addrBits b e) es) := rfl

theorem legalTrace_append (p : Params) (b : BusRegs) (es fs : List BusEvent) :
    legalTrace p b (es ++ fs) = (legalTrace p b es && legalTrace p (es.foldl (applyEvent p.addrBits) b) fs) := by
  induction es generalizing b with
  | nil => rfl
  | cons e es ih => rw [List.cons_append, legalTrace_cons, ih, legalTrace_cons, List.foldl_cons, Bool.and_assoc]

/-- A read cycle under its precondition: what is left to check is that the sample comes after the settle time (R164). -/
theorem legalTrace_readCycle {p : Params} {b : BusRegs} (h : readReady b = true) (a : Word) (v : Byte) :
    legalTrace p b (readCycle p a v) = true := by
  obtain ⟨hdir, hoe, hce, hwe⟩ := readReady_iff.mp h
  obtain ⟨ce, oe, we, dir, addr, dout, timer⟩ := b
  subst hdir hoe hce hwe
  have hsettle : decide (p.tSettleMin ≤ p.tSettleMin) = true := decide_eq_true (Nat.le_refl _)
  exact (Bool.and_true _).trans hsettle

/-- A write cycle under its precondition: what is left to check is that WE is held for its time (R165). -/
theorem legalTrace_writeCycle {p : Params} {b : BusRegs} (h : writeReady b = true) (a : Word) (v : Byte) :
    legalTrace p b (writeCycle p a v) = true := by
  obtain ⟨hdir, hoe, hce, hwe⟩ := writeReady_iff.mp h
  obtain ⟨ce, oe, we, dir, addr, dout, timer⟩ := b
  subst hdir hoe hce hwe
  have hhold : decide (p.tWeMin ≤ p.tWeMin) = true := decide_eq_true (Nat.le_refl _)
  exact (Bool.and_true _).trans hhold

/-- Read cycles are legal, and leave their own precondition true. -/
theorem legalTrace_readTrace {p : Params} {b : BusRegs} (h : readReady b = true) (a : Word) (bs : List Byte) :
    legalTrace p b (readTrace p a bs) = true ∧ readReady ((readTrace p a bs).foldl (applyEvent p.addrBits) b) = true := by
  induction bs generalizing a b with
  | nil => exact ⟨rfl, h⟩
  | cons v bs ih =>
    rw [readTrace, legalTrace_append, legalTrace_readCycle h, List.foldl_append]
    exact ih (readReady_after_readCycle h) (a + 1)

theorem legalTrace_writeTrace {p : Params} {b : BusRegs} (h : writeReady b = true) (cs : List (Word × Byte)) :
    legalTrace p b (writeTrace p cs) = true := by
  induction cs generalizing b with
  | nil => rfl
  | cons c cs ih =>
    rw [writeTrace, legalTrace_append, legalTrace_writeCycle h]
    exact ih (writeReady_after_writeCycle h)

/-- From deasserted lines the bus may be turned to Input, with OE asserted: a read cycle is then possible. -/
theorem legalTrace_startReading {p : Params} {b : BusRegs} (h : b.quiet) :
    legalTrace p b [.setDir .input, .assertLine .oe] = true ∧
      readReady ([BusEvent.setDir .input, .assertLine .oe].foldl (applyEvent p.addrBits) b) = true := by
  obtain ⟨hce, hoe, hwe⟩ := h
  obtain ⟨ce, oe, we, dir, addr, dout, timer⟩ := b
  subst hce hoe hwe
  exact ⟨rfl, rfl⟩

/-- Between read cycles OE may be deasserted. -/
theorem legalTrace_stopReading {p : Params} {b : BusRegs} (h : readReady b = true) : legalTrace p b [.deassertLine .oe] = true := by
  obtain ⟨-, hoe, hce, -⟩ := readReady_iff.mp h
  obtain ⟨ce, oe, we, dir, addr, dout, timer⟩ := b
  subst hoe hce
  rfl

theorem legalTrace_bulkReadTrace {p : Params} {b : BusRegs} (h : b.quiet) (a : Word) (bs : List Byte) :
    legalTrace p b (bulkReadTrace p a bs) = true := by
  obtain ⟨hstart, hready⟩ := legalTrace_startReading (p := p) h
  obtain ⟨hreads, hend⟩ := legalTrace_readTrace hready a bs
  rw [bulkReadTrace, legalTrace_append, legalTrace_append, hstart, hreads, List.foldl_append]
  exact legalTrace_stopReading hend

theorem legalTrace_outputTrace {p : Params} {b : BusRegs} (h : b.quiet) (cs : List (Word × Byte)) :
    legalTrace p b (outputTrace p cs) = true := by
  have hdir : legalEvent p b (.setDir .output) = true := dirReady_of_quiet h
  obtain ⟨hce, hoe, hwe⟩ := h
  have hready : writeReady (applyEvent p.addrBits b (.setDir .output)) = true := writeReady_iff.mpr ⟨rfl, hoe, hce, hwe⟩
  rw [outputTrace, legalTrace_cons, hdir, legalTrace_writeTrace hready]
  rfl

/-! ### Direction and OE (R340 (e)) -/

/-- The events that R340 (e) counts. -/
def isToggle : BusEvent → Bool
  | .setDir _ => true
  | .assertLine .oe => true
  | .deassertLine .oe => true
  | _ => false

/-- A trace in which none of these events comes twice. -/
theorem noToggling_of_nodup {es : List BusEvent} (h : (es.filter isToggle).Nodup) : noToggling es = true := by
  have hcount : ∀ e, isToggle e = true → decide (es.count e ≤ 1) = true := fun e he =>
    decide_eq_true (List.count_filter he ▸ List.nodup_iff_count_le_one.mp h e)
  rw [noToggling, hcount _ rfl, hcount _ rfl, hcount _ rfl, hcount _ rfl]
  rfl

theorem toggles_readTrace (p : Params) (a : Word) (bs : List Byte) : (readTrace p a bs).filter isToggle = [] := by
  induction bs generalizing a with
  | nil => rfl
  | cons v bs ih =>
    rw [readTrace, List.filter_append, ih]
    rfl

theorem toggles_writeTrace (p : Params) (cs : List (Word × Byte)) : (writeTrace p cs).filter isToggle = [] := by
  induction cs with
  | nil => rfl
  | cons c cs ih =>
    rw [writeTrace, List.filter_append, ih]
    rfl

theorem toggles_bulkReadTrace (p : Params) (a : Word) (bs : List Byte) :
    (bulkReadTrace p a bs).filter isToggle = [BusEvent.setDir .input, .assertLine .oe, .deassertLine .oe] := by
  rw [bulkReadTrace, List.filter_append, List.filter_append, toggles_readTrace]
  rfl

theorem toggles_outputTrace (p : Params) (cs : List (Word × Byte)) :
    (outputTrace p cs).filter isToggle = [BusEvent.setDir .output] :=
  congrArg (BusEvent.setDir .output :: ·) (toggles_writeTrace p cs)

/-! ### The traces of commands -/

/-- The checker asks for four things, the last of T alone. -/
theorem hazardFree_of {p : Params} {i : Instr} {b : BusRegs} {es : List BusEvent} (hlegal : legalTrace p b es = true)
    (hdir : directionFirst es = true) (htoggle : noToggling es = true)
    (hlast : (i != Instr.program || endsWaiting p.tPageMin es) = true) : hazardFree p i b es = true := by
  rw [hazardFree, hlegal, hdir, htoggle, hlast]
  rfl

theorem hazardFree_of_ne_program {p : Params} {i : Instr} {b : BusRegs} {es : List BusEvent} (hi : i ≠ Instr.program)
    (hlegal : legalTrace p b es = true) (hdir : directionFirst es = true) (htoggle : noToggling es = true) :
    hazardFree p i b es = true :=
  hazardFree_of hlegal hdir htoggle (Bool.or_eq_true_iff.mpr (.inl (bne_iff_ne.mpr hi)))

/-- A trace that a wait ends. -/
theorem endsWaiting_concat (t : Nat) (es : List BusEvent) : endsWaiting t (es ++ [BusEvent.wait t]) = true := by
  rw [endsWaiting, List.getLast?_concat]
  exact decide_eq_true (Nat.le_refl t)

theorem hazardFree_bulkReadTrace {p : Params} {i : Instr} {b : BusRegs} (hi : i ≠ Instr.program) (h : b.quiet)
    (a : Word) (bs : List Byte) : hazardFree p i b (bulkReadTrace p a bs) = true := by
  refine hazardFree_of_ne_program hi (legalTrace_bulkReadTrace h a bs) rfl (noToggling_of_nodup ?_)
  simp [toggles_bulkReadTrace]

theorem hazardFree_outputTrace {p : Params} {i : Instr} {b : BusRegs} (hi : i ≠ Instr.program) (h : b.quiet)
    (cs : List (Word × Byte)) : hazardFree p i b (outputTrace p cs) = true := by
  refine hazardFree_of_ne_program hi (legalTrace_outputTrace h cs) rfl (noToggling_of_nodup ?_)
  simp [toggles_outputTrace]

/-- P and U: the read of byte 0 ends with the lines deasserted, and the writes start from there. -/
theorem hazardFree_protectionTrace {i : Instr} {s : State} (hi : i ≠ Instr.program) (h : s.bus.quiet) (enable : Bool) :
    hazardFree s.params i s.bus (protectionTrace s enable) = true := by
  refine hazardFree_of_ne_program hi ?_ rfl (noToggling_of_nodup ?_)
  · rw [protectionTrace, legalTrace_append, legalTrace_bulkReadTrace h, legalTrace_outputTrace (quiet_bulkReadTrace h)]
    rfl
  · simp [protectionTrace, toggles_bulkReadTrace, toggles_outputTrace]

/-- T: the writes, and the write-cycle wait last (R200, R340 (f)). -/
theorem hazardFree_programTrace {p : Params} {b : BusRegs} (h : b.quiet) (cs : List (Word × Byte)) :
    hazardFree p .program b (outputTrace p cs ++ [BusEvent.wait p.tPageMin]) = true := by
  refine hazardFree_of ?_ rfl (noToggling_of_nodup ?_) (endsWaiting_concat _ _)
  · rw [legalTrace_append, legalTrace_outputTrace h]
    rfl
  · rw [List.filter_append, toggles_outputTrace]
    simp [isToggle]

/-! ### What a command makes of the bus -/

/-- The result goes on from `s`, adds pin events only, the bus registers are what these make of them, and they keep the hazards. -/
def MakesSafePins (i : Instr) (s : State) (r : Result) : Prop :=
  ∃ t es, r = .next t ∧ t.history = s.history ++ es.map PortEvent.pin ∧
    t.bus = es.foldl (applyEvent s.params.addrBits) s.bus ∧ hazardFree s.params i s.bus es = true

section Outcomes

variable {i : Instr} {s t : State}

/-- A command that leaves history and bus alone, as every command does that ends in an error (R264). -/
theorem makesSafePins_silent (hi : i ≠ Instr.program) (hhistory : t.history = s.history) (hbus : t.bus = s.bus) :
    MakesSafePins i s (.next t) :=
  ⟨t, [], rfl, hhistory.trans (List.append_nil _).symm, hbus, hazardFree_of_ne_program hi rfl rfl rfl⟩

/-- W and S make pins only in their own work: the parse errors and a wrong checksum make none (R262). -/
theorem withPayload_makesSafePins {run : Word → List Byte → State → Result} (hi : i ≠ Instr.program) (arg : PayloadOperand)
    (hrun : ∀ a bs data, MakesSafePins i s (run a bs (loadXfer data s))) : MakesSafePins i s (withPayload arg run s) := by
  cases arg with
  | noAddress => exact makesSafePins_silent hi rfl rfl
  | noSeparator => exact makesSafePins_silent hi rfl rfl
  | fields a data given =>
    rw [withPayload_fields]
    cases checksumMismatch given (data.take s.params.xferCap) with
    | none => exact hrun a _ data
    | some gc => exact makesSafePins_silent hi rfl rfl

end Outcomes

/-- P and U: `sdp_saved` and the reply are no pin events. -/
theorem protection_makesSafePins {i : Instr} {s : State} (hi : i ≠ Instr.program) (h : s.bus.quiet) (enable : Bool) :
    MakesSafePins i s (replyOk (setSoftwareDataProtection enable s)) := by
  rw [setSoftwareDataProtection_eq, if_pos (dirReady_of_quiet h)]
  exact ⟨_, protectionTrace s enable, rfl, emit_history _ _, emit_bus _ _, hazardFree_protectionTrace hi h enable⟩

theorem read_makesSafePins {s : State} (h : s.bus.quiet) (a : Word) :
    MakesSafePins (.read (.value a)) s (execRead (.value a) s) := by
  rw [execRead, bulkRead_ok h]
  refine ⟨_, bulkReadTrace s.params a (samplesAhead s.params.xferCap s), rfl, ?_, ?_, hazardFree_bulkReadTrace (by nofun) h a _⟩
  · rw [replyData, emit_history, emit_history, loadXfer_history, perform_history, takeSamples_history]
  · rw [replyData, emit_bus, emit_bus, loadXfer_bus, perform_bus, takeSamples_params, takeSamples_bus]

/-- Every command, well-formed or not: P, U, R, W, B and T have their traces, every other command makes no pin event. -/
theorem exec_makesSafePins (i : Instr) {s : State} (h : s.bus.quiet) : MakesSafePins i s (exec i s) := by
  cases i with
  | version => exact makesSafePins_silent (by nofun) rfl rfl
  | protect => exact protection_makesSafePins (by nofun) h true
  | unprotect => exact protection_makesSafePins (by nofun) h false
  | read arg =>
    cases arg with
    | missing => exact makesSafePins_silent (by nofun) rfl rfl
    | value a => exact read_makesSafePins h a
  | write arg =>
    rw [exec, execWrite]
    refine withPayload_makesSafePins (by nofun) arg fun a bs data => ?_
    rw [bulkWrite_ok (s := loadXfer data s) h]
    exact ⟨_, _, rfl, rfl, rfl, hazardFree_outputTrace (by nofun) h _⟩
  | erase =>
    rw [exec, execErase, eraseChip_ok h]
    exact ⟨_, _, rfl, rfl, rfl, hazardFree_outputTrace (by nofun) h _⟩
  | prepare arg =>
    cases arg with
    | missing => exact makesSafePins_silent (by nofun) rfl rfl
    | value a => exact makesSafePins_silent (by nofun) rfl rfl
  | fill arg =>
    rw [exec, execFill]
    exact withPayload_makesSafePins (by nofun) arg fun a bs data =>
      makesSafePins_silent (by nofun) (emit_history _ _) (emit_bus _ _)
  | program =>
    rw [exec, execProgram, programPageBuffer_ok h]
    exact ⟨_, _, rfl, rfl, rfl, hazardFree_programTrace h _⟩
  | help =>
    rw [exec, execHelp, emitAll_eq]
    exact makesSafePins_silent (by nofun) rfl rfl
  | empty => exact makesSafePins_silent (by nofun) rfl rfl
  | unrecognized tag => exact makesSafePins_silent (by nofun) rfl rfl

/-- Settles O17: the trace of each command keeps the hazards, and every command ends quiet (`exec_ends_quiet`). -/
theorem commandTracesAreLegal : Obligations.CommandTracesAreLegal := by
  unfold Obligations.CommandTracesAreLegal
  intro i s h
  obtain ⟨t, es, ht, hhistory, hbus, hsafe⟩ := exec_makesSafePins i h
  obtain ⟨u, hu, hquiet⟩ := exec_ends_quiet i h
  obtain rfl := Host.Outcome.next.inj (ht.symm.trans hu)
  exact ⟨t, es, ht, hhistory, hbus, hsafe, hquiet⟩

end Sys2Proof.Machine
end

section
/-!
PROOF of ProtectionChangeKeepsByteZero (O59): which chip addresses a trace samples and which bytes, and that storing the byte which a
chip address holds changes no byte of the ideal chip of decision D38.
-/

namespace Sys2Proof.Machine

/-! ### The samples among pin events (R164) -/

theorem sampledAddrs_append (bits : Nat) (b : BusRegs) (es fs : List BusEvent) :
    sampledAddrs bits b (es ++ fs) = sampledAddrs bits b es ++ sampledAddrs bits (es.foldl (applyEvent bits) b) fs := by
  induction es generalizing b with
  | nil => rfl
  | cons e es ih =>
    simp only [List.cons_append, sampledAddrs, ih, List.foldl_cons]
    split
    · rfl
    · rfl

theorem sampledBytes_append (es fs : List BusEvent) : sampledBytes (es ++ fs) = sampledBytes es ++ sampledBytes fs :=
  List.filterMap_append

/-- A write cycle takes no sample. -/
theorem sampledAddrs_writeTrace (p : Params) (bits : Nat) (b : BusRegs) (cs : List (Word × Byte)) :
    sampledAddrs bits b (writeTrace p cs) = [] := by
  induction cs generalizing b with
  | nil => rfl
  | cons c cs ih => rw [writeTrace, sampledAddrs_append, ih, List.append_nil]; rfl

theorem sampledBytes_writeTrace (p : Params) (cs : List (Word × Byte)) : sampledBytes (writeTrace p cs) = [] := by
  induction cs with
  | nil => rfl
  | cons c cs ih => rw [writeTrace, sampledBytes_append, ih, List.append_nil]; rfl

/-! ### The cycles of P and U (R192, R193) -/

section Protection

variable (s : State) (enable : Bool) (bits : Nat) (b : BusRegs)

/-- The one address sampled is that of the trailing write. -/
theorem sampledAddrs_protectionTrace :
    sampledAddrs bits b (protectionTrace s enable) = [chipaddr bits s.params.sdpRestoreAddr] :=
  calc sampledAddrs bits b (protectionTrace s enable)
    _ = [chipaddr bits s.params.sdpRestoreAddr] ++ sampledAddrs bits _ (writeTrace s.params _) := sampledAddrs_append bits b _ _
    _ = [chipaddr bits s.params.sdpRestoreAddr] := by rw [sampledAddrs_writeTrace, List.append_nil]

theorem sampledBytes_protectionTrace : sampledBytes (protectionTrace s enable) = [s.nextSample] :=
  calc sampledBytes (protectionTrace s enable)
    _ = [s.nextSample] ++ sampledBytes (writeTrace s.params _) := sampledBytes_append _ _
    _ = [s.nextSample] := by rw [sampledBytes_writeTrace, List.append_nil]

/-- The write cycles are the sequence and then the write of the sampled byte. -/
theorem writesOf_protectionTrace :
    ∃ ws, writesOf bits b (protectionTrace s enable) = ws ++ [(chipaddr bits s.params.sdpRestoreAddr, s.nextSample)] := by
  refine ⟨(sdpCycles s.params enable).map fun c => (chipaddr bits c.1, c.2), ?_⟩
  calc writesOf bits b (protectionTrace s enable)
    _ = [] ++ writesOf bits _ (writeTrace s.params _) := writesOf_append bits b _ _
    _ = _ := by rw [writesOf_writeTrace, List.map_append]; rfl

end Protection

/-! ### The ideal chip (D38) -/

/-- Storing the byte that a chip address holds changes nothing. -/
theorem readCell_writeCell_self {bits : Nat} {m : ChipMemory} (h : m.wf bits = true) (a c : Nat) :
    readCell (writeCell m a (readCell m a)) c = readCell m c := by
  rw [readCell_writeCell h]
  split
  · next e => rw [e]
  · rfl

/-- P and U store their trailing write alone. -/
theorem chipAfter_protection {i : Instr} (hi : i = Instr.protect ∨ i = Instr.unprotect) (ws : List (ChipAddr × Byte))
    (a : ChipAddr) (v : Byte) (m : ChipMemory) : chipAfter i (ws ++ [(a, v)]) m = writeCell m a.toNat v := by
  have hlast : storeAll m ((ws ++ [(a, v)]).drop ((ws ++ [(a, v)]).length - 1)) = writeCell m a.toNat v := by
    rw [List.length_append, List.length_singleton, Nat.add_sub_cancel, List.drop_left]
    rfl
  rcases hi with rfl | rfl
  · exact hlast
  · exact hlast

/-- P and U from deasserted lines make the pin events of one `protectionTrace`. -/
theorem exec_protection_newPins {i : Instr} (hi : i = Instr.protect ∨ i = Instr.unprotect) {s t : State} (hquiet : s.bus.quiet)
    (h : exec i s = .next t) : ∃ enable, newPins s t = protectionTrace s enable := by
  have hpins : wellFormed s.params i = true → newPins s t = pinsOf i s := fun hwf => by
    obtain ⟨u, hu, hhistory⟩ := exec_pins hwf hquiet
    obtain rfl := Host.Outcome.next.inj (h.symm.trans hu)
    exact newPins_of_history hhistory
  rcases hi with rfl | rfl
  · exact ⟨true, hpins rfl⟩
  · exact ⟨false, hpins rfl⟩

/-- Settles O59: the trailing write is the last of the write cycles, and it stores what the chip holds there. -/
theorem protectionChangeKeepsByteZero : Obligations.ProtectionChangeKeepsByteZero := by
  unfold Obligations.ProtectionChangeKeepsByteZero
  intro i m s t hi hwf hquiet hexec
  have hcommand : i = Instr.protect ∨ i = Instr.unprotect := by simpa using hi
  obtain ⟨enable, hpins⟩ := exec_protection_newPins hcommand hquiet hexec
  obtain ⟨ws, hwrites⟩ := writesOf_protectionTrace s enable s.params.addrBits s.bus
  rw [hpins, drivenBy, sampledAddrs_protectionTrace, sampledBytes_protectionTrace, hwrites]
  refine ⟨List.getLast?_concat, rfl, fun hdriven c => ?_⟩
  have hsample : s.nextSample = readCell m (chipaddr s.params.addrBits s.params.sdpRestoreAddr).toNat := by simpa using hdriven
  rw [chipAfter_protection hcommand, hsample]
  exact readCell_writeCell_self hwf _ c

end Sys2Proof.Machine
end

section
/-!
PROOF of LegacyPrepareErasesLastByte (O31): the page after N with LEGACY_PREPARE_FILL = true is `preparedPage` (42_chip_operations.md R201).
-/

namespace Sys2Proof.Machine

theorem exec_prepare (a : Word) (s : State) :
    exec (.prepare (.value a)) s =
      .next { s with base := a, page := preparedPage s.params s.page, reply := s.replied [[0x4F, 0x4B]] } :=
  congrArg Host.Outcome.next (emit_eq okLine (preparePageBuffer a s))

/-- Settles O31: N changes the base, the page and the reply queue; the page is read off `preparedPage_legacy`. -/
theorem legacyPrepareErasesLastByte : Obligations.LegacyPrepareErasesLastByte := by
  unfold Obligations.LegacyPrepareErasesLastByte
  intro a s hlegacy hpage
  exact ⟨_, exec_prepare a s, rfl, preparedPage_length hpage, fun j hj => preparedPage_legacy hlegacy hpage hj⟩

end Sys2Proof.Machine
end

section
/-!
PROOF of ReceiveOneByte (O40), AwaitingTakesOneByte (O42), StepRunsDecodedInstruction (O44) and HostLineReachesItsHandler (O56): one
received byte, the step that takes it, the run of steps that takes a whole line, and the step after it (43_protocol.md R223, R224, R226).
-/

namespace Sys2Proof.Machine

/-! ### One received byte (R224) -/

/-- What is not above `CTRL_MAX` is discarded (R101). -/
theorem storable_eq_false_iff (b : Byte) : storable b = false ↔ b ≤ Config.ctrlMax := by
  rw [← Bool.not_eq_true, storable_iff, BitVec.not_lt]

/-- Reception touches the state machine and the line, and nothing else. -/
theorem receive_frame (b : Byte) (s : State) :
    ∃ fsm line len ovf, receive b s = { s with fsm := fsm, line := line, len := len, ovf := ovf } := by
  rw [receive]
  split
  · exact ⟨_, _, _, _, rfl⟩
  · split
    · split
      · exact ⟨_, _, _, _, rfl⟩
      · exact ⟨_, _, _, _, rfl⟩
    · exact ⟨_, _, _, _, rfl⟩

theorem receive_rst (b : Byte) (s : State) : (receive b s).rst = s.rst := by
  obtain ⟨fsm, line, len, ovf, h⟩ := receive_frame b s
  rw [h]

/-- Only an LF moves the state machine. -/
theorem receive_fsm {b : Byte} (h : b ≠ Config.lineTerm) (s : State) : (receive b s).fsm = s.fsm := by
  cases hs : storable b with
  | false => rw [receive_control h hs]
  | true =>
    by_cases hroom : s.len < s.params.lineCap
    · rw [receive_storable hs hroom]
    · rw [receive_overflow hs hroom]

/-- Settles O40: the four cases of R224; a byte that fits is stored at `len`, which then lies in the buffer. -/
theorem receiveOneByte : Obligations.ReceiveOneByte := by
  unfold Obligations.ReceiveOneByte
  intro b s hline
  split
  · next hlf => rw [hlf, receive_lf]
  · next hlf =>
    split
    · next hcontrol => exact receive_control hlf ((storable_eq_false_iff b).mpr hcontrol) s
    · next hcontrol =>
      have hs : storable b = true := (storable_iff b).mpr (BitVec.not_le.mp hcontrol)
      split
      · next hroom => rw [receive_storable hs hroom, putByte_eq_set (hline ▸ hroom)]
      · next hroom => exact receive_overflow hs hroom

/-! ### Bytes taken off `rx` (R223) -/

/-- `s` after these bytes have moved on `rx`, with `rest` still on offer; their reception is apart. -/
def afterInput (taken rest : List Byte) (s : State) : State :=
  { s with rx := rest, history := s.history ++ taken.map .rx }

/-- A byte that is taken is received (R224). -/
theorem takeByte_cons {b : Byte} {bs : List Byte} {s : State} (h : s.rx = b :: bs) :
    takeByte s = receive b (afterInput [b] bs s) := by
  rw [takeByte, h]
  rfl

theorem takeByte_nil {s : State} (h : s.rx = []) : takeByte s = s := by
  rw [takeByte, h]

/-- Taking one byte and then more is taking them all. -/
theorem afterInput_afterInput (taken more rest left : List Byte) (s : State) :
    afterInput more left (afterInput taken rest s) = afterInput (taken ++ more) left s := by
  simp [afterInput]

/-- Reception neither reads nor changes what moved on `rx`. -/
theorem receive_afterInput (b : Byte) (taken rest : List Byte) (s : State) :
    receive b (afterInput taken rest s) = afterInput taken rest (receive b s) := by
  by_cases hlf : b = Config.lineTerm
  · rw [hlf, receive_lf, receive_lf]
    rfl
  cases hs : storable b with
  | false => rw [receive_control hlf hs, receive_control hlf hs]
  | true =>
    by_cases hroom : s.len < s.params.lineCap
    · rw [receive_storable hs hroom, receive_storable (s := afterInput taken rest s) hs hroom]
      rfl
    · rw [receive_overflow hs hroom, receive_overflow (s := afterInput taken rest s) hs hroom]
      rfl

/-- Settles O42: a step from AwaitingLine is `takeByte`. -/
theorem awaitingTakesOneByte : Obligations.AwaitingTakesOneByte := by
  unfold Obligations.AwaitingTakesOneByte
  intro s hfsm hrst
  rw [step_awaiting hfsm hrst]
  exact ⟨fun b bs hrx => congrArg Host.Outcome.next (takeByte_cons hrx),
    fun hrx => congrArg Host.Outcome.next (takeByte_nil hrx)⟩

/-! ### A whole line (R220, R226) -/

theorem receiveAll_cons (b : Byte) (bs : List Byte) {s : State} (h : s.fsm = .awaitingLine) :
    receiveAll (b :: bs) s = receiveAll bs (receive b s) := by
  rw [receiveAll, h]

theorem receiveAll_singleton (b : Byte) {s : State} (h : s.fsm = .awaitingLine) : receiveAll [b] s = receive b s := by
  rw [receiveAll_cons b [] h, receiveAll]

/-- A line on offer is taken one byte a step, and all its bytes are received in order. -/
theorem run_takes_line {raw rest : List Byte} {s : State} (hfsm : s.fsm = .awaitingLine) (hrst : s.rst = none)
    (hraw : Config.lineTerm ∉ raw) (hrx : s.rx = raw ++ Config.lineTerm :: rest) :
    Sys2Proof.core.run (raw.length + 1) s =
      .next (receiveAll (raw ++ [Config.lineTerm]) (afterInput (raw ++ [Config.lineTerm]) rest s)) := by
  induction raw generalizing s with
  | nil =>
    have hreceive := receiveAll_singleton Config.lineTerm (s := afterInput [Config.lineTerm] rest s) hfsm
    rw [List.nil_append, hreceive, ← takeByte_cons hrx]
    exact run_succ (step_awaiting hfsm hrst) 0
  | cons b bs ih =>
    obtain ⟨hb, hbs⟩ : b ≠ Config.lineTerm ∧ Config.lineTerm ∉ bs := by simpa [eq_comm] using hraw
    have htake := takeByte_cons hrx
    have hawaiting : (takeByte s).fsm = .awaitingLine := by rw [htake, receive_fsm hb]; exact hfsm
    have hlow : (takeByte s).rst = none := by rw [htake, receive_rst]; exact hrst
    have hoffer : (takeByte s).rx = bs ++ Config.lineTerm :: rest := by rw [htake, receive_afterInput]; rfl
    have htaken : afterInput (bs ++ [Config.lineTerm]) rest (takeByte s) =
        receive b (afterInput (b :: bs ++ [Config.lineTerm]) rest s) := by
      rw [htake, ← receive_afterInput, afterInput_afterInput]
      rfl
    rw [List.cons_append, receiveAll_cons b _ (s := afterInput _ rest s) hfsm, ← List.cons_append, ← htaken]
    exact (run_succ (step_awaiting hfsm hrst) _).trans (ih hawaiting hlow hbs hoffer)

/-- Settles O44: without an overflow the dispatch is the handler alone. -/
theorem stepRunsDecodedInstruction : Obligations.StepRunsDecodedInstruction := by
  unfold Obligations.StepRunsDecodedInstruction
  intro s hfsm hreply hrst hovf
  rw [step_dispatch hfsm hreply hrst, dispatch, if_neg (by simp [hovf])]

/-- A block at the start of a line is as `startLine` leaves it (R221). -/
theorem startLine_of_started {s : State} (hfsm : s.fsm = .awaitingLine) (hlen : s.len = 0) (hovf : s.ovf = false)
    (hreply : s.reply = none) : startLine s = s := by
  rw [startLine, ← hfsm, ← hlen, ← hovf, ← hreply]

theorem lineTerm_notMem_encode {p : Params} {i : Instr} (hwf : wellFormed p i = true) : Config.lineTerm ∉ encode i := by
  intro hmem
  obtain ⟨-, hstorable⟩ := encode_line i p hwf
  exact Bool.noConfusion (not_storable_lineTerm.symm.trans (hstorable _ hmem))

/-- The line of an instruction fits the Command Line (R11), so that it is stored whole and does not overflow. -/
theorem receiveAll_encodeRaw {i : Instr} {s : State} (hok : s.params.ok) (hwf : wellFormed s.params i = true) :
    ∃ t, receiveAll (encodeRaw i) (startLine s) = t ∧ t.lineBytes = encode i ∧
      t = { startLine s with fsm := .dispatching, line := t.line, len := t.len } := by
  obtain ⟨-, -, -, -, -, hroom, -⟩ := hok
  obtain ⟨hshort, hstorable⟩ := encode_line i s.params hwf
  have hfits : (encode i).length ≤ s.params.lineCap := Nat.le_trans hshort hroom
  have hstored : (encode i).filter (fun b => 0x1F < b) = encode i := List.filter_eq_self.mpr hstorable
  obtain ⟨t, ht, hbytes, -, hovf, hframe⟩ := receptionKeepsTheLine (encode i) s (lineTerm_notMem_encode hwf)
  rw [hstored] at hbytes hovf
  have hnotFull : t.ovf = false := by
    rw [← Bool.not_eq_true, hovf, Nat.not_lt]
    exact hfits
  refine ⟨t, ht, hbytes.trans (List.take_of_length_le hfits), ?_⟩
  rw [hnotFull] at hframe
  exact hframe

/-- Settles O56: the line is taken and stored whole; it decodes to the instruction as O1 says, so that the next step runs it (O44). -/
theorem hostLineReachesItsHandler : Obligations.HostLineReachesItsHandler := by
  unfold Obligations.HostLineReachesItsHandler
  intro i rest s hok hwf hfsm hlen hovf hreply hrst hrx
  have hoffer : s.rx = encode i ++ Config.lineTerm :: rest := hrx.trans (List.append_assoc _ _ _)
  have hrun := run_takes_line hfsm hrst (lineTerm_notMem_encode hwf) hoffer
  obtain ⟨t, ht, hline, hframe⟩ := receiveAll_encodeRaw (s := afterInput (encodeRaw i) rest s) hok hwf
  rw [startLine_of_started (s := afterInput (encodeRaw i) rest s) hfsm hlen hovf hreply] at ht hframe
  have hdispatch : step t = exec (decodeLine t.params t.lineBytes) t := by
    apply stepRunsDecodedInstruction
    · rw [hframe]
    · rw [hframe]; exact hreply
    · rw [hframe]; exact hrst
    · rw [hframe]; exact hovf
  have hparams : t.params = s.params := by rw [hframe]; rfl
  refine ⟨t, ?_, hframe, hline, ?_⟩
  · rw [encodeRaw, List.length_append, ← ht]
    exact hrun
  · rw [hdispatch, hline, hparams, decodeLine_encode hwf]

end Sys2Proof.Machine
end

section
/-!
PROOF of OverflowedLineRunsNothing (O45), InputOnlyInAwaitingLine (O43) and OnlyTheseTransitions (O49): what a step from Dispatching can do
(43_protocol.md R220, R223, R225, R226).
-/

namespace Sys2Proof.Machine

/-! ### Running the line's handler (R226) -/

/-- Settles O45: an overflowed line only raises, and its error line is `ERR` for all parameters. -/
theorem overflowedLineRunsNothing : Obligations.OverflowedLineRunsNothing := by
  unfold Obligations.OverflowedLineRunsNothing
  intro s hfsm hreply hrst hovf
  rw [step_dispatch hfsm hreply hrst, dispatch_overflowed hovf, raise_eq]
  rfl

/-- A dispatched line, overflowed or not, leaves the state machine, the offered input and the two input levels alone, and leaves a reply. -/
theorem dispatch_frame {s t : State} (h : dispatch s = .next t) :
    t.fsm = s.fsm ∧ t.rx = s.rx ∧ t.txReady = s.txReady ∧ t.rst = s.rst ∧ ∃ r, t.reply = some r := by
  rw [dispatch] at h
  split at h
  · cases h
    exact ⟨rfl, rfl, rfl, rfl, _, rfl⟩
  · obtain ⟨hframe, -⟩ := onlyTheseCommandsChangeEachRegister _ s t h
    simp only [Prod.mk.injEq] at hframe
    obtain ⟨-, hfsm, -, -, -, hrx, htxReady, hrst, -⟩ := hframe
    obtain ⟨u, r, -, rfl⟩ := exec_effect h
    exact ⟨hfsm, hrx, htxReady, hrst, r, rfl⟩

/-! ### Handing the reply over (R298) -/

theorem sendReply_waiting (left : List Byte) {s : State} {n : Nat} (h : s.bus.timer = .waiting n) :
    sendReply left s = elapse s := by
  simp only [sendReply, h]

theorem sendReply_nil {s : State} (h : s.bus.timer = .idle) : sendReply [] s = startLine s := by
  simp only [sendReply, h]

theorem sendReply_ready (b : Byte) (rest : List Byte) {s : State} (h : s.bus.timer = .idle) (hready : s.txReady = true) :
    sendReply (b :: rest) s = handOver b rest s := by
  simp only [sendReply, h, hready, if_true]

theorem sendReply_stalled (b : Byte) (rest : List Byte) {s : State} (h : s.bus.timer = .idle) (hready : s.txReady = false) :
    sendReply (b :: rest) s = s := by
  simp [sendReply, h, hready]

/-- A step of the reply lets the delay run out, starts a new line, hands a byte over, or waits for the transport. -/
theorem sendReply_cases (left : List Byte) (s : State) :
    sendReply left s = elapse s ∨
    (left = [] ∧ s.bus.timer = .idle ∧ sendReply left s = startLine s) ∨
    (∃ b rest, left = b :: rest ∧ sendReply left s = handOver b rest s) ∨
    sendReply left s = s := by
  cases htimer : s.bus.timer with
  | waiting n => exact .inl (sendReply_waiting left htimer)
  | idle =>
    cases left with
    | nil => exact .inr (.inl ⟨rfl, rfl, sendReply_nil htimer⟩)
    | cons b rest =>
      cases hready : s.txReady with
      | true => exact .inr (.inr (.inl ⟨b, rest, rfl, sendReply_ready b rest htimer hready⟩))
      | false => exact .inr (.inr (.inr (sendReply_stalled b rest htimer hready)))

theorem sendReply_rx (left : List Byte) (s : State) : (sendReply left s).rx = s.rx := by
  obtain h | ⟨-, -, h⟩ | ⟨b, rest, -, h⟩ | h := sendReply_cases left s
  · rw [h, elapse_rx]
  · rw [h, startLine_rx]
  · rw [h, handOver_rx]
  · rw [h]

/-! ### One step from Dispatching -/

/-- While `rst` is low a step from Dispatching runs the handler, or goes on with the reply (R220). -/
theorem blockStep_dispatching {s t : State} (hfsm : s.fsm = .dispatching) (h : blockStep s = .next t) :
    (s.reply = none ∧ dispatch s = .next t) ∨ ∃ left, s.reply = some left ∧ t = sendReply left s := by
  rw [blockStep, hfsm] at h
  cases hreply : s.reply with
  | none => exact .inl ⟨rfl, by simpa only [hreply] using h⟩
  | some left =>
    simp only [hreply, Host.Outcome.next.injEq] at h
    exact .inr ⟨left, rfl, h.symm⟩

theorem blockStep_rx {s t : State} (hfsm : s.fsm = .dispatching) (h : blockStep s = .next t) : t.rx = s.rx := by
  obtain ⟨-, hdispatch⟩ | ⟨left, -, rfl⟩ := blockStep_dispatching hfsm h
  · obtain ⟨-, hrx, -⟩ := dispatch_frame hdispatch
    exact hrx
  · exact sendReply_rx left s

/-- While `rst` is low a step is a transition of the block. -/
theorem step_low {s : State} (h : s.rst = none) : step s = blockStep s := by
  rw [step, protocolStep, h]

/-- Where a reset cuts a step short, what that step took off `rx` stays taken (R333). -/
theorem cutStep_rx {k : Nat} {s t u : State} (h : cutStep k s (.next u) = .next t) : t.rx = u.rx := by
  simp only [cutStep] at h
  split at h
  · cases h
    rfl
  · cases h
    rfl

/-- A step with a reset offers the same input after it as before, or as the step without the reset does (log 6). -/
theorem step_rx {s t : State} (h : step s = .next t) : t.rx = s.rx ∨ ∃ u, blockStep s = .next u ∧ t.rx = u.rx := by
  match hrst : s.rst with
  | none => exact .inr ⟨t, (step_low hrst).symm.trans h, rfl⟩
  | some 0 =>
    rw [step_reset hrst] at h
    cases h
    exact .inl rfl
  | some (k + 1) =>
    rw [step_cut hrst] at h
    cases hstep : blockStep s with
    | fault f => rw [hstep] at h; cases h
    | refused r => rw [hstep] at h; cases h
    | next u =>
      rw [hstep] at h
      exact .inr ⟨u, rfl, cutStep_rx h⟩

/-- Settles O43: no transition from Dispatching takes input, and a reset leaves the input alone. -/
theorem inputOnlyInAwaitingLine : Obligations.InputOnlyInAwaitingLine := by
  unfold Obligations.InputOnlyInAwaitingLine
  intro s t hstep hfsm
  obtain hrx | ⟨u, hu, hrx⟩ := step_rx hstep
  · exact hrx
  · exact hrx.trans (blockStep_rx hfsm hu)

/-! ### The transitions of R220 -/

theorem takeByte_ends_line {s : State} (hfsm : s.fsm = .awaitingLine) (h : (takeByte s).fsm = .dispatching) :
    ∃ bs, s.rx = Config.lineTerm :: bs := by
  cases hrx : s.rx with
  | nil =>
    rw [takeByte_nil hrx, hfsm] at h
    cases h
  | cons b bs =>
    by_cases hlf : b = Config.lineTerm
    · exact ⟨bs, by rw [hlf]⟩
    · rw [takeByte_cons hrx, receive_fsm hlf, afterInput, hfsm] at h
      cases h

/-- Only the start of a new line leaves Dispatching. -/
theorem sendReply_ends_reply {left : List Byte} {s : State} (hfsm : s.fsm = .dispatching)
    (h : (sendReply left s).fsm = .awaitingLine) : left = [] ∧ s.bus.timer = .idle ∧ sendReply left s = startLine s := by
  have hstays (hsame : (sendReply left s).fsm = s.fsm) : False := by
    rw [hsame, hfsm] at h
    cases h
  obtain hsent | hsent | ⟨b, rest, -, hsent⟩ | hsent := sendReply_cases left s
  · exact (hstays (by rw [hsent, elapse_fsm])).elim
  · exact hsent
  · exact (hstays (by rw [hsent, handOver_fsm])).elim
  · exact (hstays (by rw [hsent])).elim

/-- Settles O49: reception ends AwaitingLine; a handler keeps Dispatching, and of the reply only its end leaves it. -/
theorem onlyTheseTransitions : Obligations.OnlyTheseTransitions := by
  unfold Obligations.OnlyTheseTransitions
  intro s t hstep hrst
  constructor
  · intro hfsm hdispatching
    rw [step_awaiting hfsm hrst] at hstep
    cases hstep
    exact takeByte_ends_line hfsm hdispatching
  · intro hfsm hawaiting
    rw [step_low hrst] at hstep
    obtain ⟨-, hdispatch⟩ | ⟨left, hreply, rfl⟩ := blockStep_dispatching hfsm hstep
    · obtain ⟨hsame, -⟩ := dispatch_frame hdispatch
      rw [hsame, hfsm] at hawaiting
      cases hawaiting
    · obtain ⟨rfl, htimer, hstart⟩ := sendReply_ends_reply hfsm hawaiting
      exact ⟨hreply, htimer, hstart⟩

end Sys2Proof.Machine
end

section
/-!
PROOF of ReplyIsHandedOver (O46) and EveryLineReturnsToAwaitingLine (O55): the runs from Dispatching back to AwaitingLine (43_protocol.md
R220, R222).
-/

namespace Sys2Proof.Machine

/-! ### The reply (R298) -/

section Replying

variable {s : State} (hfsm : s.fsm = .dispatching) (hrst : s.rst = none)
include hfsm hrst

/-- A byte is handed over as soon as the transport is ready and no delay runs. -/
theorem step_handOver {b : Byte} {bs : List Byte} (hreply : s.reply = some (b :: bs)) (htimer : s.bus.timer = .idle)
    (hready : s.txReady = true) : step s = .next (handOver b bs s) := by
  rw [step_reply hfsm hreply hrst, sendReply_ready b bs htimer hready]

/-- After the last byte a new line starts. -/
theorem step_startLine (hreply : s.reply = some []) (htimer : s.bus.timer = .idle) : step s = .next (startLine s) := by
  rw [step_reply hfsm hreply hrst, sendReply_nil htimer]

/-- A delay that runs delays the reply by one step (R200). -/
theorem step_elapse {left : List Byte} {n : Nat} (hreply : s.reply = some left) (htimer : s.bus.timer = .waiting n) :
    step s = .next (elapse s) := by
  rw [step_reply hfsm hreply hrst, sendReply_waiting left htimer]

end Replying

/-- Settles O46, by induction on the reply bytes. -/
theorem replyIsHandedOver : Obligations.ReplyIsHandedOver := by
  unfold Obligations.ReplyIsHandedOver
  intro bs
  induction bs with
  | nil =>
    intro s hfsm hreply htimer _ hrst
    rw [run_succ (step_startLine hfsm hrst hreply htimer), List.map_nil, List.append_nil]
    rfl
  | cons b bs ih =>
    intro s hfsm hreply htimer hready hrst
    have hrest := ih (handOver b bs s) hfsm rfl htimer hready hrst
    rw [List.length_cons, run_succ (step_handOver hfsm hrst hreply htimer hready), hrest, handOver_history, List.append_assoc]
    rfl

/-- With or without a delay before it, a reply ends in AwaitingLine. -/
theorem run_reply {bs : List Byte} {s : State} (hfsm : s.fsm = .dispatching) (hreply : s.reply = some bs)
    (hready : s.txReady = true) (hrst : s.rst = none) :
    ∃ n, Sys2Proof.core.run n s = .next { startLine (elapse s) with history := s.history ++ bs.map PortEvent.tx } := by
  have hrun := replyIsHandedOver bs (elapse s) hfsm hreply rfl hready hrst
  cases htimer : s.bus.timer with
  | waiting n => exact ⟨_, (run_succ (step_elapse hfsm hrst hreply htimer) _).trans hrun⟩
  | idle =>
    have hsame : elapse s = s := by rw [elapse, ← htimer]
    rw [hsame] at hrun ⊢
    exact ⟨_, hrun⟩

/-! ### The whole line (R222, R227) -/

/-- From deasserted lines the dispatch of any line goes on and adds pin events alone (R202). -/
theorem dispatch_pins {s : State} (hquiet : s.bus.quiet) :
    ∃ (t : State) (es : List BusEvent), dispatch s = .next t ∧ t.history = s.history ++ es.map PortEvent.pin ∧ t.bus.quiet := by
  rw [dispatch]
  split
  · exact ⟨_, [], rfl, (List.append_nil _).symm, hquiet⟩
  · obtain ⟨t, es, ht, hhistory, -, -, hquiet'⟩ := commandTracesAreLegal (decodeLine s.params s.lineBytes) s hquiet
    exact ⟨t, es, ht, hhistory, hquiet'⟩

/-- A run to where the handler is done, at most one step: a reply stands in the queue, and only pin events were added. -/
theorem run_handler {s : State} (hfsm : s.fsm = .dispatching) (hrst : s.rst = none) (hquiet : s.bus.quiet) :
    ∃ (n : Nat) (u : State) (es : List BusEvent) (r : List Byte), Sys2Proof.core.run n s = .next u ∧ u.fsm = .dispatching ∧
      u.rx = s.rx ∧ u.txReady = s.txReady ∧ u.rst = none ∧ u.reply = some r ∧ u.bus.quiet ∧
      u.history = s.history ++ es.map PortEvent.pin := by
  cases hreply : s.reply with
  | some r => exact ⟨0, s, [], r, rfl, hfsm, rfl, rfl, hrst, hreply, hquiet, (List.append_nil _).symm⟩
  | none =>
    obtain ⟨u, es, hdispatch, hhistory, hquiet'⟩ := dispatch_pins hquiet
    obtain ⟨hfsm', hrx, hready, hrst', r, hreply'⟩ := dispatch_frame hdispatch
    have hstep : step s = .next u := (step_dispatch hfsm hreply hrst).trans hdispatch
    exact ⟨1, u, es, r, run_succ hstep 0, hfsm'.trans hfsm, hrx, hready, hrst'.trans hrst, hreply', hquiet', hhistory⟩

/-- Settles O55: the handler runs, then its reply is handed over. -/
theorem everyLineReturnsToAwaitingLine : Obligations.EveryLineReturnsToAwaitingLine := by
  unfold Obligations.EveryLineReturnsToAwaitingLine
  intro s hinv hfsm hready hrst
  obtain ⟨-, -, -, -, -, -, -, -, hquiet, -⟩ := hinv
  obtain ⟨m, u, es, r, hrun, hfsm', hrx, hready', hrst', hreply, hquiet', hhistory⟩ := run_handler hfsm hrst hquiet
  obtain ⟨n, hrun'⟩ := run_reply hfsm' hreply (hready'.trans hready) hrst'
  exact ⟨m + n, _, es, r, (run_add hrun n).trans hrun', rfl, rfl, rfl, rfl, hrx, hquiet', by rw [hhistory]⟩

end Sys2Proof.Machine
end

section
/-!
PROOF of VersionReplies (O20), HelpReplies (O21), EmptyLineDoesNothing (O22) and PrepareSetsBaseAndErasesPage (O30): the commands that only
queue a reply, and N with its full prepare (44_commands.md R250, R256, R259, R260).
-/

namespace Sys2Proof.Machine

/-- Settles O20: V is one `emit`. -/
theorem versionReplies : Obligations.VersionReplies := by
  unfold Obligations.VersionReplies
  intro s
  exact congrArg Host.Outcome.next (emit_eq s.params.versionString s)

/-- Settles O21: `?` is one `emit` for each line of the text. -/
theorem helpReplies : Obligations.HelpReplies := by
  unfold Obligations.HelpReplies
  exact ⟨List.cons_ne_nil _ _, fun s => congrArg Host.Outcome.next (emitAll_eq s.params.helpText s)⟩

/-- Settles O22: the handler of the empty line ends as one that emits no line. -/
theorem emptyLineDoesNothing : Obligations.EmptyLineDoesNothing := by
  unfold Obligations.EmptyLineDoesNothing
  intro s
  exact congrArg Host.Outcome.next (emitAll_eq [] s)

/-- Settles O30: N leaves `preparedPage`, which is the erased page with this value of the parameter. -/
theorem prepareSetsBaseAndErasesPage : Obligations.PrepareSetsBaseAndErasesPage := by
  unfold Obligations.PrepareSetsBaseAndErasesPage
  intro a s hfill
  rw [exec_prepare, preparedPage_full hfill]

end Sys2Proof.Machine
end

section
/-!
PROOF of MissingOperandIsMalformed (O29), ChecksumMismatchReplies (O28) and ErrorsHaveNoSideEffects (O34): which operands the parse finds
missing, and that every command that ends in an error is one `raise`, before or after the load of the Transfer Buffer (44_commands.md R262
to R264).
-/

namespace Sys2Proof.Machine

/-! ### Missing operands (R263, R109) -/

/-- No character is taken exactly where the address field is empty: `exists_addrField` cuts the line into the field and the rest. -/
theorem parseAddr_count_eq_zero_iff (cs : List Byte) : (parseAddr cs).2.1 = 0 ↔ cs = [] ∨ cs.head? = some colon := by
  obtain ⟨field, rest, rfl, hcolon, hlen, hend⟩ := exists_addrField 4 cs
  rw [parseAddr_append hcolon hlen hend]
  cases field with
  | nil => simpa using hend
  | cons c field =>
    have hc : c ≠ colon := fun h => hcolon (h ▸ List.mem_cons_self)
    simp [hc]

theorem requireAddr_eq_missing_iff (cs : List Byte) : requireAddr cs = .missing ↔ (parseAddr cs).2.1 = 0 := by
  rw [requireAddr_eq]
  split
  · next h => simp [h]
  · next h => simp [h]

/-- W and S look for the address first, then for the separator (R262). -/
theorem parsePayload_missing_iff (cap : Nat) (cs : List Byte) :
    (parsePayload cap cs = .noAddress ↔ (parseAddr cs).2.1 = 0) ∧
      (parsePayload cap cs = .noSeparator ↔ (parseAddr cs).2.1 ≠ 0 ∧ (parseAddr cs).2.2.head? ≠ some colon) := by
  rw [parsePayload]
  split
  · next h => simp [h]
  · next h => simp [h]
  · next h =>
    split
    · next hc => simp [h, hc]
    · next hc => simp [h, hc]

/-- A command without an operand that it needs raises Malformed and does nothing else. -/
theorem exec_missingOperand {i : Instr} (s : State)
    (hi : i ∈ [.read .missing, .prepare .missing, .write .noAddress, .write .noSeparator, .fill .noAddress, .fill .noSeparator]) :
    exec i s = .next (raise .malformed s) := by
  simp only [List.mem_cons, List.not_mem_nil, or_false] at hi
  rcases hi with rfl | rfl | rfl | rfl | rfl | rfl
  · rfl
  · rfl
  · rfl
  · rfl
  · rfl
  · rfl

/-- Settles O29: the counts and the separator decide the form, and each form raises. -/
theorem missingOperandIsMalformed : Obligations.MissingOperandIsMalformed := by
  unfold Obligations.MissingOperandIsMalformed
  refine ⟨fun cap cs => ?_, fun s i hi => ?_⟩
  · obtain ⟨hAddress, hSeparator⟩ := parsePayload_missing_iff cap cs
    have hcount := parseAddr_count_eq_zero_iff cs
    exact ⟨(requireAddr_eq_missing_iff cs).trans hcount, hAddress.trans hcount, hSeparator⟩
  · rw [exec_missingOperand s hi, raise_eq]
    rfl

/-! ### Errors (R264) -/

/-- W, on the operands that its parse gives (R254). -/
theorem exec_write (arg : PayloadOperand) (s : State) :
    exec (.write arg) s = withPayload arg (fun a bs u => replyOk (bulkWrite a bs u)) s := rfl

/-- S, on the operands that its parse gives (R257). -/
theorem exec_fill (arg : PayloadOperand) (s : State) :
    exec (.fill arg) s = withPayload arg (fun a bs u => .next (emit okLine (fillPageBuffer a bs u))) s := rfl

theorem checksumMismatch_of_ne {g : Byte} {bs : List Byte} (h : g ≠ xorsum bs) :
    checksumMismatch (some g) bs = some (g, xorsum bs) :=
  if_pos h

/-- S ends in the errors of W (R257, R262). -/
theorem raisesError_fill (arg : PayloadOperand) : raisesError (.fill arg) = raisesError (.write arg) := by
  cases arg with
  | noAddress => rfl
  | noSeparator => rfl
  | fields a data given =>
    cases given with
    | none => rfl
    | some g => rfl

/-- The one error of W and S with all fields is the wrong checksum, raised after the load (R262). -/
theorem withPayload_error {a : Word} {data : List Byte} {given : Option Byte} {run : Word → List Byte → State → Result} {s : State}
    {e : ErrorKind} (hfits : data.length ≤ s.params.xferCap) (herror : raisesError (.write (.fields a data given)) = some e) :
    withPayload (.fields a data given) run s = .next (raise e (loadXfer data s)) := by
  rw [raisesError_write_fields, Option.map_eq_some_iff] at herror
  obtain ⟨gc, hsum, rfl⟩ := herror
  exact withPayload_mismatch hfits hsum

/-- The result is the raise of `e`, with the Transfer Buffer as it was or loaded. -/
def RaisesFrom (s : State) (e : ErrorKind) (r : Result) : Prop :=
  r = .next (raise e s) ∨ ∃ data, r = .next (raise e (loadXfer data s))

/-- W and S, whatever their operands are. -/
theorem withPayload_raises {arg : PayloadOperand} {run : Word → List Byte → State → Result} {s : State} {e : ErrorKind}
    (hwf : arg.wellFormed s.params = true) (herror : raisesError (.write arg) = some e) :
    RaisesFrom s e (withPayload arg run s) := by
  cases arg with
  | noAddress => cases herror; exact .inl rfl
  | noSeparator => cases herror; exact .inl rfl
  | fields a data given => exact .inr ⟨data, withPayload_error (of_decide_eq_true hwf) herror⟩

/-- A well-formed command that ends in an error is the raise of that error. -/
theorem exec_raises {i : Instr} {e : ErrorKind} {s : State} (hwf : wellFormed s.params i = true) (herror : raisesError i = some e) :
    RaisesFrom s e (exec i s) := by
  cases i with
  | read arg =>
    cases arg with
    | missing => cases herror; exact .inl rfl
    | value a => cases herror
  | prepare arg =>
    cases arg with
    | missing => cases herror; exact .inl rfl
    | value a => cases herror
  | write arg =>
    rw [exec_write]
    exact withPayload_raises hwf herror
  | fill arg =>
    rw [exec_fill]
    exact withPayload_raises hwf (raisesError_fill arg ▸ herror)
  | unrecognized tag => cases herror; exact .inl rfl
  | version => cases herror
  | protect => cases herror
  | unprotect => cases herror
  | erase => cases herror
  | program => cases herror
  | help => cases herror
  | empty => cases herror

/-- Settles O34: a raise queues its line, and a load before it changes the Transfer Buffer alone. -/
theorem errorsHaveNoSideEffects : Obligations.ErrorsHaveNoSideEffects := by
  unfold Obligations.ErrorsHaveNoSideEffects
  intro i e s hwf herror
  obtain h | ⟨data, h⟩ := exec_raises hwf herror
  · exact ⟨_, h, raise_eq e s, fun hok => errorLine_starts hok e⟩
  · exact ⟨_, h, raise_eq e (loadXfer data s), fun hok => errorLine_starts hok e⟩

/-- Settles O28: W and S raise the same error after the same load. -/
theorem checksumMismatchReplies : Obligations.ChecksumMismatchReplies := by
  unfold Obligations.ChecksumMismatchReplies
  intro a data g s hfits hne
  have hsum := checksumMismatch_of_ne hne
  rw [exec_write, exec_fill, withPayload_mismatch hfits hsum, withPayload_mismatch hfits hsum]
  exact ⟨_, rfl, rfl, raise_eq _ (loadXfer data s)⟩

end Sys2Proof.Machine
end

section
/-!
PROOF of EraseRunsSequence (O25), ProtectRunsSequence (O23), UnprotectRunsSequence (O24), WriteSendsDataBytes (O27), ProgramWritesWholePage
(O33) and ReadRepliesSixteenBytes (O26): the bus registers after each chip operation from deasserted lines, and the whole next state of the
command around it (42_chip_operations.md R190 to R200).
-/

namespace Sys2Proof.Machine

/-! ### The bus registers after a chip operation -/

/-- After writes the last address and byte stay on the pins (R191); with no write only the direction is set. -/
theorem outputTrace_bus {b : BusRegs} (h : b.quiet) (p : Params) (bits : Nat) (cs : List (Word × Byte)) :
    (outputTrace p cs).foldl (applyEvent bits) b =
      { b with
        dir := .output
        addr := (cs.getLast?.map fun c => chipaddr bits c.1).getD b.addr
        dout := (cs.getLast?.map Prod.snd).getD b.dout
        timer := .idle } := by
  obtain ⟨hce, -, hwe⟩ := h
  refine (writeTrace_bus p bits cs { b with dir := .output, timer := .idle } hce hwe rfl).trans ?_
  cases cs.getLast? with
  | none => rfl
  | some c => rfl

/-- After reads the last address stays on the pins, and OE ends deasserted (R190). -/
theorem bulkReadTrace_bus {b : BusRegs} (h : b.quiet) (p : Params) (bits : Nat) (a : Word) (bs : List Byte) :
    (bulkReadTrace p a bs).foldl (applyEvent bits) b =
      { b with
        dir := .input
        addr := if bs = [] then b.addr else chipaddr bits (a + BitVec.ofNat 16 (bs.length - 1))
        timer := .idle } := by
  obtain ⟨hce, hoe, -⟩ := h
  have hreads := readTrace_bus p bits a bs { b with dir := .input, oe := true, timer := .idle } hce rfl
  calc (bulkReadTrace p a bs).foldl (applyEvent bits) b
    _ = applyEvent bits ((readTrace p a bs).foldl (applyEvent bits) { b with dir := .input, oe := true, timer := .idle })
          (.deassertLine .oe) := by rw [bulkReadTrace, List.foldl_append, List.foldl_append]; rfl
    _ = _ := by rw [hreads, hoe]; rfl

/-- The last write of a run of consecutive addresses. -/
theorem consecutive_getLast? (a : Word) (bs : List Byte) :
    (consecutive a bs).getLast? = bs.getLast?.map fun v => (a + BitVec.ofNat 16 (bs.length - 1), v) := by
  induction bs generalizing a with
  | nil => rfl
  | cons b bs ih =>
    cases bs with
    | nil => simp
    | cons c bs =>
      rw [consecutive_cons, consecutive_cons, List.getLast?_cons_cons, ← consecutive_cons, ih, add_one_add_ofNat,
        List.getLast?_cons_cons]
      rfl

/-- The address that a run of consecutive writes leaves on the pins. -/
theorem consecutive_last_addr (bits : Nat) (a : Word) (bs : List Byte) (old : ChipAddr) :
    ((consecutive a bs).getLast?.map fun c => chipaddr bits c.1).getD old =
      if bs = [] then old else chipaddr bits (a + BitVec.ofNat 16 (bs.length - 1)) := by
  rw [consecutive_getLast?]
  cases bs with
  | nil => rfl
  | cons b bs => simp [List.getLast?_cons]

/-- The byte that it leaves there. -/
theorem consecutive_last_byte (a : Word) (bs : List Byte) (old : Byte) :
    ((consecutive a bs).getLast?.map Prod.snd).getD old = bs.getLastD old := by
  rw [← List.getLast?_map, consecutive_map_snd, List.getLastD_eq_getLast?]

/-! ### Writes (R191, R197, R200) -/

/-- A command that replies `OK` after pin events alone. -/
theorem emit_okLine_perform (es : List BusEvent) (s : State) :
    emit okLine (perform es s) =
      { s with
        bus := es.foldl (applyEvent s.params.addrBits) s.bus
        history := s.history ++ es.map PortEvent.pin
        reply := s.replied [[0x4F, 0x4B]] } :=
  emit_eq okLine (perform es s)

/-- Settles O25: B is the erase sequence and `OK`. -/
theorem eraseRunsSequence : Obligations.EraseRunsSequence := by
  unfold Obligations.EraseRunsSequence
  refine ⟨fun s hquiet => ?_, rfl⟩
  have hexec : exec .erase s = _ := congrArg replyOk (eraseChip_ok hquiet)
  rw [hexec, replyOk, emit_okLine_perform, outputTrace_bus hquiet]
  rfl

/-- No checksum and the right one pass the comparison (R262). -/
theorem checksumMismatch_eq_none_of_right {given : Option Byte} {data : List Byte}
    (h : given = none ∨ given = some (xorsum data)) : checksumMismatch given data = none := by
  rcases h with rfl | rfl
  · rfl
  · exact checksumMismatch_some_eq_none.mpr rfl

/-- Settles O27: W is the load, then a run of consecutive writes and `OK`. -/
theorem writeSendsDataBytes : Obligations.WriteSendsDataBytes := by
  unfold Obligations.WriteSendsDataBytes
  intro a data given s hfits hquiet hgiven
  have hsum := checksumMismatch_eq_none_of_right hgiven
  have hwrite := bulkWrite_ok (a := a) (bs := data) (s := loadXfer data s) hquiet
  rw [exec_write, withPayload_match hfits hsum, hwrite, replyOk]
  refine ⟨_, rfl, loadXfer_xferBytes_of_fits hfits, ?_⟩
  rw [emit_okLine_perform, outputTrace_bus (b := (loadXfer data s).bus) hquiet, consecutive_last_addr, consecutive_last_byte]
  rfl

/-- Settles O33: T is a run of consecutive writes, the wait, and `OK`. -/
theorem programWritesWholePage : Obligations.ProgramWritesWholePage := by
  unfold Obligations.ProgramWritesWholePage
  intro s hquiet
  have hexec : exec .program s = _ := congrArg replyOk (programPageBuffer_ok hquiet)
  rw [hexec, replyOk, emit_okLine_perform, List.foldl_append, outputTrace_bus hquiet, consecutive_last_addr,
    consecutive_last_byte]
  rfl

/-! ### The protection commands (R192, R193) -/

theorem writeTrace_append (p : Params) (cs ds : List (Word × Byte)) :
    writeTrace p (cs ++ ds) = writeTrace p cs ++ writeTrace p ds := by
  induction cs with
  | nil => rfl
  | cons c cs ih => rw [List.cons_append, writeTrace, ih, writeTrace, List.append_assoc]

/-- The events of P and U as one list: the read cycle, the sequence, the trailing write. -/
theorem protectionTrace_eq (s : State) (enable : Bool) :
    protectionTrace s enable =
      [BusEvent.setDir .input, .assertLine .oe] ++ readCycle s.params s.params.sdpRestoreAddr s.nextSample ++
        [BusEvent.deassertLine .oe, .setDir .output] ++ writeTrace s.params (sdpCycles s.params enable) ++
        writeCycle s.params s.params.sdpRestoreAddr s.nextSample := by
  simp [protectionTrace, bulkReadTrace, outputTrace, readTrace, writeTrace_append, writeTrace]

/-- The trailing write is the last thing on the pins. -/
theorem protectionTrace_bus {s : State} (hquiet : s.bus.quiet) (bits : Nat) (enable : Bool) :
    (protectionTrace s enable).foldl (applyEvent bits) s.bus =
      { ce := false, oe := false, we := false, dir := .output, addr := chipaddr bits s.params.sdpRestoreAddr
        dout := s.nextSample, timer := .idle } := by
  rw [protectionTrace, List.foldl_append, outputTrace_bus (quiet_bulkReadTrace hquiet), List.getLast?_concat,
    bulkReadTrace_bus hquiet]
  obtain ⟨hce, hoe, hwe⟩ := hquiet
  simp [hce, hoe, hwe]

/-- The whole next state of P and U. -/
theorem replyOk_setSoftwareDataProtection {s : State} (hquiet : s.bus.quiet) (enable : Bool) :
    replyOk (setSoftwareDataProtection enable s) =
      .next { s with
        sdpSaved := s.nextSample
        eepIn := s.eepIn.tail
        samples := s.samples + 1
        bus :=
          { ce := false, oe := false, we := false, dir := .output, addr := chipaddr s.params.addrBits s.params.sdpRestoreAddr
            dout := s.nextSample, timer := .idle }
        history := s.history ++ (protectionTrace s enable).map PortEvent.pin
        reply := s.replied [[0x4F, 0x4B]] } := by
  rw [setSoftwareDataProtection_eq, if_pos (dirReady_of_quiet hquiet), replyOk, emit_eq, ← protectionTrace_bus hquiet s.params.addrBits enable]
  rfl

/-- Settles O23: P is the change of the protection with the enable sequence, and `OK`. -/
theorem protectRunsSequence : Obligations.ProtectRunsSequence := by
  unfold Obligations.ProtectRunsSequence
  refine ⟨fun s hquiet => ?_, rfl⟩
  rw [← protectionTrace_eq]
  exact replyOk_setSoftwareDataProtection hquiet true

/-- Settles O24: U is the change of the protection with the disable sequence, and `OK`. -/
theorem unprotectRunsSequence : Obligations.UnprotectRunsSequence := by
  unfold Obligations.UnprotectRunsSequence
  refine ⟨fun s hquiet => ?_, rfl⟩
  rw [← protectionTrace_eq]
  exact replyOk_setSoftwareDataProtection hquiet false

/-! ### Reads (R190) -/

/-- The two reply lines of R (R253), for bytes that fit the Transfer Buffer. -/
theorem replyData_loadXfer (a : Word) {bs : List Byte} {s : State} (hfits : bs.length ≤ s.params.xferCap) :
    replyData a (loadXfer bs s) = { loadXfer bs s with reply := s.replied [dataLine a bs, okLine] } := by
  rw [replyData, loadXfer_xferBytes_of_fits hfits, emit_eq, emit_eq]
  simp [State.replied, State.replyBytes]

theorem dataLine_eq (a : Word) (bs : List Byte) :
    dataLine a bs = hex4 a ++ [0x3A] ++ bs.flatMap hex2 ++ [0x2C] ++ hex2 (xorsum bs) := by
  simp [dataLine, colon, comma]

/-- The whole next state of R: a bulkRead, the load of its samples, and the two lines. -/
theorem exec_read (a : Word) {s : State} (hquiet : s.bus.quiet) {bs : List Byte} (hbs : bs = samplesAhead s.params.xferCap s) :
    exec (.read (.value a)) s =
      .next { s with
        xfer := overwrite s.params.xferCap s.xfer bs
        xferN := bs.length
        eepIn := s.eepIn.drop s.params.xferCap
        samples := s.samples + s.params.xferCap
        bus := { s.bus with
          dir := .input
          addr := if bs = [] then s.bus.addr else chipaddr s.params.addrBits (a + BitVec.ofNat 16 (bs.length - 1))
          timer := .idle }
        history := s.history ++ (bulkReadTrace s.params a bs).map PortEvent.pin
        reply := s.replied [dataLine a bs, okLine] } := by
  subst hbs
  rw [exec, execRead_eq, if_pos (dirReady_of_quiet hquiet), takeSamples_eq, replyData_loadXfer, ← bulkReadTrace_bus hquiet]
  · rfl
  · exact (samplesAhead_length _ s).le

/-- Settles O26: the loaded bytes are the valid ones, and all of a Transfer Buffer that has its capacity. -/
theorem readRepliesSixteenBytes : Obligations.ReadRepliesSixteenBytes := by
  unfold Obligations.ReadRepliesSixteenBytes
  intro a s hquiet
  obtain ⟨bs, hbs⟩ : ∃ bs, bs = samplesAhead s.params.xferCap s := ⟨_, rfl⟩
  have hlen : bs.length = s.params.xferCap := hbs ▸ samplesAhead_length _ s
  have hloaded : (loadXfer bs s).xferBytes = bs := loadXfer_xferBytes_of_fits hlen.le
  refine ⟨_, bs, exec_read a hquiet hbs, hbs, hlen, hloaded, fun hxfer => overwrite_full hxfer hlen, ?_⟩
  rw [dataLine_eq, ← hlen]
  rfl

end Sys2Proof.Machine
end

section
/-!
PROOF of FillStoresAtMaskedOffset (O32): the page after S is `fillPage`, whose index of the `k`-th byte is `k` steps on from the masked
offset (42_chip_operations.md R199, 20_memory.md R74).
-/

namespace Sys2Proof.Machine

/-- `j` lies `k` steps on from `i` in a page of `cap` bytes, read forwards and backwards. -/
theorem pageDistance_eq_iff {cap i j k : Nat} (hi : i < cap) (hj : j < cap) (hk : k < cap) :
    (j + cap - i) % cap = k ↔ j = (i + k) % cap := by
  constructor
  · rintro rfl
    rw [Nat.add_mod_mod, Nat.add_sub_cancel' (by omega), Nat.add_mod_right, Nat.mod_eq_of_lt hj]
  · rintro rfl
    rw [Nat.add_sub_assoc hi.le, Nat.mod_add_mod, Nat.add_right_comm, Nat.add_sub_cancel' hi.le, Nat.add_mod_left,
      Nat.mod_eq_of_lt hk]

section Filled

variable {p : Params} {page bs : List Byte}

/-- The `k`-th byte of a fill stands `k` steps on from the masked offset. -/
theorem fillPage_stores (hok : p.ok) (a : Word) (hpage : page.length = p.pageCap) (hlen : bs.length ≤ p.pageCap) {k : Nat}
    (hk : k < bs.length) : (fillPage p.pageMask page a bs)[(a.toNat % p.pageCap + k) % p.pageCap]? = bs[k]? := by
  have hpos := pageCap_pos hok
  have hdist := (pageDistance_eq_iff (Nat.mod_lt a.toNat hpos) (Nat.mod_lt _ hpos) (hk.trans_le hlen)).mpr rfl
  rw [fillPage_get hok a hpage hlen (Nat.mod_lt _ hpos), pageIndex_eq hok, hdist, if_pos hk]

/-- Every other byte of the page stays. -/
theorem fillPage_keeps (hok : p.ok) (a : Word) (hpage : page.length = p.pageCap) (hlen : bs.length ≤ p.pageCap) {j : Nat}
    (hj : ∀ k, k < bs.length → j ≠ (a.toNat % p.pageCap + k) % p.pageCap) :
    (fillPage p.pageMask page a bs)[j]? = page[j]? := by
  by_cases hjcap : j < p.pageCap
  · have hpos := pageCap_pos hok
    have hdist : ¬ (j + p.pageCap - pageIndex p.pageMask a) % p.pageCap < bs.length := fun hlt => by
      rw [pageIndex_eq hok] at hlt
      exact hj _ hlt ((pageDistance_eq_iff (Nat.mod_lt _ hpos) hjcap (hlt.trans_le hlen)).mp rfl)
    rw [fillPage_get hok a hpage hlen hjcap, if_neg hdist]
  · rw [List.getElem?_eq_none (by rw [fillPage_length]; omega), List.getElem?_eq_none (by omega)]

end Filled

/-- Settles O32: S is the load, then the fill and `OK`. -/
theorem fillStoresAtMaskedOffset : Obligations.FillStoresAtMaskedOffset := by
  unfold Obligations.FillStoresAtMaskedOffset
  intro a data given s hfits hgiven
  have hsum := checksumMismatch_eq_none_of_right hgiven
  rw [exec_fill, withPayload_match hfits hsum]
  refine ⟨_, rfl, loadXfer_xferBytes_of_fits hfits, emit_eq okLine _, fillPage_length _ _ _ _, fun hok hpage hlen => ⟨?_, ?_⟩⟩
  · exact fun k hk => fillPage_stores hok a hpage hlen hk
  · exact fun j hj => fillPage_keeps hok a hpage hlen hj

end Sys2Proof.Machine
end

section
/-!
PROOF of ProgramStoresPageOnIdealChip (O58) and WriteThenReadOnIdealChip (O57): a run of writes at consecutive addresses that is no longer
than the chip hits each of its chip addresses once, so that the ideal chip of decision D38 holds each byte where it was written.
-/

namespace Sys2Proof.Machine

/-! ### Storing many bytes (D38) -/

section Stores

variable {bits : Nat} {m : ChipMemory} {ws : List (ChipAddr × Byte)}

/-- A byte that no write goes to stays. -/
theorem readCell_storeAll_of_notMem (hm : m.wf bits = true) (hrange : ∀ w ∈ ws, w.1.toNat < 2 ^ bits) {c : Nat}
    (hc : c ∉ ws.map fun w => w.1.toNat) : readCell (storeAll m ws) c = readCell m c := by
  induction ws generalizing m with
  | nil => rfl
  | cons w ws ih =>
    obtain ⟨a, v⟩ := w
    obtain ⟨ha, hws⟩ := List.forall_mem_cons.mp hrange
    obtain ⟨hne, hnotMem⟩ : ¬ c = a.toNat ∧ c ∉ ws.map fun w => w.1.toNat := by simpa using hc
    rw [storeAll, ih (wf_writeCell hm ha v) hws hnotMem, readCell_writeCell hm, if_neg (Ne.symm hne)]

/-- Where every address is written once, each write is read back. -/
theorem readCell_storeAll_of_mem (hm : m.wf bits = true) (hrange : ∀ w ∈ ws, w.1.toNat < 2 ^ bits)
    (honce : (ws.map fun w => w.1.toNat).Nodup) {w : ChipAddr × Byte} (hw : w ∈ ws) :
    readCell (storeAll m ws) w.1.toNat = w.2 := by
  induction ws generalizing m with
  | nil => cases hw
  | cons x ws ih =>
    obtain ⟨a, v⟩ := x
    obtain ⟨ha, hws⟩ := List.forall_mem_cons.mp hrange
    obtain ⟨hfirst, hrest⟩ := List.nodup_cons.mp honce
    have hm' := wf_writeCell hm ha v
    rcases List.mem_cons.mp hw with rfl | hw
    · rw [storeAll, readCell_storeAll_of_notMem hm' hws hfirst, readCell_writeCell hm, if_pos rfl]
    · exact ih hm' hws hrest hw

end Stores

/-! ### A run of consecutive writes (R71, R73) -/

/-- The `j`-th cycle of a run. -/
theorem consecutive_get (a : Word) {bs : List Byte} {j : Nat} (h : j < bs.length) :
    (consecutive a bs)[j]'(h.trans_eq (consecutive_length a bs).symm) = (a + BitVec.ofNat 16 j, bs[j]) := by
  induction bs generalizing a j with
  | nil => cases h
  | cons b bs ih =>
    cases j with
    | zero => simp
    | succ j =>
      rw [← add_one_add_ofNat]
      exact ih (a + 1) (Nat.lt_of_succ_lt_succ h)

/-- The write cycles of `bs` at consecutive addresses from `a` on, as the chip sees them. -/
def chipWrites (bits : Nat) (a : Word) (bs : List Byte) : List (ChipAddr × Byte) :=
  (consecutive a bs).map fun c => (chipaddr bits c.1, c.2)

theorem writesOf_outputTrace (p : Params) (bits : Nat) (b : BusRegs) (a : Word) (bs : List Byte) :
    writesOf bits b (outputTrace p (consecutive a bs)) = chipWrites bits a bs :=
  writesOf_writeTrace p bits (applyEvent bits b (.setDir .output)) (consecutive a bs)

theorem chipWrites_range (bits : Nat) (a : Word) (bs : List Byte) : ∀ w ∈ chipWrites bits a bs, w.1.toNat < 2 ^ bits := by
  intro w hw
  obtain ⟨c, -, rfl⟩ := List.mem_map.mp hw
  exact chipaddr_lt bits c.1

section Run

variable {bits : Nat} (hbits : bits ≤ 16) (a : Word) (bs : List Byte)

include hbits

/-- The chip addresses of a run, in order. -/
theorem chipWrites_addrs :
    (chipWrites bits a bs).map (fun w => w.1.toNat) = (List.range bs.length).map fun i => (a.toNat + i) % 2 ^ bits := by
  rw [chipWrites, List.map_map]
  refine List.ext_getElem (by simp) fun i hi _ => ?_
  rw [List.length_map, consecutive_length] at hi
  rw [List.getElem_map, consecutive_get a hi, List.getElem_map, List.getElem_range]
  exact chipaddr_add_toNat hbits a i

/-- A run no longer than the chip does not come back to an address. -/
theorem chipWrites_once (hlen : bs.length ≤ 2 ^ bits) : ((chipWrites bits a bs).map fun w => w.1.toNat).Nodup := by
  rw [chipWrites_addrs hbits]
  refine List.nodup_range.map_on fun i hi j hj hij => ?_
  have hmod : i ≡ j [MOD 2 ^ bits] := Nat.ModEq.add_left_cancel' a.toNat hij
  exact hmod.eq_of_lt_of_lt ((List.mem_range.mp hi).trans_le hlen) ((List.mem_range.mp hj).trans_le hlen)

variable {m : ChipMemory} (hm : m.wf bits = true)

include hm

/-- After a run no longer than the chip each byte stands where it was written. -/
theorem readCell_chipWrites {j : Nat} (hlen : bs.length ≤ 2 ^ bits) (hj : j < bs.length) :
    readCell (storeAll m (chipWrites bits a bs)) ((a.toNat + j) % 2 ^ bits) = bs[j] := by
  have hmem : (chipaddr bits (a + BitVec.ofNat 16 j), bs[j]) ∈ chipWrites bits a bs :=
    List.mem_map.mpr ⟨_, List.getElem_mem _, congrArg (fun c => (chipaddr bits c.1, c.2)) (consecutive_get a hj)⟩
  rw [← chipaddr_add_toNat hbits]
  exact readCell_storeAll_of_mem hm (chipWrites_range bits a bs) (chipWrites_once hbits a bs hlen) hmem

/-- A byte whose address is not one of the run's stays. -/
theorem readCell_chipWrites_other {c : Nat} (hc : ∀ j, j < bs.length → c ≠ (a.toNat + j) % 2 ^ bits) :
    readCell (storeAll m (chipWrites bits a bs)) c = readCell m c := by
  refine readCell_storeAll_of_notMem hm (chipWrites_range bits a bs) ?_
  rw [chipWrites_addrs hbits]
  intro hmem
  obtain ⟨j, hj, rfl⟩ := List.mem_map.mp hmem
  exact hc j (List.mem_range.mp hj) rfl

end Run

/-! ### T (R200, R258) -/

/-- T from deasserted lines writes the page, and its wait is no write. -/
theorem program_writesOf {s t : State} (hquiet : s.bus.quiet) (hexec : exec .program s = .next t) :
    writesOf s.params.addrBits s.bus (newPins s t) = chipWrites s.params.addrBits s.base s.page := by
  obtain ⟨u, hu, hhistory⟩ := exec_pins (i := .program) rfl hquiet
  obtain rfl := Host.Outcome.next.inj (hexec.symm.trans hu)
  rw [newPins_of_history hhistory, pinsOf_of_runs rfl, commandTrace, writesOf_append, writesOf_outputTrace]
  exact List.append_nil _

/-- Settles O58: the chip stores the write cycles of the page. -/
theorem programStoresPageOnIdealChip : Obligations.ProgramStoresPageOnIdealChip := by
  unfold Obligations.ProgramStoresPageOnIdealChip
  intro m s t hok hm hquiet hlen hexec
  obtain ⟨-, hbits, -⟩ := hok
  rw [program_writesOf hquiet hexec, chipAfter]
  exact ⟨fun j hj => readCell_chipWrites hbits s.base s.page hm hlen hj,
    fun c hc => readCell_chipWrites_other hbits s.base s.page hm hc⟩

/-! ### W, then R (R253, R254) -/

/-- W without a checksum writes its data bytes. -/
theorem write_writesOf {a : Word} {data : List Byte} {s t : State} (hfits : data.length ≤ s.params.xferCap) (hquiet : s.bus.quiet)
    (hexec : exec (.write (.fields a data none)) s = .next t) :
    writesOf s.params.addrBits s.bus (newPins s t) = chipWrites s.params.addrBits a data := by
  obtain ⟨u, hu, hhistory⟩ := exec_pins (i := .write (.fields a data none)) (decide_eq_true hfits) hquiet
  obtain rfl := Host.Outcome.next.inj (hexec.symm.trans hu)
  rw [newPins_of_history hhistory, pinsOf_of_runs rfl, commandTrace, writesOf_outputTrace]

theorem sampledBytes_readTrace (p : Params) (a : Word) (bs : List Byte) : sampledBytes (readTrace p a bs) = bs := by
  induction bs generalizing a with
  | nil => rfl
  | cons v bs ih => rw [readTrace, sampledBytes_append, ih]; rfl

theorem sampledAddrs_readTrace (p : Params) (bits : Nat) (b : BusRegs) (a : Word) (bs : List Byte) :
    sampledAddrs bits b (readTrace p a bs) = (consecutive a bs).map fun c => chipaddr bits c.1 := by
  induction bs generalizing a b with
  | nil => rfl
  | cons v bs ih => rw [readTrace, sampledAddrs_append, ih]; rfl

/-- The events around the read cycles of a bulkRead take no sample (R190). -/
theorem sampledBytes_bulkReadTrace (p : Params) (a : Word) (bs : List Byte) : sampledBytes (bulkReadTrace p a bs) = bs := by
  rw [bulkReadTrace, sampledBytes_append, sampledBytes_append, sampledBytes_readTrace]
  exact List.append_nil bs

theorem sampledAddrs_bulkReadTrace (p : Params) (bits : Nat) (b : BusRegs) (a : Word) (bs : List Byte) :
    sampledAddrs bits b (bulkReadTrace p a bs) = (consecutive a bs).map fun c => chipaddr bits c.1 := by
  rw [bulkReadTrace, sampledAddrs_append, sampledAddrs_append, sampledAddrs_readTrace]
  exact List.append_nil _

/-- Reads at the addresses of an earlier run, from a chip that stores it, sample what was written. -/
theorem drivenBy_bulkReadTrace {m : ChipMemory} {bits : Nat} (hbits : bits ≤ 16) (hm : m.wf bits = true) {a : Word}
    {data bs : List Byte} (hlen : bs.length = data.length) (hfits : data.length ≤ 2 ^ bits) {p : Params} {b : BusRegs}
    (hdriven : drivenBy (storeAll m (chipWrites bits a data)) bits b (bulkReadTrace p a bs)) : bs = data := by
  rw [drivenBy, sampledBytes_bulkReadTrace, sampledAddrs_bulkReadTrace, List.map_map] at hdriven
  refine List.ext_getElem hlen fun j hj hj' => ?_
  calc bs[j]
    _ = readCell (storeAll m (chipWrites bits a data)) (chipaddr bits (a + BitVec.ofNat 16 j)).toNat := by
      rw [List.getElem_of_eq hdriven hj, List.getElem_map, consecutive_get a hj]
      rfl
    _ = data[j] := by rw [chipaddr_add_toNat hbits, readCell_chipWrites hbits a data hm hfits hj']

/-- Settles O57: R's samples are the bytes that W stored, and its reply is the line of its samples. -/
theorem writeThenReadOnIdealChip : Obligations.WriteThenReadOnIdealChip := by
  unfold Obligations.WriteThenReadOnIdealChip
  intro a data m s t u v hok hcap hlen hm hquiet hwrite hparams hquiet' hread hdriven
  obtain ⟨-, hbits, -⟩ := hok
  obtain ⟨w, bs, hw, -, hbs, -, -, hnext⟩ := readRepliesSixteenBytes a u hquiet'
  obtain rfl := Host.Outcome.next.inj (hread.symm.trans hw)
  have hpins : newPins u v = bulkReadTrace u.params a bs := newPins_of_history (congrArg State.history hnext)
  rw [write_writesOf hcap.le hquiet hwrite, hpins, chipAfter] at hdriven
  rw [hparams, ← hcap] at hbs
  obtain rfl := drivenBy_bulkReadTrace hbits hm hbs hlen hdriven
  exact congrArg State.reply hnext

end Sys2Proof.Machine
end

section
/-!
PROOF of StalledTransportChangesNothing (O47): a reply whose next byte the transport does not take (60_exceptions.md R298).
-/

namespace Sys2Proof.Machine

/-- With no delay running, a reply offers its first byte, whatever the level of `tx_ready`. -/
theorem txOffer_reply {b : Byte} {bs : List Byte} {s : State} (hfsm : s.fsm = .dispatching) (hreply : s.reply = some (b :: bs))
    (htimer : s.bus.timer = .idle) : s.txOffer = some b := by
  simp only [State.txOffer, hfsm, htimer, hreply]

/-- Settles O47: the step is one of handing the reply over, which the transport stalls. -/
theorem stalledTransportChangesNothing : Obligations.StalledTransportChangesNothing := by
  unfold Obligations.StalledTransportChangesNothing
  intro b bs s hfsm hreply htimer hready hrst
  constructor
  · rw [step_reply hfsm hreply hrst, sendReply_stalled b bs htimer hready]
  · exact txOffer_reply hfsm hreply htimer

end Sys2Proof.Machine
end

section
/-!
PROOF of LegalTraceHasNoContention (O16): OE is asserted in Input alone, which every legal event keeps (70_reset_and_hazards.md R340 (b)
to (d)).
-/

namespace Sys2Proof.Machine

/-- OE is asserted only while the direction is Input: while the block drives the data lines, the chip does not. -/
def BusRegs.OeOnlyInInput (b : BusRegs) : Prop := b.oe = true → b.dir = .input

theorem BusRegs.quiet.oeOnlyInInput {b : BusRegs} (h : b.quiet) : b.OeOnlyInInput := by
  obtain ⟨-, hoe, -⟩ := h
  intro hasserted
  rw [hoe] at hasserted
  cases hasserted

theorem BusRegs.OeOnlyInInput.contention_eq_false {b : BusRegs} (h : b.OeOnlyInInput) : b.contention = false := by
  cases hoe : b.oe with
  | false => simp [BusRegs.contention, hoe]
  | true => simp [BusRegs.contention, h hoe]

/-- Only SetDir(Output) and Assert(OE) could break it: the first is legal with OE deasserted, the second in Input (R163, R340). -/
theorem oeOnlyInInput_applyEvent {p : Params} {b : BusRegs} {e : BusEvent} (hlegal : legalEvent p b e = true) (h : b.OeOnlyInInput)
    (bits : Nat) : (applyEvent bits b e).OeOnlyInInput := by
  cases e with
  | setDir d =>
    obtain ⟨-, -, hoe⟩ := dirReady_iff.mp hlegal
    cases d with
    | input => exact fun _ => rfl
    | output =>
      intro hasserted
      exact absurd ((hoe rfl).symm.trans hasserted) Bool.false_ne_true
  | assertLine l =>
    cases l with
    | ce => exact h
    | oe =>
      obtain ⟨-, hdir⟩ := Bool.and_eq_true_iff.mp hlegal
      exact fun _ => of_decide_eq_true hdir
    | we => exact h
  | deassertLine l =>
    cases l with
    | ce => exact h
    | oe => exact nofun
    | we => exact h
  | setAddr a => exact h
  | drive v => exact h
  | wait t => exact h
  | sample v => exact h

theorem oeOnlyInInput_foldl {p : Params} {b : BusRegs} {es : List BusEvent} (hlegal : legalTrace p b es = true)
    (h : b.OeOnlyInInput) : (es.foldl (applyEvent p.addrBits) b).OeOnlyInInput := by
  induction es generalizing b with
  | nil => exact h
  | cons e es ih =>
    rw [legalTrace_cons, Bool.and_eq_true] at hlegal
    obtain ⟨hevent, hrest⟩ := hlegal
    exact ih hrest (oeOnlyInInput_applyEvent hevent h p.addrBits)

/-- What the checker accepts it accepts up to any event. -/
theorem legalTrace_take {p : Params} {b : BusRegs} {es : List BusEvent} (h : legalTrace p b es = true) (n : Nat) :
    legalTrace p b (es.take n) = true := by
  rw [← List.take_append_drop n es, legalTrace_append, Bool.and_eq_true] at h
  obtain ⟨htake, -⟩ := h
  exact htake

/-- Settles O16: the events so far are a legal trace, which leaves OE asserted in Input alone. -/
theorem legalTraceHasNoContention : Obligations.LegalTraceHasNoContention := by
  unfold Obligations.LegalTraceHasNoContention
  intro p b es n hquiet hlegal
  exact (oeOnlyInInput_foldl (legalTrace_take hlegal n) hquiet.oeOnlyInInput).contention_eq_false

end Sys2Proof.Machine
end

section
/-!
PROOF of LeastWaitPerCommand (O39): the waits of each cycle, added up over the pin events of each command (70_reset_and_hazards.md R348).
-/

namespace Sys2Proof.Machine

/-! ### Adding up waits (41_bus_sequencer.md R167) -/

/-- The waits of a trace are those of its first event and those of the rest. -/
theorem leastWait_cons (e : BusEvent) (es : List BusEvent) : leastWait (e :: es) = leastWait [e] + leastWait es := by
  cases e with
  | wait t => rfl
  | setAddr a => exact (Nat.zero_add _).symm
  | setDir d => exact (Nat.zero_add _).symm
  | drive v => exact (Nat.zero_add _).symm
  | assertLine l => exact (Nat.zero_add _).symm
  | deassertLine l => exact (Nat.zero_add _).symm
  | sample v => exact (Nat.zero_add _).symm

theorem leastWait_append (es fs : List BusEvent) : leastWait (es ++ fs) = leastWait es + leastWait fs := by
  induction es with
  | nil => exact (Nat.zero_add _).symm
  | cons e es ih => rw [List.cons_append, leastWait_cons, ih, leastWait_cons e es, Nat.add_assoc]

/-- A read cycle waits for the data to settle (R164). -/
theorem leastWait_readCycle (p : Params) (a : Word) (v : Byte) : leastWait (readCycle p a v) = p.tSettleMin := rfl

/-- A write cycle waits while WE is asserted (R165). -/
theorem leastWait_writeCycle (p : Params) (a : Word) (v : Byte) : leastWait (writeCycle p a v) = p.tWeMin := rfl

theorem leastWait_readTrace (p : Params) (a : Word) (bs : List Byte) :
    leastWait (readTrace p a bs) = bs.length * p.tSettleMin := by
  induction bs generalizing a with
  | nil => exact (Nat.zero_mul _).symm
  | cons v bs ih => rw [readTrace, leastWait_append, leastWait_readCycle, ih, List.length_cons, Nat.succ_mul, Nat.add_comm]

theorem leastWait_writeTrace (p : Params) (cs : List (Word × Byte)) : leastWait (writeTrace p cs) = cs.length * p.tWeMin := by
  induction cs with
  | nil => exact (Nat.zero_mul _).symm
  | cons c cs ih => rw [writeTrace, leastWait_append, leastWait_writeCycle, ih, List.length_cons, Nat.succ_mul, Nat.add_comm]

/-! ### Commands -/

/-- Only the cycles of a bulkRead wait (R190). -/
theorem leastWait_bulkReadTrace (p : Params) (a : Word) (bs : List Byte) :
    leastWait (bulkReadTrace p a bs) = bs.length * p.tSettleMin := by
  rw [bulkReadTrace, leastWait_append, leastWait_append, leastWait_readTrace]
  exact Nat.zero_add _

/-- SetDir(Output) does not wait (R191). -/
theorem leastWait_outputTrace (p : Params) (cs : List (Word × Byte)) : leastWait (outputTrace p cs) = cs.length * p.tWeMin :=
  leastWait_writeTrace p cs

/-- One read of byte 0, and one write cycle more than the sequence has bytes (R192). -/
theorem leastWait_protectionTrace {s : State} (hok : s.params.ok) (enable : Bool) :
    leastWait (protectionTrace s enable) =
      s.params.tSettleMin +
        ((if enable then s.params.seqSdpEnable.length else s.params.seqSdpDisable.length) + 1) * s.params.tWeMin := by
  rw [protectionTrace, leastWait_append, leastWait_bulkReadTrace, leastWait_outputTrace, List.length_append, sdpCycles_length hok,
    List.length_singleton, List.length_singleton, Nat.one_mul]

/-- A command that runs waits as long as its row of R348 says. -/
theorem leastWait_commandTrace {i : Instr} {s : State} (hok : s.params.ok) (hpage : s.page.length = s.params.pageCap) :
    leastWait (commandTrace s i) = leastCommandWait s.params i := by
  cases i with
  | version => rfl
  | protect => exact leastWait_protectionTrace hok true
  | unprotect => exact leastWait_protectionTrace hok false
  | read arg =>
    cases arg with
    | missing => rfl
    | value a => rw [commandTrace, leastWait_bulkReadTrace, samplesAhead_length, leastCommandWait]
  | write arg =>
    cases arg with
    | noAddress => rfl
    | noSeparator => rfl
    | fields a data given => rw [commandTrace, leastWait_outputTrace, consecutive_length, leastCommandWait]
  | erase => rw [commandTrace, leastWait_outputTrace, eraseCycles_length hok, leastCommandWait]
  | prepare arg => rfl
  | fill arg => rfl
  | program =>
    rw [commandTrace, leastWait_append, leastWait_outputTrace, consecutive_length, hpage]
    rfl
  | help => rfl
  | empty => rfl
  | unrecognized tag => rfl

theorem leastWait_pinsOf (i : Instr) {s : State} (hok : s.params.ok) (hpage : s.page.length = s.params.pageCap) :
    leastWait (pinsOf i s) = if raisesError i = none then leastCommandWait s.params i else 0 := by
  rw [pinsOf, apply_ite leastWait, leastWait_commandTrace hok hpage]
  rfl

/-- Settles O39: the new events are `pinsOf`, whose waits are added up command by command; the rest is the table at the defaults. -/
theorem leastWaitPerCommand : Obligations.LeastWaitPerCommand := by
  unfold Obligations.LeastWaitPerCommand
  refine ⟨fun i s hwf hok hpage hquiet => ?_, fun a => rfl, fun a data g => rfl, rfl, rfl, rfl, rfl⟩
  obtain ⟨t, ht, hpins⟩ := exec_pins hwf hquiet
  refine ⟨t, ht, ?_⟩
  rw [newPins_of_history hpins]
  exact leastWait_pinsOf i hok hpage

end Sys2Proof.Machine
end

section
/-!
PROOF of ResetTakesPrecedence (O50) and ResetCutsTheCommandShort (O52): a reset before a step, and one within a step, end in `resetBlock`
(70_reset_and_hazards.md R330, R332, R333).
-/

namespace Sys2Proof.Machine

/-! ### Views after a reset (10_state.md R48, R52) -/

/-- A reset empties the output stream, whatever was sent before. -/
@[simp] theorem resetBlock_out (s : State) : (resetBlock s).out = [] := by
  rw [out_append (resetBlock_history s)]
  rfl

/-- A reset is no pin event. -/
@[simp] theorem resetBlock_trace (s : State) : (resetBlock s).trace = s.trace := by
  rw [trace_append (resetBlock_history s)]
  exact List.append_nil _

/-- Byte `j` of the page after reset number `n` is its draw (R39). -/
theorem pageInit_get {p : Params} {j : Nat} (h : j < p.pageCap) (n : Nat) :
    (pageInit p n)[j]? = some (Config.pageBufInit n j) := by
  rw [pageInit, List.getElem?_map, List.getElem?_range h, Option.map_some]

/-- Settles O50: the step is `resetBlock`, whose fields are the reset values. -/
theorem resetTakesPrecedence : Obligations.ResetTakesPrecedence := by
  unfold Obligations.ResetTakesPrecedence
  intro s hrst
  exact ⟨resetBlock s, step_reset hrst, rfl, rfl, rfl, rfl, rfl, resetBlock_out s, resetBlock_trace s, rfl, rfl, rfl, rfl, rfl, rfl,
    pageInit_length _ _, fun j hj => pageInit_get hj _⟩

/-! ### A reset within a step (R333) -/

section Cut

variable {k : Nat} {s t : State}

/-- A step with fewer events than the reset lets pass is whole, and the rest of the count is carried on. -/
theorem cutStep_whole (h : (newEvents s t).length < k) :
    cutStep k s (.next t) = .next { t with rst := some (k - (newEvents s t).length) } :=
  if_pos h

/-- Otherwise the reset comes after exactly the first `k` events. -/
theorem cutStep_cut (h : k ≤ (newEvents s t).length) :
    cutStep k s (.next t) = .next (cutShort ((newEvents s t).take k) t.rx s) :=
  if_neg (Nat.not_lt.mpr h)

end Cut

/-- Settles O52: whether the step makes enough events decides between the two; a cut step ends in the reset of what its events left. -/
theorem resetCutsTheCommandShort : Obligations.ResetCutsTheCommandShort := by
  unfold Obligations.ResetCutsTheCommandShort
  intro k s t hrst hstep
  rw [step_cut hrst, hstep]
  split
  · next hcut => exact ⟨_, cutStep_cut hcut, rfl, rfl, rfl, rfl, rfl, rfl, resetBlock_out _, rfl, rfl, rfl⟩
  · next hwhole => exact cutStep_whole (Nat.not_le.mp hwhole)

end Sys2Proof.Machine
end

section
/-!
PROOF of NoReplyByteDuringPageWait (O48): T leaves the delay timer running, and while it runs no reply byte is on offer
(70_reset_and_hazards.md R343, 42_chip_operations.md R200).
-/

namespace Sys2Proof.Machine

theorem txOffer_waiting {s : State} {n : Nat} (h : s.bus.timer = .waiting n) : s.txOffer = none := by
  simp [State.txOffer, h]

/-- T from deasserted lines: its pin events end with the write-cycle wait, and then `OK` is queued (R200, R258). -/
theorem exec_program {s : State} (hquiet : s.bus.quiet) :
    exec .program s =
      .next (emit okLine
        (perform (outputTrace s.params (consecutive s.base s.page) ++ [BusEvent.wait s.params.tPageMin]) s)) :=
  congrArg replyOk (programPageBuffer_ok hquiet)

/-- A wait performed last leaves the delay timer running (10_state.md R47). -/
theorem perform_concat_wait_timer (es : List BusEvent) (n : Nat) (s : State) :
    (perform (es ++ [BusEvent.wait n]) s).bus.timer = .waiting n := by
  rw [perform_bus, List.foldl_concat]
  rfl

theorem perform_concat_trace_getLast? (es : List BusEvent) (e : BusEvent) (s : State) :
    (perform (es ++ [e]) s).trace.getLast? = some e := by
  rw [perform_trace, ← List.append_assoc, List.getLast?_concat]

/-- Settles O48: the wait is T's last pin event, and the step after T is the end of its delay. -/
theorem noReplyByteDuringPageWait : Obligations.NoReplyByteDuringPageWait := by
  unfold Obligations.NoReplyByteDuringPageWait
  intro s hquiet hfsm hrst
  have htimer := perform_concat_wait_timer (outputTrace s.params (consecutive s.base s.page)) s.params.tPageMin s
  exact ⟨_, exec_program hquiet, txOffer_waiting htimer, perform_concat_trace_getLast? _ _ s, step_elapse hfsm hrst rfl htimer⟩

end Sys2Proof.Machine
end
